-- ==== Sys2Proof/Word.lean ====
section
/-! DEFINITION. The widths of the gamma_lut_rom core (spec/00_scope.md R11), one name each. -/
namespace Sys2Proof

/-- One byte of a byte-wide transport (20_memory.md R73). -/
abbrev Byte := BitVec 8

/-- A command, tick or response word (30_encoding.md R100, R108). -/
abbrev Word := BitVec 64

/-- An unsigned Q8.8 brightness: an integer scaled by 256 (00_scope.md R15). -/
abbrev Q88 := BitVec 16

/-- One gamma entry, unsigned Q8.8 (10_state.md R46). -/
abbrev Entry := BitVec 16

/-- The per-tick increment, two's complement Q8.8 (10_state.md R40). -/
abbrev FadeStep := BitVec 17

/-- A count of accepted TICKs (10_state.md R41, R42). -/
abbrev Ticks := BitVec 32

/-- A duration in milliseconds (00_scope.md R11). -/
abbrev Millis := BitVec 32

/-- A channel id as the words carry it (20_memory.md R71). -/
abbrev ChannelId := BitVec 8

end Sys2Proof
end

