-- ==== Sys2Proof/Syntax.lean ====
section
/-! DEFINITION. The eight instructions of spec/opcode_table.json, and what travels on the two input ports. -/
namespace Sys2Proof

/-- The seven host commands and the one time-source event (00_scope.md R3), with the operands of
30_encoding.md R100, R101 and R110. -/
inductive Instr where
  /-- 43_commands.md R243. -/
  | init (tickPeriodMs : Millis) (channelCount : BitVec 16)
  /-- 43_commands.md R244. -/
  | deinit
  /-- 43_commands.md R245. -/
  | setChannel (channelId : ChannelId) (value : Byte) (fadeDurationMs : Millis)
  /-- 43_commands.md R246. -/
  | startBlink (channelId : ChannelId) (value : Byte) (periodMs : Millis) (smooth : Bool)
  /-- 43_commands.md R247. -/
  | stopBlink (channelId : ChannelId)
  /-- 43_commands.md R248. -/
  | getChannel (channelId : ChannelId)
  /-- 43_commands.md R249: the LEN field, and the payload that follows the word (30_encoding.md R116). -/
  | setGammaTable (length : BitVec 9) (entries : List Entry)
  /-- 42_tick_scheduler.md R214. -/
  | tick
deriving DecidableEq, Repr

/-- The two ports on which words are offered to the core (10_state.md R50). -/
inductive Port where
  /-- Host to core. -/
  | cmd
  /-- TimeSource to core. -/
  | tick
deriving DecidableEq, Repr, Inhabited

/-- One transfer on the CMD port: a 64-bit word, or one 16-bit payload entry (20_memory.md R75). -/
inductive CmdItem where
  | word (w : Word)
  | entry (e : Entry)
deriving DecidableEq, Repr

/-- The rows of the opcode map (30_encoding.md R107). -/
inductive Mnemonic where
  | init | deinit | setChannel | startBlink | stopBlink | getChannel | setGammaTable | tick
deriving DecidableEq, Repr

/-- One row of the opcode map: a word `w` is the row's command iff `w AND mask = pattern` (30_encoding.md R107). -/
structure OpcodeRow where
  mnemonic : Mnemonic
  port : Port
  pattern : Word
  mask : Word
deriving DecidableEq, Repr

/-- Why a word is not the word of any instruction (30_encoding.md R111, R112, R113). -/
inductive IllegalWord where
  /-- R112: no CMD row has the word's opcode. -/
  | reservedOpcode
  /-- R111: the opcode is assigned, and a `Z` bit is not zero. -/
  | reservedField
  /-- R113: a word other than the tick word on the TICK port. -/
  | notTheTickWord
deriving DecidableEq, Repr

/-- What stands at the head of the CMD port (30_encoding.md R115, R117). -/
inductive CmdDecode where
  /-- One whole legal transaction, and what follows it. -/
  | instr (i : Instr) (rest : List CmdItem)
  /-- One whole transaction whose word matches no row; its payload is consumed with it (R111). -/
  | illegal (why : IllegalWord) (rest : List CmdItem)
  /-- No whole transaction has arrived yet (60_exceptions.md R301). -/
  | pending
  /-- Words of two transactions are interleaved (60_exceptions.md R301, 20_memory.md R86). -/
  | interleaved
deriving DecidableEq, Repr

/-- What stands at the head of the TICK port (30_encoding.md R117). -/
inductive TickDecode where
  | instr (i : Instr)
  | illegal (why : IllegalWord)
deriving DecidableEq, Repr

/-- The payload of a transaction, read from the CMD port (30_encoding.md R115). -/
inductive Payload where
  | complete (entries : List Entry) (rest : List CmdItem)
  | pending
  | interleaved
deriving DecidableEq, Repr

/-- The pseudo-instructions of 30_encoding.md R119. -/
inductive Pseudo where
  | setNow (ch : ChannelId) (v : Byte)
  | fade (ch : ChannelId) (v : Byte) (ms : Millis)
  | off (ch : ChannelId)
  | blinkSquare (ch : ChannelId) (v : Byte) (periodMs : Millis)
  | breathe (ch : ChannelId) (v : Byte) (periodMs : Millis)
deriving DecidableEq, Repr

end Sys2Proof
end

