-- ==== Sys2Proof/WellFormed.lean ====
section
/-! DEFINITION. Which terms of `Instr` a transaction on a port can stand for. Every other operand is bounded by its
own field's width (30_encoding.md R110: "no out-of-range value can be encoded"). -/
namespace Sys2Proof

/-- A SET_GAMMA_TABLE has exactly as many payload entries as its LEN field says (30_encoding.md R115, R116). -/
def Instr.wellFormed : Instr → Bool
  | .init _ _ => true
  | .deinit => true
  | .setChannel _ _ _ => true
  | .startBlink _ _ _ _ => true
  | .stopBlink _ => true
  | .getChannel _ => true
  | .setGammaTable length entries => entries.length == length.toNat
  | .tick => true

/-- `Instr.wellFormed` as a proposition. -/
abbrev Instr.WellFormed (i : Instr) : Prop := i.wellFormed = true

end Sys2Proof
end

