-- ==== Sys2Proof/Decode.lean ====
section
/-! DEFINITION. The decoder of both input ports (spec/30_encoding.md), total on every transfer and every byte, and
the encoder, written from the same formats. -/
namespace Sys2Proof

/-! ## Fields (R101-R106, R110) -/

/-- `OPC`, bits 63:56. -/
def fieldOPC (w : Word) : BitVec 8 := w.extractLsb' 56 8

/-- `CH`, bits 55:48. -/
def fieldCH (w : Word) : ChannelId := w.extractLsb' 48 8

/-- `VAL`, bits 47:40. -/
def fieldVAL (w : Word) : Byte := w.extractLsb' 40 8

/-- `SM`, bit 32. -/
def fieldSM (w : Word) : Bool := w.extractLsb' 32 1 == 1#1

/-- `ARG`, bits 31:0. -/
def fieldARG (w : Word) : Millis := w.extractLsb' 0 32

/-- `CNT`, bits 55:40. -/
def fieldCNT (w : Word) : BitVec 16 := w.extractLsb' 40 16

/-- `LEN`, bits 40:32. -/
def fieldLEN (w : Word) : BitVec 9 := w.extractLsb' 32 9

/-! ## The opcode map (R107) -/

/-- The rows of R107, in its order. -/
def opcodeRows : List OpcodeRow :=
  [ ⟨.init, .cmd, 0x0100000000000000#64, 0xFF0000FF00000000#64⟩,
    ⟨.deinit, .cmd, 0x0200000000000000#64, 0xFFFFFFFFFFFFFFFF#64⟩,
    ⟨.setChannel, .cmd, 0x0300000000000000#64, 0xFF0000FF00000000#64⟩,
    ⟨.startBlink, .cmd, 0x0400000000000000#64, 0xFF0000FE00000000#64⟩,
    ⟨.stopBlink, .cmd, 0x0500000000000000#64, 0xFF00FFFFFFFFFFFF#64⟩,
    ⟨.getChannel, .cmd, 0x0600000000000000#64, 0xFF00FFFFFFFFFFFF#64⟩,
    ⟨.setGammaTable, .cmd, 0x0700000000000000#64, 0xFFFFFE00FFFFFFFF#64⟩,
    ⟨.tick, .tick, 0x8000000000000000#64, 0xFFFFFFFFFFFFFFFF#64⟩ ]

/-- A word is a row's command iff `(w AND mask) = match` (R107). -/
def OpcodeRow.holds (r : OpcodeRow) (w : Word) : Bool := (w &&& r.mask) == r.pattern

/-- The unique row of a port that a word matches, if any (R117). -/
def rowFor (p : Port) (w : Word) : Option OpcodeRow :=
  opcodeRows.find? fun r => r.port == p && r.holds w

/-- The row's instruction with the operands of R110. -/
def instrOf (m : Mnemonic) (w : Word) (entries : List Entry) : Instr :=
  match m with
  | .init => .init (fieldARG w) (fieldCNT w)
  | .deinit => .deinit
  | .setChannel => .setChannel (fieldCH w) (fieldVAL w) (fieldARG w)
  | .startBlink => .startBlink (fieldCH w) (fieldVAL w) (fieldARG w) (fieldSM w)
  | .stopBlink => .stopBlink (fieldCH w)
  | .getChannel => .getChannel (fieldCH w)
  | .setGammaTable => .setGammaTable (fieldLEN w) entries
  | .tick => .tick

/-- Why a CMD word that matches no row is illegal (R111, R112). -/
def illegalCmdWord (w : Word) : IllegalWord :=
  if opcodeRows.any (fun r => r.port == .cmd && fieldOPC r.pattern == fieldOPC w) then .reservedField
  else .reservedOpcode

/-! ## Transactions on CMD (R115-R117) -/

/-- How many payload entries follow a CMD word: `zext_9(LEN)` when the opcode is 0x07, "whatever its other fields
hold" (R115). -/
def payloadLength (w : Word) : Nat :=
  if fieldOPC w = 0x07#8 then (fieldLEN w).toNat else 0

/-- The next `n` payload entries of the CMD port (R115, R116). -/
def takeEntries : Nat → List CmdItem → Payload
  | 0, rest => .complete [] rest
  | _ + 1, [] => .pending
  | _ + 1, .word _ :: _ => .interleaved
  | n + 1, .entry e :: rest =>
    match takeEntries n rest with
    | .complete es rest' => .complete (e :: es) rest'
    | .pending => .pending
    | .interleaved => .interleaved

/-- One CMD transaction (R117): the word, its payload, then its row. A payload entry where a word is due is not the
start of any transaction (log 7). -/
def decodeCmd : List CmdItem → CmdDecode
  | [] => .pending
  | .entry _ :: _ => .interleaved
  | .word w :: rest =>
    match takeEntries (payloadLength w) rest with
    | .pending => .pending
    | .interleaved => .interleaved
    | .complete entries rest' =>
      match rowFor .cmd w with
      | some r => .instr (instrOf r.mnemonic w entries) rest'
      | none => .illegal (illegalCmdWord w) rest'

/-- One word on the TICK port (R113, R117). -/
def decodeTick (w : Word) : TickDecode :=
  match rowFor .tick w with
  | some r => .instr (instrOf r.mnemonic w [])
  | none => .illegal .notTheTickWord

/-! ## Byte-wide transports (20_memory.md R73, R75) -/

/-- The number whose little-endian bytes these are. -/
def natOfBytes : List Byte → Nat
  | [] => 0
  | b :: bs => b.toNat + 256 * natOfBytes bs

/-- The `n` low bytes of a number, least significant first: byte `k` carries bits `8k+7:8k` (R73). -/
def bytesOfNat : Nat → Nat → List Byte
  | 0, _ => []
  | n + 1, x => BitVec.ofNat 8 x :: bytesOfNat n (x / 256)

/-- A word on the wire (R73). -/
def bytesOfWord (w : Word) : List Byte := bytesOfNat 8 w.toNat

/-- A payload entry on the wire (R73). -/
def bytesOfEntry (e : Entry) : List Byte := bytesOfNat 2 e.toNat

/-- One CMD transfer on the wire. -/
def CmdItem.bytes : CmdItem → List Byte
  | .word w => bytesOfWord w
  | .entry e => bytesOfEntry e

/-- Up to `n` payload entries from a byte stream, and the bytes after them; a lone last byte delivers no entry (R75). -/
def entriesOfBytes : Nat → List Byte → List Entry × List Byte
  | 0, bs => ([], bs)
  | n + 1, b0 :: b1 :: bs =>
    let (es, rest) := entriesOfBytes n bs
    (BitVec.ofNat 16 (natOfBytes [b0, b1]) :: es, rest)
  | _ + 1, bs => ([], bs)

/-- The eight bytes of one word and the bytes after it, if so many have arrived (R73, R75). -/
def takeWord : List Byte → Option (Word × List Byte)
  | b0 :: b1 :: b2 :: b3 :: b4 :: b5 :: b6 :: b7 :: rest =>
    some (BitVec.ofNat 64 (natOfBytes [b0, b1, b2, b3, b4, b5, b6, b7]), rest)
  | _ => none

/-- The transfers that a CMD byte stream delivers, at most `fuel` transactions: eight bytes a word, then the two-byte
entries its opcode and LEN announce (R73, R115); a part of a word delivers no word (R75). -/
def cmdItemsOfBytes : Nat → List Byte → List CmdItem
  | 0, _ => []
  | fuel + 1, bs =>
    match takeWord bs with
    | none => []
    | some (w, after) =>
      let (es, rest) := entriesOfBytes (payloadLength w) after
      .word w :: es.map .entry ++
        if es.length = payloadLength w then cmdItemsOfBytes fuel rest else []

/-- The decoder of a CMD byte stream. -/
def decodeCmdBytes (bs : List Byte) : CmdDecode := decodeCmd (cmdItemsOfBytes bs.length bs)

/-- The decoder of a TICK byte stream: none while fewer than eight bytes have arrived (R75). -/
def decodeTickBytes (bs : List Byte) : Option TickDecode :=
  (takeWord bs).map fun p => decodeTick p.1

/-! ## Words of the opcode table -/

/-- The first word of an instruction whose bits are `w`: `nbits` bits of it, and zeros above them. -/
def tableWord (nbits w : Nat) : Word := BitVec.ofNat 64 (w % 2 ^ nbits)

/-- The port a word of the opcode table belongs to: TICK for the opcode of the TICK row, CMD for every other (R107). -/
def tablePort (w : Word) : Port := if fieldOPC w = 0x80#8 then .tick else .cmd

/-- The bytes of that instruction on its port, in the order of R73: the word and as many payload bytes as it
announces (R115). -/
def tableBytes (nbits w : Nat) : List Byte :=
  bytesOfNat (8 + 2 * payloadLength (tableWord nbits w)) (w % 2 ^ nbits)

/-- The transfers of the one CMD transaction that those bytes hold. -/
def tableItems (nbits w : Nat) : List CmdItem := cmdItemsOfBytes 1 (tableBytes nbits w)

/-- The instruction the decoder reads from an instruction whose bits are `w`. -/
def decodeTableWord (nbits w : Nat) : Option Instr :=
  match tablePort (tableWord nbits w) with
  | .cmd =>
    match decodeCmd (tableItems nbits w) with
    | .instr i _ => some i
    | _ => none
  | .tick =>
    match decodeTickBytes (tableBytes nbits w) with
    | some (.instr i) => some i
    | _ => none

/-! ## The encoder -/

/-- A field's value at its place in a word: its bit 0 at bit `lo` (00_scope.md R13). -/
def place {n : Nat} (x : BitVec n) (lo : Nat) : Word := x.setWidth 64 <<< lo

/-- The word of an instruction: formats C, I, N, G and T (R102-R106); a reserved field is left zero. -/
def encodeWord : Instr → Word
  | .init tickPeriodMs channelCount => place 0x01#8 56 ||| place channelCount 40 ||| place tickPeriodMs 0
  | .deinit => place 0x02#8 56
  | .setChannel ch v ms => place 0x03#8 56 ||| place ch 48 ||| place v 40 ||| place ms 0
  | .startBlink ch v ms smooth =>
    place 0x04#8 56 ||| place ch 48 ||| place v 40 ||| place (BitVec.ofBool smooth) 32 ||| place ms 0
  | .stopBlink ch => place 0x05#8 56 ||| place ch 48
  | .getChannel ch => place 0x06#8 56 ||| place ch 48
  | .setGammaTable length _ => place 0x07#8 56 ||| place length 32
  | .tick => place 0x80#8 56

/-- The payload of an instruction (R116). -/
def encodePayload : Instr → List Entry
  | .setGammaTable _ entries => entries
  | .init _ _ => []
  | .deinit => []
  | .setChannel _ _ _ => []
  | .startBlink _ _ _ _ => []
  | .stopBlink _ => []
  | .getChannel _ => []
  | .tick => []

/-- The port an instruction is offered on (R107). -/
def Instr.port : Instr → Port
  | .tick => .tick
  | .init _ _ => .cmd
  | .deinit => .cmd
  | .setChannel _ _ _ => .cmd
  | .startBlink _ _ _ _ => .cmd
  | .stopBlink _ => .cmd
  | .getChannel _ => .cmd
  | .setGammaTable _ _ => .cmd

/-- The transfers of an instruction, in the order they are offered: the words of a well-formed instruction. -/
def encode (i : Instr) : List CmdItem := .word (encodeWord i) :: (encodePayload i).map .entry

/-- The same on a byte-wide transport (R73). -/
def encodeBytes (i : Instr) : List Byte := (encode i).flatMap CmdItem.bytes

end Sys2Proof
end

