-- ==== Sys2Proof/Machine/GammaLut.lean ====
section
/-! DEFINITION. The gamma_lut_rom unit: Build, the valid tables, Override and Map (spec/40_gamma_lut.md). A table is
the list of its 256 entries, entry 0 first. -/
namespace Sys2Proof.Machine

/-- `LutRead(i)` (00_scope.md R16). -/
def lutRead (t : List Entry) (i : Nat) : Entry := t.getD i 0#16

/-! ## Build (R141, R142, R149) -/

/-- R141, R142: `t` is `Build(e)` for the exponent `e`. A relation: Build is evaluated when the core is configured,
"not in any step", and a model "does not evaluate a real power" (R149; log 15). -/
def IsBuild (e : ℝ) (t : List Entry) : Prop :=
  t.length = 256 ∧
  (∀ i < 255, ((lutRead t i).toNat : ℤ) = ⌊65280 * ((i : ℝ) / 255) ^ (1 / e) + 1 / 2⌋) ∧
  lutRead t 255 = 0xFFFF#16

/-- A table from the formula of its first 255 entries; R142 forces the last. -/
def tableOf (f : Nat → Nat) : List Entry :=
  (List.range 255).map (fun i => BitVec.ofNat 16 (f i)) ++ [0xFFFF#16]

/-- The closed form of `Build(1)` (R149). -/
def buildOne : List Entry := tableOf fun i => 256 * i

/-- The closed form of `Build(1/2)` (R149): `floor(256·i²/255 + 1/2)`, both terms over 510. -/
def buildHalf : List Entry := tableOf fun i => (512 * (i * i) + 255) / 510

/-! ## Valid tables (R143) -/

/-- R143 condition 1: non-decreasing. -/
abbrev NonDecreasing (t : List Entry) : Prop :=
  ∀ i < 255, (lutRead t i).toNat ≤ (lutRead t (i + 1)).toNat

/-- R143: a table is valid for a duty resolution. -/
abbrev TableValid (dutyBits : Nat) (t : List Entry) : Prop :=
  t.length = 256 ∧ NonDecreasing t ∧ 65536 - 2 ^ (16 - dutyBits) ≤ (lutRead t 255).toNat

/-! ## Override (R144) -/

/-- `for i in 0..255: LutWrite(i, e[i])`, as one update (log 9). -/
def overrideTable (entries : List Entry) : List Entry := (List.range 256).map (lutRead entries)

/-! ## Map (R145) -/

/-- `DUTY_MAX = 2^DUTY_BITS − 1` (00_scope.md R10; log 18). -/
def dutyMax (dutyBits : Nat) : Nat := 2 ^ dutyBits - 1

/-- R145's `interp`: the table's value at a Q8.8 brightness, linear between two entries, clamped at index 255. -/
def interpolate (t : List Entry) (q : Q88) : Nat :=
  let idx := q.toNat / 256
  let frac := q.toNat % 256
  let a := (lutRead t idx).toNat
  let b := if idx = 255 then (lutRead t 255).toNat else (lutRead t (idx + 1)).toNat
  (a * (256 - frac) + b * frac) / 256

/-- R145: Map, the duty value of a Q8.8 brightness. -/
def mapDuty (dutyBits : Nat) (t : List Entry) (q : Q88) : Nat :=
  min (interpolate t q * (dutyMax dutyBits + 1) / 65536) (dutyMax dutyBits)

end Sys2Proof.Machine
end

