-- ==== Sys2Proof/Config.lean ====
section
/-! DEFINITION. What an implementation fixes (00_scope.md R10), and the free values: what the outside world chooses
under no law. An opaque constant has no body, so no proof can see its value. -/
namespace Sys2Proof

/-- The configuration parameters of the core (00_scope.md R10). GAMMA_EXPONENT only describes a way to give
`gammaDefault` (`Machine.IsBuild`). -/
structure Params where
  /-- N_CH_MAX: the channel register sets built in. -/
  nChMax : Nat
  /-- DUTY_BITS: the width of a duty value. -/
  dutyBits : Nat
  /-- GAMMA_DEFAULT: the table that INIT loads. -/
  gammaDefault : List Entry
deriving DecidableEq, Repr, Inhabited

/-- The legal values of R10: N_CH_MAX in 1..256, DUTY_BITS in 1..16, GAMMA_DEFAULT a valid table (40_gamma_lut.md
R143). -/
abbrev Params.Legal (p : Params) : Prop :=
  (1 ≤ p.nChMax ∧ p.nChMax ≤ 256) ∧ (1 ≤ p.dutyBits ∧ p.dutyBits ≤ 16) ∧
    Machine.TableValid p.dutyBits p.gammaDefault

/-- The parameters of the spec's examples and test vectors (92_eei_decisions.md D39). -/
def Params.ofExamples : Params := ⟨4, 13, Machine.buildOne⟩

/-- The answer of the DutyCycleSink to one write (10_state.md R51). -/
inductive SinkResult where
  | ok
  | hwErr
deriving DecidableEq, Repr, Inhabited

/-- The parameters given to the core, unconstrained (I1, I2, I3; log 1). -/
opaque Config.given : Params

/-- DESIGN CHOICE (log 1, safe): the core's parameters, any legal ones: the given ones if they are legal. The examples'
stand in only where the given ones are not legal, which R10 does not allow. -/
def Config.params : Params := if Config.given.Legal then Config.given else Params.ofExamples

/-- The sink's answer to write number `n`, "under no law" (10_state.md R51, I4; log 2). -/
opaque Config.sinkDraw : Nat → SinkResult

/-- The port accepted first at the `n`-th time both ports offer a word (20_memory.md R79, I5; log 3). -/
opaque Config.firstPort : Nat → Port

end Sys2Proof
end

