-- ==== Sys2Proof/Machine/State.lean ====
section
/-! DEFINITION. The state of the gamma_lut_rom core (spec/10_state.md R31), the traffic of its ports, the ways a step
can stop, and the state after reset. -/
namespace Sys2Proof.Machine

/-- `ctrl` (10_state.md R32-R34). -/
structure Ctrl where
  /-- R32. -/
  initialized : Bool
  /-- R33. -/
  tickPeriodMs : Millis
  /-- R34. -/
  channelCount : BitVec 16
deriving DecidableEq, Repr

/-- `sched` (10_state.md R35, R36). -/
structure Sched where
  /-- R35: the core holds a TimeSource handle. -/
  prepared : Bool
  /-- R36: the periodic tick is running. -/
  running : Bool
deriving DecidableEq, Repr

/-- One register set of the channel register file (10_state.md R37). -/
structure ChannelRegs where
  /-- R38: the present brightness. -/
  cur : Q88
  /-- R39: where the channel is heading, or the "on" level of a loop. -/
  target : Q88
  /-- R40: the per-tick increment. -/
  step : FadeStep
  /-- R41: TICKs left in a one-shot fade, or in the half-period of a loop. -/
  remainingTicks : Ticks
  /-- R42: TICKs in a half-period, 0 when no loop is active. -/
  halfPeriodTicks : Ticks
deriving DecidableEq, Repr

/-- "Channels are created zeroed" (10_state.md R53). -/
def ChannelRegs.zero : ChannelRegs := ⟨0#16, 0#16, 0#17, 0#32, 0#32⟩

/-- The status codes of a response (60_exceptions.md R281). -/
inductive Status where
  | ok
  | invalidArgument
  | resourceExhausted
  | hardwareError
deriving DecidableEq, Repr

/-- The requests of the TSREQ port (10_state.md R52). -/
inductive TsRequest where
  | schedule (periodMs : Millis)
  | start
  | stop
  | release
deriving DecidableEq, Repr

/-- One transfer on an output port of the core (10_state.md R50). -/
inductive Event where
  /-- RSP: the response word of a command (30_encoding.md R108). -/
  | rsp (w : Word)
  /-- TRSP: the response word of a TICK-port word (30_encoding.md R109). -/
  | trsp (w : Word)
  /-- SINK: one duty write, and the sink's answer to it (10_state.md R51). -/
  | sink (channel : ChannelId) (duty : Nat) (answer : SinkResult)
  /-- TSREQ: one request to the TimeSource (10_state.md R52). -/
  | tsreq (request : TsRequest)
deriving DecidableEq, Repr

/-- The six ports (10_state.md R50). These fields are the model's own, not state of the core: what the outside world
offers and has chosen (log 2, log 3, log 4), and what the core has put out (log 5). -/
structure Ports where
  /-- CMD: the transfers offered by the Host, the next one first. -/
  cmdIn : List CmdItem
  /-- TICK: the words offered by the TimeSource, the next one first; those that stand here while the scheduler is stopped
  are stale (42_tick_scheduler.md R213). -/
  tickIn : List Word
  /-- Which port goes first when both offer: the outside world's choices already made, the next one first. -/
  turns : List Port
  /-- How often both ports have offered a word to a step. -/
  turnCount : Nat
  /-- The sink's answers already given, the next one first. -/
  sinkAnswers : List SinkResult
  /-- How many duty writes have been made. -/
  sinkCount : Nat
  /-- Everything put out on RSP, TRSP, SINK and TSREQ, oldest first. -/
  trace : List Event
deriving DecidableEq, Repr

/-- Nothing offered, nothing put out. -/
def Ports.empty : Ports := ⟨[], [], [], 0, [], 0, []⟩

/-- The whole machine: the parameters it was built with (00_scope.md R10), the architectural state (10_state.md R31),
and the ports. -/
structure State where
  /-- 00_scope.md R10; no step writes them (log 1). -/
  params : Params
  /-- 10_state.md R32-R34. -/
  ctrl : Ctrl
  /-- 10_state.md R35, R36. -/
  sched : Sched
  /-- `ch[0..N_CH_MAX−1]` (10_state.md R37). -/
  ch : List ChannelRegs
  /-- `lut[0..255]` (10_state.md R46). -/
  lut : List Entry
  /-- 10_state.md R50. -/
  ports : Ports
deriving DecidableEq, Repr

/-- No step of this core faults: "no fault state, stuck state or halt" (60_exceptions.md R280). The type has no
constructor. -/
inductive Fault where
deriving DecidableEq, Repr

/-- Why a step gives no next state. -/
inductive Refusal where
  /-- Raised by exec's arm of an instruction without a meaning; no arm raises it now. Safe. -/
  | notModelled (mnemonic : String)
  /-- Raised by the fetch of a CMD transaction, before any instruction: the words of two transactions are interleaved
  (20_memory.md R86, 60_exceptions.md R301, I11: "a model refuses such a transcript"). Safe. -/
  | interleavedTransactions
deriving DecidableEq, Repr

/-- The state right after reset of a core built with the parameters `p` (10_state.md R53, 70_reset_and_hazards.md
R320); reset puts nothing on any port. -/
def State.resetWith (p : Params) : State :=
  { params := p
    ctrl := ⟨false, 0#32, 0#16⟩
    sched := ⟨false, false⟩
    ch := List.replicate p.nChMax ChannelRegs.zero
    lut := p.gammaDefault
    ports := Ports.empty }

/-- The machine right after reset (70_reset_and_hazards.md R320). -/
def State.reset : State := State.resetWith Config.params

end Sys2Proof.Machine
end

