-- ==== Sys2Proof/Machine/Operands.lean ====
section
/-! DEFINITION. The arithmetic of spec/00_scope.md R14, R15 and every form an operand takes before it is used:
brightness (41_fade_engine.md R170), tick counts (43_commands.md R241, R242). Results are computed on unbounded
integers and narrowed where they are stored (R14). -/
namespace Sys2Proof.Machine

/-- `tdiv(a, b)`: the quotient truncated toward zero (00_scope.md R14, 41_fade_engine.md R172). -/
def tdiv (a b : Int) : Int := a.tdiv b

/-- `sat(lo, hi, x)` (00_scope.md R14). -/
def sat (lo hi x : Int) : Int := min hi (max lo x)

/-- A brightness operand as Q8.8: `value << 8` (41_fade_engine.md R170). -/
def toQ88 (value : Byte) : Q88 := BitVec.ofNat 16 (value.toNat * 256)

/-- The integer part of a Q8.8 brightness, clamped: `min(255, cur >> 8)` (43_commands.md R248). -/
def integerPart (q : Q88) : Byte := BitVec.ofNat 8 (min 255 (q.toNat / 256))

/-- A count of ticks raised to at least one and stored in its 32-bit field. -/
def atLeastOneTick (n : Nat) : Ticks := BitVec.ofNat 32 (max 1 n)

/-- FadeTicks(ms) for the tick period `period` (43_commands.md R241). -/
def fadeTicks (period ms : Millis) : Ticks := atLeastOneTick (ms.toNat / period.toNat)

/-- HalfTicks(ms) for the tick period `period` (43_commands.md R242). -/
def halfTicks (period ms : Millis) : Ticks := atLeastOneTick (ms.toNat / 2 / period.toNat)

/-- A quotient stored in the 17-bit step field (10_state.md R40). -/
def toStep (x : Int) : FadeStep := BitVec.ofInt 17 x

/-- `sat(0, 0xFF00, cur + step)`, the brightness update (41_fade_engine.md R173). -/
def advance (cur : Q88) (step : FadeStep) : Q88 :=
  BitVec.ofInt 16 (sat 0 0xFF00 ((cur.toNat : Int) + step.toInt))

end Sys2Proof.Machine
end

