-- ==== Sys2Proof/Machine/Flags.lean ====
section
/-! DEFINITION. The status predicates of the core. None is stored: "The core has no flags register" (10_state.md R43). -/
namespace Sys2Proof.Machine

/-- `armed(c)`: the channel needs ticking (10_state.md R43). -/
def ChannelRegs.armed (r : ChannelRegs) : Bool :=
  decide (0 < r.remainingTicks.toNat) || decide (0 < r.halfPeriodTicks.toNat)

/-- The three states of a channel (41_fade_engine.md R171). -/
inductive ChannelMode where
  | idle
  | oneShotFade
  | loop
deriving DecidableEq, Repr

/-- A channel's state, a function of its fields (41_fade_engine.md R171). -/
def ChannelRegs.mode (r : ChannelRegs) : ChannelMode :=
  if 0 < r.halfPeriodTicks.toNat then .loop
  else if 0 < r.remainingTicks.toNat then .oneShotFade
  else .idle

/-- The three states of the scheduler (42_tick_scheduler.md R210). -/
inductive SchedulerMode where
  | unprepared
  | stopped
  | running
deriving DecidableEq, Repr

/-- The scheduler's state; `(0, 1)` is unreachable and has none (42_tick_scheduler.md R210). -/
def Sched.mode (x : Sched) : Option SchedulerMode :=
  match x.prepared, x.running with
  | false, false => some .unprepared
  | true, false => some .stopped
  | true, true => some .running
  | false, true => none

end Sys2Proof.Machine
end

