-- ==== Sys2Proof/Machine/Ops.lean ====
section
/-! DEFINITION. The named operations over the register sets, the table and the ports (spec/00_scope.md R16, R17), and
answering with an error (60_exceptions.md R280, R286), which is this core's only kind of exception. -/
namespace Sys2Proof.Machine

/-! ## Channel registers (R16) -/

/-- `ch[c]`. A set that does not exist is never read (10_state.md R45); it reads as zero (log 13). -/
def State.chan (s : State) (c : Nat) : ChannelRegs := s.ch.getD c ChannelRegs.zero

/-- `ch[c] <- r`. -/
def State.setChan (s : State) (c : Nat) (r : ChannelRegs) : State := { s with ch := s.ch.set c r }

/-- Every field of every `ch[c] <- 0`. -/
def State.zeroChannels (s : State) : State :=
  { s with ch := List.replicate s.params.nChMax ChannelRegs.zero }

/-- Some channel `c < CHANNEL_COUNT` is armed (42_tick_scheduler.md R215). -/
def State.anyArmed (s : State) : Bool :=
  (List.range s.ctrl.channelCount.toNat).any fun c => (s.chan c).armed

/-! ## Output ports -/

/-- One transfer on an output port. -/
def State.emit (s : State) (e : Event) : State :=
  { s with ports := { s.ports with trace := s.ports.trace ++ [e] } }

/-- One of TsSchedule, TsStart, TsStop, TsRelease. It always succeeds (10_state.md R52, I8; log 10). -/
def State.tsRequest (s : State) (r : TsRequest) : State := s.emit (.tsreq r)

/-- The answer the sink gives to the next duty write: the next one already given, else a free value (10_state.md R51;
log 2). -/
def State.sinkAnswer (s : State) : SinkResult :=
  match s.ports.sinkAnswers with
  | a :: _ => a
  | [] => Config.sinkDraw s.ports.sinkCount

/-- `SinkApply(c, d)`: one duty write, which consumes one answer (00_scope.md R17). Its result is `sinkAnswer` of the
state before it. -/
def State.sinkApply (s : State) (c : ChannelId) (d : Nat) : State :=
  { s with ports :=
    { s.ports with
      sinkAnswers := s.ports.sinkAnswers.tail
      sinkCount := s.ports.sinkCount + 1
      trace := s.ports.trace ++ [.sink c d s.sinkAnswer] } }

/-- Map with the core's own table and resolution (40_gamma_lut.md R145, 41_fade_engine.md R182). -/
def State.map (s : State) (q : Q88) : Nat := mapDuty s.params.dutyBits s.lut q

/-! ## Responses and errors -/

/-- The code of a status (60_exceptions.md R281). -/
def Status.code : Status → BitVec 8
  | .ok => 0x00#8
  | .invalidArgument => 0x01#8
  | .resourceExhausted => 0x02#8
  | .hardwareError => 0x03#8

/-- STATUS, ERRCH, zeros, DATA (30_encoding.md R108). -/
def responseWord (status : Status) (errch : ChannelId) (data : Byte) : Word :=
  place status.code 56 ||| place errch 48 ||| place data 0

/-- The response word of a host command, on RSP (30_encoding.md R108). -/
def State.respond (s : State) (status : Status) (errch : ChannelId) (data : Byte) : State :=
  s.emit (.rsp (responseWord status errch data))

/-- The response word of a TICK-port word, on TRSP, with DATA = 0 (30_encoding.md R109). -/
def State.tickRespond (s : State) (status : Status) (errch : ChannelId) : State :=
  s.emit (.trsp (responseWord status errch 0#8))

/-- `raise E`: answer with the error and change nothing else (00_scope.md R17, 60_exceptions.md R286). The core takes
no trap, saves nothing and has no return (60_exceptions.md R280, R290, R291). -/
def State.raise (s : State) (e : Status) : State := s.respond e 0#8 0#8

/-! ## Validation (43_commands.md R240) -/

/-- Neither of R240's two tests raises InvalidArgument. -/
def State.accepts (s : State) (c : ChannelId) : Bool :=
  s.ctrl.initialized && decide (c.toNat < s.ctrl.channelCount.toNat)

/-! ## Input ports -/

/-- The CMD port after a transaction was taken from it. -/
def State.withCmdIn (s : State) (rest : List CmdItem) : State :=
  { s with ports := { s.ports with cmdIn := rest } }

/-- The TICK port after a word was taken from it. -/
def State.withTickIn (s : State) (rest : List Word) : State :=
  { s with ports := { s.ports with tickIn := rest } }

/-- Stale words: whatever stands on TICK while the scheduler is stopped is discarded, "no TRSP response and changes no
state" (42_tick_scheduler.md R213), before the core does anything else; "an offered TICK word is either taken as one step
or discarded" (60_exceptions.md R289; log 21). -/
def State.dropStale (s : State) : State := if s.sched.running then s else s.withTickIn []

/-- The port that goes first when both offer: the next choice already made, else a free value (20_memory.md R79; log 3). -/
def State.turn (s : State) : Port :=
  match s.ports.turns with
  | p :: _ => p
  | [] => Config.firstPort s.ports.turnCount

/-- One such choice is used up. -/
def State.afterTurn (s : State) : State :=
  { s with ports := { s.ports with turns := s.ports.turns.tail, turnCount := s.ports.turnCount + 1 } }

end Sys2Proof.Machine
end

