-- ==== Sys2Proof/Machine/FadeEngine.lean ====
section
/-! DEFINITION. pwm_channel_fade_engine: the operations on one register set (spec/41_fade_engine.md). -/
namespace Sys2Proof.Machine

/-! ## Operations run by commands -/

/-- SetImmediate (R174); `step` is not written. -/
def ChannelRegs.setImmediate (r : ChannelRegs) (value : Byte) : ChannelRegs :=
  { r with
    cur := toQ88 value
    target := toQ88 value
    remainingTicks := 0#32
    halfPeriodTicks := 0#32 }

/-- SetFade (R175); `cur` is not written. -/
def ChannelRegs.setFade (r : ChannelRegs) (value : Byte) (durationTicks : Ticks) : ChannelRegs :=
  let ticks := atLeastOneTick durationTicks.toNat
  { r with
    target := toQ88 value
    remainingTicks := ticks
    step := toStep (tdiv ((toQ88 value).toNat - r.cur.toNat) ticks.toNat)
    halfPeriodTicks := 0#32 }

/-- StartLoop (R176). -/
def ChannelRegs.startLoop (r : ChannelRegs) (value : Byte) (h : Ticks) (smooth : Bool) : ChannelRegs :=
  let half := atLeastOneTick h.toNat
  { r with
    cur := toQ88 value
    target := toQ88 value
    halfPeriodTicks := half
    step := if smooth then toStep (tdiv (-((toQ88 value).toNat : Int)) half.toNat) else 0#17
    remainingTicks := if smooth then half else 0#32 }

/-- StopLoop (R177); `cur` and `target` are not written. -/
def ChannelRegs.stopLoop (r : ChannelRegs) : ChannelRegs :=
  { r with halfPeriodTicks := 0#32, remainingTicks := 0#32, step := 0#17 }

/-! ## TickChannel -/

/-- Branch 1 of TickChannel: a one-shot fade or a half-period counts down (R179). -/
def ChannelRegs.countDown (r : ChannelRegs) : ChannelRegs :=
  let left := r.remainingTicks - 1#32
  let moved := if r.step ≠ 0#17 then advance r.cur r.step else r.cur
  { r with
    remainingTicks := left
    cur := if left = 0#32 ∧ r.halfPeriodTicks = 0#32 then r.target else moved }

/-- Branch 2 of TickChannel: a loop reverses (R180; log 14). -/
def ChannelRegs.reverse (r : ChannelRegs) : ChannelRegs :=
  let reload := r.halfPeriodTicks - 1#32
  if r.step ≠ 0#17 then
    let back := toStep (-r.step.toInt)
    { r with remainingTicks := reload, step := back, cur := advance r.cur back }
  else
    { r with remainingTicks := reload, cur := if r.cur = r.target then 0#16 else r.target }

/-- What one TICK makes of a register set, "in priority order" (R178); branch 3 changes nothing (R181). -/
def ChannelRegs.tick (r : ChannelRegs) : ChannelRegs :=
  if 0 < r.remainingTicks.toNat then r.countDown
  else if 0 < r.halfPeriodTicks.toNat then r.reverse
  else r

/-- TickChannel(c): the state after it, and the duty value to write, if any: `Some(Map(cur))` from branches 1 and 2,
`None` from branch 3 (R178-R181). -/
def State.tickChannel (s : State) (c : Nat) : State × Option Nat :=
  let r := s.chan c
  if 0 < r.remainingTicks.toNat then (s.setChan c r.countDown, some (s.map r.countDown.cur))
  else if 0 < r.halfPeriodTicks.toNat then (s.setChan c r.reverse, some (s.map r.reverse.cur))
  else (s, none)

end Sys2Proof.Machine
end

