-- ==== Sys2Proof/Machine/Scheduler.lean ====
section
/-! DEFINITION. periodic_tick_scheduler (spec/42_tick_scheduler.md): Prepare, EnsureRunning, SelfStopCheck,
StopAndRelease, and the TICK event. -/
namespace Sys2Proof.Machine

/-- `sched.RUNNING <- b`. -/
def State.setRunning (s : State) (b : Bool) : State := { s with sched := { s.sched with running := b } }

/-- Prepare (R211). -/
def State.prepare (s : State) : State :=
  { s.tsRequest (.schedule s.ctrl.tickPeriodMs) with sched := ⟨true, false⟩ }

/-- EnsureRunning (R212). -/
def State.ensureRunning (s : State) : State :=
  if s.sched.running then s else (s.setRunning true).tsRequest .start

/-- SelfStopCheck (R215). -/
def State.selfStopCheck (s : State) : State :=
  if s.anyArmed then s else (s.setRunning false).tsRequest .stop

/-- TsStop, if the scheduler runs: the first half of R216. -/
def State.stopIfRunning (s : State) : State :=
  if s.sched.running then (s.setRunning false).tsRequest .stop else s

/-- Stop and release (R216). -/
def State.stopAndRelease (s : State) : State :=
  let t := s.stopIfRunning.tsRequest .release
  { t with sched := { t.sched with prepared := false } }

/-- The first failing channel of a TICK: kept, or set by this channel's failed write (R214). -/
def firstFailure (errch : Option ChannelId) (c : ChannelId) (answer : SinkResult) : Option ChannelId :=
  match errch, answer with
  | some e, _ => some e
  | none, .hwErr => some c
  | none, .ok => none

/-- One channel's turn in a TICK: TickChannel, then its duty write, if any (R214). The second component is the lowest
failing channel so far (log 14). -/
def tickVisit (acc : State × Option ChannelId) (c : Nat) : State × Option ChannelId :=
  match acc.1.tickChannel c with
  | (s, some duty) =>
    (s.sinkApply (BitVec.ofNat 8 c) duty, firstFailure acc.2 (BitVec.ofNat 8 c) s.sinkAnswer)
  | (s, none) => (s, acc.2)

/-- `for c in 0 .. CHANNEL_COUNT − 1`, in ascending order; later channels still run after a failure (R214). -/
def State.tickChannels (s : State) : State × Option ChannelId :=
  (List.range s.ctrl.channelCount.toNat).foldl tickVisit (s, none)

/-- The answer to a TICK: Ok, or HardwareError with the lowest failing channel (R214, 30_encoding.md R109). -/
def State.tickAnswer (s : State) (errch : Option ChannelId) : State :=
  match errch with
  | none => s.tickRespond .ok 0#8
  | some c => s.tickRespond .hardwareError c

/-- An accepted TICK (R214). -/
def State.acceptedTick (s : State) : State :=
  let visited := s.tickChannels
  visited.1.selfStopCheck.tickAnswer visited.2

/-- TICK (R214) behind its gate: while the scheduler is stopped the word is discarded, with no response and no state
change (R213; log 6). -/
def execTick (s : State) : Host.Outcome State Fault Refusal :=
  .next (if s.sched.running then s.acceptedTick else s)

end Sys2Proof.Machine
end

