-- ==== Sys2Proof/Machine/Commands.lean ====
section
/-! DEFINITION. The seven host commands (spec/43_commands.md). Each ends with one response word on RSP. -/
namespace Sys2Proof.Machine

/-! ## Lifecycle -/

/-- INIT once its four checks have passed (R243). -/
def State.initialize (s : State) (tickPeriodMs : Millis) (channelCount : BitVec 16) : State :=
  let set := { s with ctrl := { s.ctrl with tickPeriodMs := tickPeriodMs, channelCount := channelCount } }
  let prepared := { set.zeroChannels with lut := s.params.gammaDefault }.prepare
  { prepared with ctrl := { prepared.ctrl with initialized := true } }.respond .ok 0#8 0#8

/-- INIT (R243). -/
def execInit (tickPeriodMs : Millis) (channelCount : BitVec 16) (s : State) : Host.Outcome State Fault Refusal :=
  .next <|
    if s.ctrl.initialized then s.raise .invalidArgument
    else if tickPeriodMs = 0#32 then s.raise .invalidArgument
    else if channelCount = 0#16 then s.raise .invalidArgument
    else if s.params.nChMax < channelCount.toNat then s.raise .resourceExhausted
    else s.initialize tickPeriodMs channelCount

/-- DEINIT of an initialized core (R244; log 16). -/
def State.deinitialize (s : State) : State :=
  { s.stopAndRelease.zeroChannels with
    ctrl := ⟨false, 0#32, 0#16⟩
    lut := s.params.gammaDefault }.respond .ok 0#8 0#8

/-- DEINIT (R244). -/
def execDeinit (s : State) : Host.Outcome State Fault Refusal :=
  .next <| if s.ctrl.initialized then s.deinitialize else s.raise .invalidArgument

/-! ## Channel commands -/

/-- The immediate form of SET_CHANNEL: SetImmediate and one synchronous duty write (R245). -/
def State.setNow (s : State) (c : ChannelId) (value : Byte) : State :=
  let regs := (s.chan c.toNat).setImmediate value
  let set := s.setChan c.toNat regs
  let written := set.sinkApply c (set.map regs.cur)
  match set.sinkAnswer with
  | .hwErr => written.respond .hardwareError c 0#8
  | .ok => written.respond .ok 0#8 0#8

/-- The fade form of SET_CHANNEL (R245). -/
def State.startFade (s : State) (c : ChannelId) (value : Byte) (ms : Millis) : State :=
  let set := s.setChan c.toNat ((s.chan c.toNat).setFade value (fadeTicks s.ctrl.tickPeriodMs ms))
  set.ensureRunning.respond .ok 0#8 0#8

/-- SET_CHANNEL (R245). -/
def execSetChannel (c : ChannelId) (value : Byte) (ms : Millis) (s : State) : Host.Outcome State Fault Refusal :=
  .next <|
    if s.accepts c then
      if ms = 0#32 then s.setNow c value else s.startFade c value ms
    else s.raise .invalidArgument

/-- START_BLINK of an accepted channel (R246). -/
def State.startBlink (s : State) (c : ChannelId) (value : Byte) (ms : Millis) (smooth : Bool) : State :=
  let set := s.setChan c.toNat ((s.chan c.toNat).startLoop value (halfTicks s.ctrl.tickPeriodMs ms) smooth)
  set.ensureRunning.respond .ok 0#8 0#8

/-- START_BLINK (R246). -/
def execStartBlink (c : ChannelId) (value : Byte) (ms : Millis) (smooth : Bool) (s : State) :
    Host.Outcome State Fault Refusal :=
  .next <| if s.accepts c then s.startBlink c value ms smooth else s.raise .invalidArgument

/-- STOP_BLINK of an accepted channel (R247). -/
def State.stopBlink (s : State) (c : ChannelId) : State :=
  (s.setChan c.toNat (s.chan c.toNat).stopLoop).respond .ok 0#8 0#8

/-- STOP_BLINK (R247). -/
def execStopBlink (c : ChannelId) (s : State) : Host.Outcome State Fault Refusal :=
  .next <| if s.accepts c then s.stopBlink c else s.raise .invalidArgument

/-- GET_CHANNEL (R248). -/
def execGetChannel (c : ChannelId) (s : State) : Host.Outcome State Fault Refusal :=
  .next <|
    if s.accepts c then s.respond .ok 0#8 (integerPart (s.chan c.toNat).cur) else s.raise .invalidArgument

/-! ## Gamma table command -/

/-- SET_GAMMA_TABLE (R249); the payload has been consumed by decode (30_encoding.md R117). -/
def execSetGammaTable (length : BitVec 9) (entries : List Entry) (s : State) : Host.Outcome State Fault Refusal :=
  .next <|
    if s.ctrl.initialized then
      if length = 256#9 then { s with lut := overrideTable entries }.respond .ok 0#8 0#8
      else s.raise .invalidArgument
    else s.raise .invalidArgument

end Sys2Proof.Machine
end

