-- ==== Sys2Proof/Machine/Dispatch.lean ====
section
/-! DEFINITION. One arm per instruction, each one call of its meaning. -/
namespace Sys2Proof.Machine

def exec (i : Instr) (s : State) : Host.Outcome State Fault Refusal :=
  match i with
  | .init tickPeriodMs channelCount => Sys2Proof.Machine.execInit tickPeriodMs channelCount s
  | .deinit => Sys2Proof.Machine.execDeinit s
  | .setChannel c value ms => Sys2Proof.Machine.execSetChannel c value ms s
  | .startBlink c value ms smooth => Sys2Proof.Machine.execStartBlink c value ms smooth s
  | .stopBlink c => Sys2Proof.Machine.execStopBlink c s
  | .getChannel c => Sys2Proof.Machine.execGetChannel c s
  | .setGammaTable length entries => Sys2Proof.Machine.execSetGammaTable length entries s
  | .tick => Sys2Proof.Machine.execTick s

end Sys2Proof.Machine
end

