-- ==== Sys2Proof/Machine/Fetch.lean ====
section
/-! DEFINITION. Which word is taken next (10_state.md R30, 20_memory.md R79), and what becomes of a word that is no
instruction (30_encoding.md R111-R113, R117). -/
namespace Sys2Proof.Machine

/-- CMD offers something to act on: a whole transaction, or a transcript to refuse (60_exceptions.md R301; log 17). -/
def State.cmdOffered (s : State) : Bool :=
  match decodeCmd s.ports.cmdIn with
  | .pending => false
  | .instr _ _ => true
  | .illegal _ _ => true
  | .interleaved => true

/-- TICK offers a word that the core accepts: "only while `sched.RUNNING = 1`" (42_tick_scheduler.md R213). -/
def State.tickOffered (s : State) : Bool := s.sched.running && !s.ports.tickIn.isEmpty

/-- The port the next step takes from: the one that offers; when both do, either (20_memory.md R79, log 3). -/
def State.nextPort (s : State) : Option Port :=
  match s.cmdOffered, s.tickOffered with
  | false, false => none
  | true, false => some .cmd
  | false, true => some .tick
  | true, true => some s.turn

/-- The state the step starts from: stale words are gone, and a choice between two offering ports is used up. -/
def State.chosen (s : State) : State :=
  if s.cmdOffered && s.tickOffered then s.dropStale.afterTurn else s.dropStale

/-- One CMD transaction (30_encoding.md R117): an illegal word is answered InvalidArgument, its payload consumed (R111,
R112); interleaved transactions are refused (60_exceptions.md R301; log 7). -/
def cmdStep (s : State) : Host.Outcome State Fault Refusal :=
  match decodeCmd s.ports.cmdIn with
  | .instr i rest => exec i (s.withCmdIn rest)
  | .illegal _ rest => .next ((s.withCmdIn rest).raise .invalidArgument)
  | .pending => .next s
  | .interleaved => .refused .interleavedTransactions

/-- One word accepted on the TICK port (30_encoding.md R117): the tick word runs, any other is answered InvalidArgument on
TRSP (R113). While the scheduler is stopped no word is accepted (42_tick_scheduler.md R213; log 19). -/
def tickStep (s : State) : Host.Outcome State Fault Refusal :=
  match s.ports.tickIn with
  | [] => .next s
  | w :: rest =>
    match decodeTick w with
    | .instr i => exec i (s.withTickIn rest)
    | .illegal _ => .next ((s.withTickIn rest).tickRespond .invalidArgument 0#8)

/-- One step of the core. With nothing to take it waits (10_state.md R30; log 8). -/
def stepOnce (s : State) : Host.Outcome State Fault Refusal :=
  match s.nextPort with
  | none => .next s.chosen
  | some .cmd => cmdStep s.chosen
  | some .tick => tickStep s.chosen

/-- `s` with the transfers `items` next on CMD, and CMD first if TICK offers too (log 4). -/
def State.offerCmdFirst (s : State) (items : List CmdItem) : State :=
  { s with ports :=
    { s.ports with
      cmdIn := items ++ s.ports.cmdIn
      turns := if s.tickOffered then .cmd :: s.ports.turns else s.ports.turns } }

/-- `s` with the word `w` next on TICK, and TICK first if there is a choice (log 4). -/
def State.offerTickFirst (s : State) (w : Word) : State :=
  { s with ports :=
    { s.ports with
      tickIn := w :: s.ports.tickIn
      turns := if s.cmdOffered && s.sched.running then .tick :: s.ports.turns else s.ports.turns } }

/-- `s` with the instruction whose bits are `w` offered next, on the port of its opcode (log 4). -/
def State.offerTableWord (s : State) (nbits w : Nat) : State :=
  match tablePort (tableWord nbits w) with
  | .cmd => s.offerCmdFirst (tableItems nbits w)
  | .tick => s.offerTickFirst (tableWord nbits w)

end Sys2Proof.Machine
end

