-- ==== Sys2Proof/Machine/Step.lean ====
section
/-! DEFINITION. The step of the machine, and how a word is placed before it. -/
namespace Sys2Proof.Machine

/-- One step: one whole command or one TICK-port word, processed atomically (00_scope.md R8). -/
def step (s : State) : Host.Outcome State Fault Refusal := stepOnce s

/-- `s` with the instruction whose bits are `w` placed where the next step takes its word from: at the head of the
queue of its port, with as many zero payload entries as its LEN field announces (log 4). -/
def State.withFetchWord (s : State) (nbits w : Nat) : State := s.offerTableWord nbits w

end Sys2Proof.Machine
end

