-- ==== Sys2Proof/Machine/Assembler.lean ====
section
/-! DEFINITION. The assembler syntax and the pseudo-instructions (spec/30_encoding.md R118, R119): notation for Host
scripts, no part of a step (log 20). Text is a list of characters. -/
namespace Sys2Proof.Machine

/-! ## Operand ranges (R118) -/

/-- An operand that fits a field of `bits` bits; "An assembler rejects any operand that does not fit its field". -/
def asmField (bits n : Nat) : Option (BitVec bits) := if n < 2 ^ bits then some (BitVec.ofNat bits n) else none

/-- `smooth` is 0 or 1. -/
def asmSmooth : Nat → Option Bool
  | 0 => some false
  | 1 => some true
  | _ => none

/-- A table of exactly 256 entries of 16 bits. -/
def asmTable (entries : List Nat) : Option (List Entry) :=
  if entries.length = 256 then entries.mapM (asmField 16) else none

/-! ## Pseudo-instructions (R119) -/

/-- The expansion of a pseudo-instruction; FADE with `ms = 0` is rejected. -/
def expandPseudo : Pseudo → Option Instr
  | .setNow ch v => some (.setChannel ch v 0#32)
  | .fade ch v ms => if ms = 0#32 then none else some (.setChannel ch v ms)
  | .off ch => some (.setChannel ch 0#8 0#32)
  | .blinkSquare ch v periodMs => some (.startBlink ch v periodMs false)
  | .breathe ch v periodMs => some (.startBlink ch v periodMs true)

/-! ## Numbers and lines -/

/-- The value of a digit in a base. -/
def asmDigit (base : Nat) (c : Char) : Option Nat :=
  let n := c.toNat
  let v :=
    if 48 ≤ n ∧ n ≤ 57 then n - 48
    else if 97 ≤ n ∧ n ≤ 102 then n - 87
    else if 65 ≤ n ∧ n ≤ 70 then n - 55
    else base
  if v < base then some v else none

/-- The digits of a number, most significant first. -/
def asmDigits (base : Nat) : Nat → List Char → Option Nat
  | acc, [] => some acc
  | acc, c :: cs => (asmDigit base c).bind fun v => asmDigits base (acc * base + v) cs

/-- "Numbers are decimal or `0x` hexadecimal." -/
def asmNumber : List Char → Option Nat
  | [] => none
  | '0' :: 'x' :: [] => none
  | '0' :: 'x' :: ds => asmDigits 16 0 ds
  | ds => asmDigits 10 0 ds

/-- A space or a tab. -/
def asmBlank (c : Char) : Bool := c == ' ' || c == '\t'

/-- A token without the blanks around it. -/
def asmTrim (cs : List Char) : List Char := ((cs.dropWhile asmBlank).reverse.dropWhile asmBlank).reverse

/-- The operands of a line: between commas; none if nothing stands there. -/
def asmOperands (cs : List Char) : List (List Char) :=
  if asmTrim cs = [] then [] else (cs.splitBy fun _ b => b != ',').map fun op =>
    asmTrim (if op.head? = some ',' then op.tail else op)

/-- The operands of a line as numbers. -/
def asmNumbers (cs : List Char) : Option (List Nat) := (asmOperands cs).mapM asmNumber

/-- What a line of a script holds. -/
inductive AsmLine where
  /-- Nothing but blanks and a comment. -/
  | blank
  /-- One command. -/
  | command (i : Instr)
  /-- No assembler form: the line is rejected. -/
  | rejected
deriving DecidableEq, Repr

/-- The mnemonics and pseudo-mnemonics with numeric operands, in DOC's operand order (R118, R119). -/
def asmCommand (mnemonic : List Char) (operands : List Nat) : Option Instr :=
  if mnemonic = ['I', 'N', 'I', 'T'] then
    match operands with
    | [period, count] => do return .init (← asmField 32 period) (← asmField 16 count)
    | _ => none
  else if mnemonic = ['D', 'E', 'I', 'N', 'I', 'T'] then
    match operands with
    | [] => some .deinit
    | _ => none
  else if mnemonic = ['S', 'E', 'T', '_', 'C', 'H', 'A', 'N', 'N', 'E', 'L'] then
    match operands with
    | [ch, v, ms] => do return .setChannel (← asmField 8 ch) (← asmField 8 v) (← asmField 32 ms)
    | _ => none
  else if mnemonic = ['S', 'T', 'A', 'R', 'T', '_', 'B', 'L', 'I', 'N', 'K'] then
    match operands with
    | [ch, v, ms, smooth] => do
      return .startBlink (← asmField 8 ch) (← asmField 8 v) (← asmField 32 ms) (← asmSmooth smooth)
    | _ => none
  else if mnemonic = ['S', 'T', 'O', 'P', '_', 'B', 'L', 'I', 'N', 'K'] then
    match operands with
    | [ch] => do return .stopBlink (← asmField 8 ch)
    | _ => none
  else if mnemonic = ['G', 'E', 'T', '_', 'C', 'H', 'A', 'N', 'N', 'E', 'L'] then
    match operands with
    | [ch] => do return .getChannel (← asmField 8 ch)
    | _ => none
  else if mnemonic = ['S', 'E', 'T', '_', 'N', 'O', 'W'] then
    match operands with
    | [ch, v] => do expandPseudo (.setNow (← asmField 8 ch) (← asmField 8 v))
    | _ => none
  else if mnemonic = ['F', 'A', 'D', 'E'] then
    match operands with
    | [ch, v, ms] => do expandPseudo (.fade (← asmField 8 ch) (← asmField 8 v) (← asmField 32 ms))
    | _ => none
  else if mnemonic = ['O', 'F', 'F'] then
    match operands with
    | [ch] => do expandPseudo (.off (← asmField 8 ch))
    | _ => none
  else if mnemonic = ['B', 'L', 'I', 'N', 'K', '_', 'S', 'Q', 'U', 'A', 'R', 'E'] then
    match operands with
    | [ch, v, ms] => do expandPseudo (.blinkSquare (← asmField 8 ch) (← asmField 8 v) (← asmField 32 ms))
    | _ => none
  else if mnemonic = ['B', 'R', 'E', 'A', 'T', 'H', 'E'] then
    match operands with
    | [ch, v, ms] => do expandPseudo (.breathe (← asmField 8 ch) (← asmField 8 v) (← asmField 32 ms))
    | _ => none
  else none

/-- SET_GAMMA_TABLE names a label, "label names 256 .hword entries" (R118). -/
def asmGamma (labels : List (List Char × List Nat)) (operands : List (List Char)) : Option Instr :=
  match operands with
  | [label] =>
    match labels.find? fun l => l.1 == label with
    | some l => (asmTable l.2).map fun entries => .setGammaTable 256#9 entries
    | none => none
  | _ => none

/-- One line of a Host script: `MNEMONIC operand, operand, …`, a `;` starts a comment (R118). TICK has no form. -/
def assembleLine (labels : List (List Char × List Nat)) (line : List Char) : AsmLine :=
  let text := asmTrim (line.takeWhile fun c => c != ';')
  let mnemonic := text.takeWhile fun c => !asmBlank c
  let rest := text.dropWhile fun c => !asmBlank c
  if text = [] then .blank
  else
    let found :=
      if mnemonic = ['S', 'E', 'T', '_', 'G', 'A', 'M', 'M', 'A', '_', 'T', 'A', 'B', 'L', 'E'] then
        asmGamma labels (asmOperands rest)
      else (asmNumbers rest).bind (asmCommand mnemonic)
    match found with
    | some i => .command i
    | none => .rejected

/-- One line of a test script: "A test script writes it as `TICK` with no operands"; every other line is a Host line. -/
def scriptLine (labels : List (List Char × List Nat)) (line : List Char) : AsmLine :=
  if asmTrim (line.takeWhile fun c => c != ';') = ['T', 'I', 'C', 'K'] then .command .tick
  else assembleLine labels line

end Sys2Proof.Machine
end

