-- ==== Sys2Proof/Machine/Observe.lean ====
section
/-! DEFINITION. What the outside world can read off the traffic of the ports: "The only observations are the RSP, TRSP,
SINK and TSREQ traffic and GET_CHANNEL" (spec/60_exceptions.md R298). No step uses these. -/
namespace Sys2Proof.Machine

/-- The duty writes of a traffic, in order: channel, duty, answer. -/
def sinkWrites (es : List Event) : List (ChannelId × Nat × SinkResult) :=
  es.filterMap fun
    | .sink c d a => some (c, d, a)
    | .rsp _ => none
    | .trsp _ => none
    | .tsreq _ => none

/-- The TimeSource requests of a traffic, in order. -/
def tsRequests (es : List Event) : List TsRequest :=
  es.filterMap fun
    | .tsreq r => some r
    | .rsp _ => none
    | .trsp _ => none
    | .sink _ _ _ => none

/-- The response words of a traffic, in order, from both response ports. -/
def responses (es : List Event) : List Word :=
  es.filterMap fun
    | .rsp w => some w
    | .trsp w => some w
    | .sink _ _ _ => none
    | .tsreq _ => none

/-- The response words on RSP, in order. -/
def rspWords (es : List Event) : List Word :=
  es.filterMap fun
    | .rsp w => some w
    | .trsp _ => none
    | .sink _ _ _ => none
    | .tsreq _ => none

/-- The response words on TRSP, in order. -/
def trspWords (es : List Event) : List Word :=
  es.filterMap fun
    | .trsp w => some w
    | .rsp _ => none
    | .sink _ _ _ => none
    | .tsreq _ => none

/-! ## Responses on a byte-wide transport (20_memory.md R73, R75) -/

/-- Words one after the other on the wire, each least-significant byte first (R73). -/
def wireBytes (ws : List Word) : List Byte := ws.flatMap bytesOfWord

/-- What RSP puts on a byte-wide transport. -/
def rspBytes (es : List Event) : List Byte := wireBytes (rspWords es)

/-- What TRSP puts on a byte-wide transport. -/
def trspBytes (es : List Event) : List Byte := wireBytes (trspWords es)

/-- The words that a byte stream delivers, at most `fuel` of them; a part of a word delivers no word (R75). -/
def wireWordsUpTo : Nat → List Byte → List Word
  | 0, _ => []
  | fuel + 1, bs =>
    match takeWord bs with
    | none => []
    | some (w, rest) => w :: wireWordsUpTo fuel rest

/-- The response words that the reader of a byte-wide RSP or TRSP gets. -/
def wireWords (bs : List Byte) : List Word := wireWordsUpTo bs.length bs

/-! ## Fields of a response word -/

/-- `STATUS` of a response word (30_encoding.md R108). -/
def responseStatus (w : Word) : BitVec 8 := w.extractLsb' 56 8

/-- `ERRCH` of a response word (30_encoding.md R108). -/
def responseErrch (w : Word) : ChannelId := w.extractLsb' 48 8

/-- `DATA` of a response word (30_encoding.md R108). -/
def responseData (w : Word) : Byte := w.extractLsb' 0 8

/-- What the outside world knows of the peripheral's duty on one channel. -/
inductive PeripheralDuty where
  /-- Before the first write (I12), and after a write answered HwErr (I7): anything. -/
  | unknown
  | holds (duty : Nat)
deriving DecidableEq, Repr

/-- One more transfer, seen from the peripheral of channel `c`: "the last value written by SinkApply", except after a
write answered HwErr (60_exceptions.md R296; log 12). -/
def PeripheralDuty.after (c : ChannelId) (p : PeripheralDuty) : Event → PeripheralDuty
  | .sink c' d .ok => if c' = c then .holds d else p
  | .sink c' _ .hwErr => if c' = c then .unknown else p
  | .rsp _ => p
  | .trsp _ => p
  | .tsreq _ => p

/-- The peripheral's duty on channel `c` after a traffic (10_state.md R55). -/
def peripheralDuty (es : List Event) (c : ChannelId) : PeripheralDuty :=
  es.foldl (PeripheralDuty.after c) .unknown

/-- The TimeSource's side of one request: TsSchedule prepares, then TsStart and TsStop alternate, TsRelease ends
(42_tick_scheduler.md R217); no state where a request comes out of turn. -/
def timeSourceAfter : Option SchedulerMode → TsRequest → Option SchedulerMode
  | some .unprepared, .schedule _ => some .stopped
  | some .stopped, .start => some .running
  | some .running, .stop => some .stopped
  | some .stopped, .release => some .unprepared
  | _, _ => none

/-- The TimeSource's state after a traffic that began at reset. -/
def timeSourceMode (es : List Event) : Option SchedulerMode :=
  (tsRequests es).foldl timeSourceAfter (some .unprepared)

end Sys2Proof.Machine
end

