-- ==== Sys2Proof/Safety.lean ====
section
/-! DEFINITION. The terms in which claims speak of runs: the invariants the spec gives (10_state.md R32-R45), what the
outside world may do between steps, reachable states, runs of instructions, and the fairness of the TimeSource. -/
namespace Sys2Proof.Machine

/-! ## Channels (10_state.md R44) -/

/-- R44 items 1 and 2, and the step range of 41_fade_engine.md R187. -/
abbrev ChannelRegs.InRange (r : ChannelRegs) : Prop :=
  r.cur.toNat ≤ 0xFF00 ∧ r.target.toNat ≤ 0xFF00 ∧ r.target.toNat % 256 = 0 ∧
    -0xFF00 ≤ r.step.toInt ∧ r.step.toInt ≤ 0xFF00

/-- R44 item 3, as every TICK keeps it: the ramp still to come does not pass `target`. -/
abbrev ChannelRegs.FadeSound (r : ChannelRegs) : Prop :=
  r.halfPeriodTicks = 0#32 → 0 < r.remainingTicks.toNat →
    (0 ≤ r.step.toInt * r.remainingTicks.toNat ∧
      r.step.toInt * r.remainingTicks.toNat ≤ (r.target.toNat : Int) - r.cur.toNat) ∨
    (r.step.toInt * r.remainingTicks.toNat ≤ 0 ∧
      (r.target.toNat : Int) - r.cur.toNat ≤ r.step.toInt * r.remainingTicks.toNat)

/-- R44 items 4 and 5, as every TICK keeps them: a falling half has come `halfPeriodTicks − remainingTicks` steps down
from `target`, a rising half has `remainingTicks` steps left to it (41_fade_engine.md R185). -/
abbrev ChannelRegs.LoopSound (r : ChannelRegs) : Prop :=
  0 < r.halfPeriodTicks.toNat →
    r.remainingTicks.toNat ≤ r.halfPeriodTicks.toNat ∧
    (r.step.toInt < 0 →
      (r.cur.toNat : Int) =
        r.target.toNat + r.step.toInt * ((r.halfPeriodTicks.toNat : Int) - r.remainingTicks.toNat) ∧
      0 ≤ (r.target.toNat : Int) + r.step.toInt * r.halfPeriodTicks.toNat) ∧
    (0 < r.step.toInt →
      (r.cur.toNat : Int) = r.target.toNat - r.step.toInt * r.remainingTicks.toNat ∧
      0 ≤ (r.target.toNat : Int) - r.step.toInt * r.halfPeriodTicks.toNat) ∧
    (r.step = 0#17 → r.cur = 0#16 ∨ r.cur = r.target)

/-- The channel invariants of R44. -/
abbrev ChannelRegs.Inv (r : ChannelRegs) : Prop := r.InRange ∧ r.FadeSound ∧ r.LoopSound

/-! ## The whole state -/

/-- The storage has the size the parameters say (10_state.md R37, R46). -/
abbrev State.Shape (s : State) : Prop :=
  s.params.Legal ∧ s.ch.length = s.params.nChMax ∧ s.lut.length = 256

/-- R35, R36: PREPARED is INITIALIZED, RUNNING implies PREPARED; R33, R34: the legal values; R53, 43_commands.md R244:
what an uninitialized core holds. -/
abbrev State.Lifecycle (s : State) : Prop :=
  s.sched.prepared = s.ctrl.initialized ∧
  (s.sched.running = true → s.sched.prepared = true) ∧
  (s.ctrl.initialized = true →
    1 ≤ s.ctrl.tickPeriodMs.toNat ∧ 1 ≤ s.ctrl.channelCount.toNat ∧
      s.ctrl.channelCount.toNat ≤ s.params.nChMax) ∧
  (s.ctrl.initialized = false →
    s.ctrl.tickPeriodMs = 0#32 ∧ s.ctrl.channelCount = 0#16 ∧ s.lut = s.params.gammaDefault)

/-- R44 for every channel in use, and R45 for the others. -/
abbrev State.ChannelsSound (s : State) : Prop :=
  (∀ c < s.params.nChMax, (s.chan c).Inv) ∧
  (∀ c < s.params.nChMax, s.ctrl.channelCount.toNat ≤ c → s.chan c = ChannelRegs.zero)

/-- An armed channel is being ticked (42_tick_scheduler.md R212, R215), and the TimeSource, having heard every request,
is in the scheduler's state (R217). -/
abbrev State.SchedulerSound (s : State) : Prop :=
  (s.anyArmed = true → s.sched.running = true) ∧ timeSourceMode s.ports.trace = s.sched.mode

/-- The invariant of the machine. -/
abbrev State.Inv (s : State) : Prop :=
  s.Shape ∧ s.Lifecycle ∧ s.ChannelsSound ∧ s.SchedulerSound

/-- A command on channel `c` is accepted (43_commands.md R240), and the set exists (10_state.md R34, R37). -/
abbrev State.Present (s : State) (c : ChannelId) : Prop :=
  s.ctrl.initialized = true ∧ c.toNat < s.ctrl.channelCount.toNat ∧ c.toNat < s.ch.length

/-- Every channel that a TICK visits exists (10_state.md R34, R37). -/
abbrev State.ChannelsExist (s : State) : Prop :=
  s.ctrl.channelCount.toNat ≤ s.ch.length ∧ s.ctrl.channelCount.toNat ≤ 256

/-! ## Runs -/

/-- What the outside world may do between two steps (00_scope.md R9): offer more on an input port, choose an order,
settle answers of the sink. -/
inductive State.Offers : State → State → Prop where
  /-- The Host offers transfers on CMD. -/
  | cmd (s : State) (items : List CmdItem) :
      State.Offers s { s with ports := { s.ports with cmdIn := s.ports.cmdIn ++ items } }
  /-- The TimeSource offers words on TICK: "only while the scheduler is running" (R9). -/
  | tick (s : State) (words : List Word) (running : s.sched.running = true) :
      State.Offers s { s with ports := { s.ports with tickIn := s.ports.tickIn ++ words } }
  /-- "plus any number of such stale words" (42_tick_scheduler.md R213): words that arrive while the scheduler is stopped,
  which the next step discards before it does anything else (`State.dropStale`). -/
  | stale (s : State) (words : List Word) (stopped : s.sched.running = false) :
      State.Offers s { s with ports := { s.ports with tickIn := s.ports.tickIn ++ words } }
  /-- More of the choices between two offering ports are settled. -/
  | order (s : State) (ports : List Port) :
      State.Offers s { s with ports := { s.ports with turns := s.ports.turns ++ ports } }
  /-- More of the sink's answers are settled. -/
  | answers (s : State) (answers : List SinkResult) :
      State.Offers s { s with ports := { s.ports with sinkAnswers := s.ports.sinkAnswers ++ answers } }

/-- The states of a core built with the parameters `p`: from reset, by steps and by what the outside world does. -/
inductive State.Reachable (p : Params) : State → Prop where
  | reset : State.Reachable p (State.resetWith p)
  | offer (s t : State) : State.Reachable p s → State.Offers s t → State.Reachable p t
  | step (s t : State) : State.Reachable p s → Sys2Proof.Machine.step s = .next t → State.Reachable p t

/-- The instructions `is`, one after the other. -/
def runInstrs : List Instr → State → Host.Outcome State Fault Refusal
  | [], s => .next s
  | i :: is, s =>
    match exec i s with
    | .next t => runInstrs is t
    | .fault r => .fault r
    | .refused r => .refused r

/-- `i` is no command that touches channel `c` (41_fade_engine.md R183-R188). DEINIT touches every channel; an INIT does
not, on a core that is initialized (43_commands.md R243). -/
def sparesChannel (c : ChannelId) : Instr → Bool
  | .init _ _ => true
  | .deinit => false
  | .setChannel d _ _ => d != c
  | .startBlink d _ _ _ => d != c
  | .stopBlink d => d != c
  | .getChannel _ => true
  | .setGammaTable _ _ => true
  | .tick => true

/-- How many duty writes of channel `c` have been made. -/
def State.writesTo (s : State) (c : ChannelId) : Nat :=
  ((sinkWrites s.ports.trace).filter fun x => x.1 == c).length

/-- A step from here accepts a TICK: it takes the tick word from TICK while the scheduler runs. -/
def State.acceptsTick (s : State) : Prop :=
  s.sched.running = true ∧ s.nextPort = some .tick ∧ s.ports.tickIn.head? = some (encodeWord .tick)

/-- The next step takes the command `i` from CMD. -/
def State.takesCommand (s : State) (i : Instr) : Prop :=
  s.nextPort = some .cmd ∧ ∃ rest, decodeCmd s.ports.cmdIn = .instr i rest

/-- An endless run of a core built with the parameters `p`: from reset, each move a step of the core or something the
outside world does. -/
structure EndlessRun (p : Params) where
  /-- The state before move `n`. -/
  state : Nat → State
  /-- Move `n` is a step of the core. -/
  steps : Nat → Bool
  begins : state 0 = State.resetWith p
  moves : ∀ n,
    if steps n then step (state n) = .next (state (n + 1)) else State.Offers (state n) (state (n + 1))

/-- Move `n` is an accepted TICK: a step, and it takes the tick word while the scheduler runs. -/
def EndlessRun.ticksAt {p : Params} (r : EndlessRun p) (n : Nat) : Prop :=
  r.steps n = true ∧ (r.state n).acceptsTick

/-- 42_tick_scheduler.md R219, weak fairness of the TimeSource: "a run in which `sched.RUNNING` stays 1 for ever has
infinitely many accepted TICKs" (log 11). -/
def EndlessRun.Fair {p : Params} (r : EndlessRun p) : Prop :=
  (∃ n, ∀ m ≥ n, (r.state m).sched.running = true) → ∀ n, ∃ m ≥ n, r.ticksAt m

/-! ## Relations between two states -/

/-- The same state of the core (10_state.md R31): the ports aside. -/
abbrev State.SameCore (s t : State) : Prop :=
  s.params = t.params ∧ s.ctrl = t.ctrl ∧ s.sched = t.sched ∧ s.ch = t.ch ∧ s.lut = t.lut

/-- The same register set, but for the `step` of a channel that is not armed (41_fade_engine.md R174). -/
abbrev ChannelRegs.SameButStaleStep (r q : ChannelRegs) : Prop :=
  r.cur = q.cur ∧ r.target = q.target ∧ r.remainingTicks = q.remainingTicks ∧
    r.halfPeriodTicks = q.halfPeriodTicks ∧ (r.armed = true → r.step = q.step)

/-- The same state, but for the `step` of channels that are not armed. -/
abbrev State.SameButStaleSteps (s t : State) : Prop :=
  s.params = t.params ∧ s.ctrl = t.ctrl ∧ s.sched = t.sched ∧ s.lut = t.lut ∧ s.ports = t.ports ∧
    s.ch.length = t.ch.length ∧ ∀ c < s.ch.length, (s.chan c).SameButStaleStep (t.chan c)

/-- The answer the sink gives to the `k`-th duty write from here on (10_state.md R51; log 2). -/
def State.answerAt (s : State) (k : Nat) : SinkResult :=
  match s.ports.sinkAnswers[k]? with
  | some a => a
  | none => Config.sinkDraw (s.ports.sinkCount + k)

/-! ## A TICK at once (42_tick_scheduler.md R214), for claims to compare the channel-by-channel loop with -/

/-- The armed channels below `n`, in ascending order. -/
def State.armedBelow (s : State) (n : Nat) : List Nat := (List.range n).filter fun c => (s.chan c).armed

/-- The duty writes of a TICK's first `n` channels: one for each armed channel, of Map of its `cur` after the update,
answered in turn. -/
def State.writesBelow (s : State) (n : Nat) : List Event :=
  (s.armedBelow n).zipIdx.map fun p =>
    .sink (BitVec.ofNat 8 p.1) (s.map (s.chan p.1).tick.cur) (s.answerAt p.2)

/-- The lowest channel below `n` whose write is answered HwErr. -/
def State.failureBelow (s : State) (n : Nat) : Option ChannelId :=
  ((s.armedBelow n).zipIdx.find? fun p => s.answerAt p.2 == .hwErr).map fun p => BitVec.ofNat 8 p.1

/-- The register file after a TICK's first `n` channels. -/
def State.tickedBelow (s : State) (n : Nat) : List ChannelRegs :=
  s.ch.mapIdx fun c r => if c < n then r.tick else r

end Sys2Proof.Machine
end

