-- ==== Sys2Proof/Certificates/Slice0/Obligations.lean ====
section
/-! DEFINITION. The statements for the provers, from the numbered rules of spec/. -/
open Sys2Proof Sys2Proof.Machine

/-! ## Encoding and decoding (spec/30_encoding.md) -/

/-- Decode and encode agree: a well-formed command, offered with anything after it, is read back whole, and the tick
word is read as TICK. -/
def Obligations.DecodeReadsBackEncode : Prop :=
  (∀ i : Instr, i.WellFormed → i.port = .cmd → ∀ rest, decodeCmd (encode i ++ rest) = .instr i rest) ∧
  decodeTick (encodeWord .tick) = .instr .tick

/-- The converse: whatever CMD or TICK decodes to an instruction is that instruction's own encoding, and the
instruction is well-formed. -/
def Obligations.EncodeReadsBackDecode : Prop :=
  (∀ items i rest, decodeCmd items = .instr i rest → items = encode i ++ rest ∧ i.WellFormed ∧ i.port = .cmd) ∧
  (∀ w i, decodeTick w = .instr i → w = encodeWord i ∧ i = .tick)

/-- On a byte-wide transport, least-significant byte first and entry 0 first (20_memory.md R73): the bytes of a
well-formed command decode to it, those of the tick word to TICK, and a word in part delivers nothing (R75). -/
def Obligations.BytesDecodeToTheirCommand : Prop :=
  (∀ i : Instr, i.WellFormed → i.port = .cmd → decodeCmdBytes (encodeBytes i) = .instr i []) ∧
  decodeTickBytes (encodeBytes .tick) = some (.instr .tick) ∧
  (∀ bs : List Byte, bs.length < 8 → decodeCmdBytes bs = .pending ∧ decodeTickBytes bs = none)

/-- Words written out from the formats of R102-R106 decode to the instructions they stand for. The two zero entries that
follow the word of SET_GAMMA_TABLE are not in its 64 bits: they are the model's choice (log 4). -/
def Obligations.WrittenOutWordsDecode : Prop :=
  decodeTableWord 64 0x0100040000000014 = some (.init 20 4) ∧
  decodeTableWord 64 0x0200000000000000 = some .deinit ∧
  decodeTableWord 64 0x03008000000000C8 = some (.setChannel 0 128 200) ∧
  decodeTableWord 64 0x0403FF01000003E8 = some (.startBlink 3 255 1000 true) ∧
  decodeTableWord 64 0x0502000000000000 = some (.stopBlink 2) ∧
  decodeTableWord 64 0x0601000000000000 = some (.getChannel 1) ∧
  decodeTableWord 64 0x0700000200000000 = some (.setGammaTable 2 [0, 0]) ∧
  decodeTableWord 64 0x8000000000000000 = some .tick

/-- R112: a CMD word with a reserved opcode (0x80 among them) is answered InvalidArgument, and nothing else changes but
the port it was taken from. -/
def Obligations.ReservedOpcodeAnswersInvalidArgument : Prop :=
  ∀ (s : State) (w : Word) (rest : List CmdItem),
    s.ports.cmdIn = .word w :: rest →
    (w.extractLsb' 56 8 = 0x00#8 ∨ 0x08 ≤ (w.extractLsb' 56 8).toNat) →
    s.nextPort = some .cmd →
    step s = .next
      { s.chosen with
        ports :=
          { s.chosen.ports with
            cmdIn := rest
            trace := s.ports.trace ++ [.rsp 0x0100000000000000#64] } }

/-- R111: an assigned opcode with a reserved bit set is answered InvalidArgument and changes nothing; the payload that
its opcode and LEN announce (R115) is consumed with it. -/
def Obligations.ReservedFieldAnswersInvalidArgument : Prop :=
  ∀ (s : State) (w : Word) (es : List Entry) (rest : List CmdItem),
    s.ports.cmdIn = .word w :: es.map .entry ++ rest →
    es.length = (if w.extractLsb' 56 8 = 0x07#8 then (w.extractLsb' 32 9).toNat else 0) →
    ((w.extractLsb' 56 8 = 0x01#8 ∧ w.extractLsb' 32 8 ≠ 0#8) ∨
      (w.extractLsb' 56 8 = 0x02#8 ∧ w.extractLsb' 0 56 ≠ 0#56) ∨
      (w.extractLsb' 56 8 = 0x03#8 ∧ w.extractLsb' 32 8 ≠ 0#8) ∨
      (w.extractLsb' 56 8 = 0x04#8 ∧ w.extractLsb' 33 7 ≠ 0#7) ∨
      (w.extractLsb' 56 8 = 0x05#8 ∧ w.extractLsb' 0 48 ≠ 0#48) ∨
      (w.extractLsb' 56 8 = 0x06#8 ∧ w.extractLsb' 0 48 ≠ 0#48) ∨
      (w.extractLsb' 56 8 = 0x07#8 ∧ (w.extractLsb' 41 15 ≠ 0#15 ∨ w.extractLsb' 0 32 ≠ 0#32))) →
    s.nextPort = some .cmd →
    step s = .next
      { s.chosen with
        ports :=
          { s.chosen.ports with
            cmdIn := rest
            trace := s.ports.trace ++ [.rsp 0x0100000000000000#64] } }

/-- R113: while running, a TICK-port word other than the tick word is answered InvalidArgument on TRSP and changes
nothing; no word of a host command is legal there, and the tick word is illegal on CMD. -/
def Obligations.OtherTickPortWordsAnswerInvalidArgument : Prop :=
  (∀ (s : State) (w : Word) (rest : List Word),
    s.ports.tickIn = w :: rest → w ≠ 0x8000000000000000#64 → s.sched.running = true →
    s.nextPort = some .tick →
    step s = .next
      { s.chosen with
        ports :=
          { s.chosen.ports with
            tickIn := rest
            trace := s.ports.trace ++ [.trsp 0x0100000000000000#64] } }) ∧
  (∀ i : Instr, i.port = .cmd → decodeTick (encodeWord i) = .illegal .notTheTickWord) ∧
  (∀ rest, decodeCmd (.word 0x8000000000000000#64 :: rest) = .illegal .reservedOpcode rest)

/-- From R213's "Stale words have no effect". While the scheduler is stopped, no step takes a word from TICK; the words that
stand there are discarded with no response and no state change; whatever they are, the step is the one without them; and
none is left for the scheduler that the step may start. R213 speaks of words that arrive while stopped; that a word
offered while running and left over is stale too is the model's inference (log 21), and so is that a step with no
command to take does nothing else (log 8). -/
def Obligations.StoppedSchedulerDiscardsTickWords : Prop :=
  ∀ s : State, s.sched.running = false →
    s.nextPort ≠ some .tick ∧
    (s.cmdOffered = false → step s = .next { s with ports := { s.ports with tickIn := [] } }) ∧
    (∀ ws, step { s with ports := { s.ports with tickIn := ws } } =
      step { s with ports := { s.ports with tickIn := [] } }) ∧
    (∀ t, step s = .next t → t.ports.tickIn = [])

/-! ## The step -/

/-- A step runs the decoded instruction: on CMD with the transaction taken from the port, on TICK with the word taken
from it. The last three clauses say what `chosen` does around exec, and are the model's choice: it uses up a settled choice between
two offering ports (log 3) and, while the scheduler is stopped, drops whatever stands on TICK (R213's stale words, and by
the model's inference words left over from before the stop, log 21). -/
def Obligations.StepRunsTheDecodedInstruction : Prop :=
  (∀ (s : State) (i : Instr) (rest : List CmdItem),
    s.nextPort = some .cmd → decodeCmd s.ports.cmdIn = .instr i rest →
    step s = exec i { s.chosen with ports := { s.chosen.ports with cmdIn := rest } }) ∧
  (∀ (s : State) (w : Word) (i : Instr) (rest : List Word),
    s.nextPort = some .tick → s.ports.tickIn = w :: rest → decodeTick w = .instr i →
    step s = exec i { s.chosen with ports := { s.chosen.ports with tickIn := rest } }) ∧
  (∀ s : State, s.sched.running = true → (s.cmdOffered && s.tickOffered) = false → s.chosen = s) ∧
  (∀ s : State, s.sched.running = true → (s.cmdOffered && s.tickOffered) = true → s.chosen = s.afterTurn) ∧
  (∀ s : State, s.sched.running = false → s.chosen = { s with ports := { s.ports with tickIn := [] } })

/-- R301: a SET_GAMMA_TABLE whose payload has not all arrived is no step: with nothing on TICK the core waits unchanged
(an idle step, log 8); a second word among the entries is refused (log 7). The model's own: a word on TICK goes meanwhile
if the scheduler runs (log 17); while it is stopped, the idle step only discards whatever stands on TICK (log 8,
log 21). -/
def Obligations.IncompletePayloadWaits : Prop :=
  ∀ (s : State) (w : Word) (es : List Entry),
    w.extractLsb' 56 8 = 0x07#8 → es.length < (w.extractLsb' 32 9).toNat →
    (s.ports.cmdIn = .word w :: es.map .entry →
      (s.ports.tickIn = [] → step s = .next s) ∧
      (s.sched.running = true → s.ports.tickIn ≠ [] → s.nextPort = some .tick) ∧
      (s.sched.running = false → step s = .next { s with ports := { s.ports with tickIn := [] } })) ∧
    (∀ w' rest, s.ports.cmdIn = .word w :: es.map .entry ++ .word w' :: rest → s.nextPort = some .cmd →
      step s = .refused .interleavedTransactions)

/-- R79: when a CMD transaction and a TICK word that the core accepts are both offered, either may go first: the outside world's choice
decides, and no choice is shut out. That the choice stands in `turns` is the model's own (log 3). -/
def Obligations.EitherPortMayGoFirst : Prop :=
  ∀ (s : State) (p : Port) (later : List Port),
    s.cmdOffered = true → s.tickOffered = true →
    State.nextPort { s with ports := { s.ports with turns := p :: later } } = some p

/-- R280: no instruction faults or is refused, and a step stops only on interleaved CMD transactions (R86, R301), which
the model refuses by name (log 7). -/
def Obligations.NothingStopsButInterleavedTransactions : Prop :=
  (∀ (i : Instr) (s : State), ∃ t, exec i s = .next t) ∧
  (∀ s : State, (∃ t, step s = .next t) ∨
    (step s = .refused .interleavedTransactions ∧ decodeCmd s.ports.cmdIn = .interleaved))

/-- The model's own placing of a word (log 4): with nothing else offered, the next step runs exactly the instruction
that the decoder reads from the word. -/
def Obligations.PlacedWordRunsNext : Prop :=
  ∀ (s : State) (w : Nat) (i : Instr),
    s.ports.cmdIn = [] → s.ports.tickIn = [] → decodeTableWord 64 w = some i →
    step (s.withFetchWord 64 w) = exec i s

/-! ## Lifecycle (spec/43_commands.md R243, R244) -/

/-- R54: the state after a successful INIT, with TsSchedule(P) as its only request (R211), no duty write (R325), and the
answer Ok. -/
def Obligations.InitEstablishesOperatingState : Prop :=
  ∀ (s : State) (P : Millis) (N : BitVec 16),
    s.ctrl.initialized = false → P ≠ 0#32 → N ≠ 0#16 → N.toNat ≤ s.params.nChMax →
    exec (.init P N) s = .next
      { s with
        ctrl := ⟨true, P, N⟩
        sched := ⟨true, false⟩
        ch := List.replicate s.params.nChMax ⟨0#16, 0#16, 0#17, 0#32, 0#32⟩
        lut := s.params.gammaDefault
        ports := { s.ports with trace := s.ports.trace ++ [.tsreq (.schedule P), .rsp 0#64] } }

/-- R243, R287: INIT's four checks in their order: initialized, zero period, zero channels, too many channels; each
answers and changes nothing. -/
def Obligations.InitChecksInOrder : Prop :=
  ∀ (s : State) (P : Millis) (N : BitVec 16),
    (s.ctrl.initialized = true ∨ P = 0#32 ∨ N = 0#16 →
      exec (.init P N) s = .next
        { s with ports := { s.ports with trace := s.ports.trace ++ [.rsp 0x0100000000000000#64] } }) ∧
    (s.ctrl.initialized = false → P ≠ 0#32 → N ≠ 0#16 → s.params.nChMax < N.toNat →
      exec (.init P N) s = .next
        { s with ports := { s.ports with trace := s.ports.trace ++ [.rsp 0x0200000000000000#64] } })

/-- R244: DEINIT of an initialized core leaves the reset state of R53, having asked for TsStop if the scheduler ran and
then TsRelease (R216); it writes no duty. Otherwise it answers InvalidArgument. -/
def Obligations.DeinitRestoresResetState : Prop :=
  ∀ s : State,
    (s.ctrl.initialized = true →
      exec .deinit s = .next
        { State.resetWith s.params with
          ports :=
            { s.ports with
              trace := s.ports.trace ++
                ((if s.sched.running then [.tsreq .stop] else []) ++ [.tsreq .release, .rsp 0#64]) } }) ∧
    (s.ctrl.initialized = false →
      exec .deinit s = .next
        { s with ports := { s.ports with trace := s.ports.trace ++ [.rsp 0x0100000000000000#64] } })

/-- R321: on a core that is not initialized and does not run, every command but INIT is answered InvalidArgument and
changes nothing, and TICK is discarded. -/
def Obligations.OnlyInitSucceedsBeforeInit : Prop :=
  ∀ (s : State) (i : Instr),
    s.ctrl.initialized = false → s.sched.running = false →
    (i.port = .cmd → (∀ P N, i ≠ .init P N) →
      exec i s = .next
        { s with ports := { s.ports with trace := s.ports.trace ++ [.rsp 0x0100000000000000#64] } }) ∧
    exec .tick s = .next s

/-- R53, R320: what reset leaves, for every choice of the parameters: nothing initialized, prepared or running, every
channel field 0, the default table, and nothing put out on any port. -/
def Obligations.ResetLeavesEveryElementAtItsResetValue : Prop :=
  ∀ p : Params,
    (State.resetWith p).ctrl = ⟨false, 0#32, 0#16⟩ ∧ (State.resetWith p).sched = ⟨false, false⟩ ∧
    (State.resetWith p).ch = List.replicate p.nChMax ⟨0#16, 0#16, 0#17, 0#32, 0#32⟩ ∧
    (State.resetWith p).lut = p.gammaDefault ∧ (State.resetWith p).ports.trace = []

/-! ## Channel commands (spec/43_commands.md R245-R248, spec/41_fade_engine.md R174-R177) -/

/-- R240: a channel command on a channel out of range, or before INIT, answers InvalidArgument and changes nothing. -/
def Obligations.ChannelCommandsValidateTheirChannel : Prop :=
  ∀ (s : State) (i : Instr) (c : ChannelId),
    ((∃ v ms, i = .setChannel c v ms) ∨ (∃ v ms sm, i = .startBlink c v ms sm) ∨ i = .stopBlink c ∨
      i = .getChannel c) →
    (s.ctrl.initialized = false ∨ s.ctrl.channelCount.toNat ≤ c.toNat) →
    exec i s = .next
      { s with ports := { s.ports with trace := s.ports.trace ++ [.rsp 0x0100000000000000#64] } }

/-- The immediate form of SET_CHANNEL (R174, R245): `cur` and `target` become `value << 8`, both counters 0, `step` is
not written; one duty write of R148's `(lut[v] · (DUTY_MAX + 1)) >> 16`, whose answer decides the response; no
TimeSource request. -/
def Obligations.SetChannelImmediateSetsAndWrites : Prop :=
  ∀ (s : State) (c : ChannelId) (v : Byte),
    s.Present c →
    exec (.setChannel c v 0#32) s = .next
      { s with
        ch := s.ch.set c.toNat
          { s.chan c.toNat with
            cur := BitVec.ofNat 16 (v.toNat * 256)
            target := BitVec.ofNat 16 (v.toNat * 256)
            remainingTicks := 0#32
            halfPeriodTicks := 0#32 }
        ports :=
          { s.ports with
            sinkAnswers := s.ports.sinkAnswers.tail
            sinkCount := s.ports.sinkCount + 1
            trace := s.ports.trace ++
              [.sink c ((s.lut.getD v.toNat 0#16).toNat * 2 ^ s.params.dutyBits / 65536) s.sinkAnswer,
                .rsp (match s.sinkAnswer with
                  | .ok => 0#64
                  | .hwErr => BitVec.ofNat 64 (3 * 2 ^ 56 + c.toNat * 2 ^ 48))] } }

/-- The fade form of SET_CHANNEL (R175, R241, R245): `target`, `remainingTicks = max(1, floor(ms / period))`, `step` the
quotient truncated toward zero from `cur` as it stands, no loop; `cur` is not written, no duty is written; TsStart
exactly if the scheduler was stopped (R212). -/
def Obligations.SetChannelFadeArmsRamp : Prop :=
  ∀ (s : State) (c : ChannelId) (v : Byte) (ms : Millis),
    s.Present c → ms ≠ 0#32 →
    exec (.setChannel c v ms) s = .next
      { s with
        sched := { s.sched with running := true }
        ch := s.ch.set c.toNat
          { cur := (s.chan c.toNat).cur
            target := BitVec.ofNat 16 (v.toNat * 256)
            step := BitVec.ofInt 17
              (Int.tdiv ((v.toNat * 256 : Nat) - ((s.chan c.toNat).cur.toNat : Int))
                (max 1 (ms.toNat / s.ctrl.tickPeriodMs.toNat) : Nat))
            remainingTicks := BitVec.ofNat 32 (max 1 (ms.toNat / s.ctrl.tickPeriodMs.toNat))
            halfPeriodTicks := 0#32 }
        ports :=
          { s.ports with
            trace := s.ports.trace ++
              ((if s.sched.running then [] else [.tsreq .start]) ++ [.rsp 0#64]) } }

/-- START_BLINK (R176, R242, R246): `cur` and `target` become `value << 8`, the half-period is
`max(1, floor(floor(ms / 2) / period))`; a smooth loop starts with a half-period of falling steps, a square loop with
step 0 and no ticks left; no duty is written; TsStart exactly if the scheduler was stopped. -/
def Obligations.StartBlinkArmsLoop : Prop :=
  ∀ (s : State) (c : ChannelId) (v : Byte) (ms : Millis) (smooth : Bool),
    s.Present c →
    exec (.startBlink c v ms smooth) s = .next
      { s with
        sched := { s.sched with running := true }
        ch := s.ch.set c.toNat
          { cur := BitVec.ofNat 16 (v.toNat * 256)
            target := BitVec.ofNat 16 (v.toNat * 256)
            step := if smooth then
                BitVec.ofInt 17 (Int.tdiv (-(v.toNat * 256 : Nat))
                  (max 1 (ms.toNat / 2 / s.ctrl.tickPeriodMs.toNat) : Nat))
              else 0#17
            remainingTicks := if smooth then
                BitVec.ofNat 32 (max 1 (ms.toNat / 2 / s.ctrl.tickPeriodMs.toNat))
              else 0#32
            halfPeriodTicks := BitVec.ofNat 32 (max 1 (ms.toNat / 2 / s.ctrl.tickPeriodMs.toNat)) }
        ports :=
          { s.ports with
            trace := s.ports.trace ++
              ((if s.sched.running then [] else [.tsreq .start]) ++ [.rsp 0#64]) } }

/-- STOP_BLINK (R177, R247): `halfPeriodTicks`, `remainingTicks` and `step` become 0, `cur` and `target` stay; nothing is
written or requested, RUNNING stays, and the answer is Ok. -/
def Obligations.StopBlinkFreezesChannel : Prop :=
  ∀ (s : State) (c : ChannelId),
    s.Present c →
    exec (.stopBlink c) s = .next
      { s with
        ch := s.ch.set c.toNat
          { cur := (s.chan c.toNat).cur
            target := (s.chan c.toNat).target
            step := 0#17
            remainingTicks := 0#32
            halfPeriodTicks := 0#32 }
        ports := { s.ports with trace := s.ports.trace ++ [.rsp 0#64] } }

/-- GET_CHANNEL (R248) answers `min(255, cur >> 8)` in DATA and changes no state. -/
def Obligations.GetChannelAnswersIntegerPart : Prop :=
  ∀ (s : State) (c : ChannelId),
    s.Present c →
    exec (.getChannel c) s = .next
      { s with
        ports :=
          { s.ports with
            trace := s.ports.trace ++ [.rsp (BitVec.ofNat 64 (min 255 ((s.chan c.toNat).cur.toNat / 256)))] } }

/-- SET_GAMMA_TABLE (R249): an initialized core with LEN = 256 replaces the whole table by the payload, checks no entry
and writes no duty; a core that is not initialized, or another LEN, answers InvalidArgument and changes nothing. -/
def Obligations.SetGammaTableReplacesTheTable : Prop :=
  ∀ (s : State) (len : BitVec 9) (es : List Entry),
    Instr.WellFormed (.setGammaTable len es) →
    (s.ctrl.initialized = true → len = 256#9 →
      exec (.setGammaTable len es) s = .next
        { s with lut := es, ports := { s.ports with trace := s.ports.trace ++ [.rsp 0#64] } }) ∧
    (s.ctrl.initialized = false ∨ len ≠ 256#9 →
      exec (.setGammaTable len es) s = .next
        { s with ports := { s.ports with trace := s.ports.trace ++ [.rsp 0x0100000000000000#64] } })

/-- R189, R222: a channel command leaves every other channel's register set, the table, the control fields and
PREPARED as they were. -/
def Obligations.ChannelCommandsLeaveOtherChannels : Prop :=
  ∀ (s t : State) (i : Instr) (c : ChannelId),
    ((∃ v ms, i = .setChannel c v ms) ∨ (∃ v ms sm, i = .startBlink c v ms sm) ∨ i = .stopBlink c ∨
      i = .getChannel c) →
    exec i s = .next t →
    t.params = s.params ∧ t.ctrl = s.ctrl ∧ t.lut = s.lut ∧ t.sched.prepared = s.sched.prepared ∧
    t.ch.length = s.ch.length ∧ t.ports.cmdIn = s.ports.cmdIn ∧ t.ports.tickIn = s.ports.tickIn ∧
    ∀ d, d ≠ c.toNat → t.chan d = s.chan d

/-- R241, R242: the two conversions from milliseconds, exact in 32 bits; halving and dividing with two floors is one
division by twice the period. -/
def Obligations.MillisecondConversions : Prop :=
  ∀ p ms : Millis,
    (fadeTicks p ms).toNat = max 1 (ms.toNat / p.toNat) ∧
    (halfTicks p ms).toNat = max 1 (ms.toNat / 2 / p.toNat) ∧
    (halfTicks p ms).toNat = max 1 (ms.toNat / (2 * p.toNat))

/-! ## TICK (spec/42_tick_scheduler.md, spec/41_fade_engine.md R178-R181) -/

/-- R214, R215: an accepted TICK, all at once: every channel below CHANNEL_COUNT ticked once and no other, one duty write
of Map(`cur` after the update) for each armed channel in ascending order, TsStop exactly if no channel is armed
afterwards, and one response on TRSP that names the lowest failing channel. -/
def Obligations.TickAdvancesEveryChannelOnce : Prop :=
  ∀ s : State,
    s.sched.running = true → s.ChannelsExist →
    exec .tick s = .next
      (let n := s.ctrl.channelCount.toNat
       let stays := (List.range n).any fun c => (s.chan c).tick.armed
       { s with
         sched := { s.sched with running := stays }
         ch := s.tickedBelow n
         ports :=
           { s.ports with
             sinkAnswers := s.ports.sinkAnswers.drop (s.armedBelow n).length
             sinkCount := s.ports.sinkCount + (s.armedBelow n).length
             trace := s.ports.trace ++ s.writesBelow n ++ (if stays then [] else [.tsreq .stop]) ++
               [.trsp (match s.failureBelow n with
                 | none => 0#64
                 | some c => BitVec.ofNat 64 (3 * 2 ^ 56 + c.toNat * 2 ^ 48))] } })

/-- R179, R180, R181: the three branches of TickChannel on a register set, in their priority order. -/
def Obligations.TickChannelBranches : Prop :=
  ∀ r : ChannelRegs,
    (0 < r.remainingTicks.toNat →
      r.tick.remainingTicks.toNat = r.remainingTicks.toNat - 1 ∧ r.tick.target = r.target ∧
      r.tick.step = r.step ∧ r.tick.halfPeriodTicks = r.halfPeriodTicks ∧
      (r.tick.cur.toNat : Int) =
        if r.remainingTicks.toNat = 1 ∧ r.halfPeriodTicks = 0#32 then (r.target.toNat : Int)
        else if r.step = 0#17 then (r.cur.toNat : Int)
        else min 0xFF00 (max 0 ((r.cur.toNat : Int) + r.step.toInt))) ∧
    (r.remainingTicks.toNat = 0 → 0 < r.halfPeriodTicks.toNat → -65535 ≤ r.step.toInt →
      r.tick.remainingTicks.toNat = r.halfPeriodTicks.toNat - 1 ∧ r.tick.target = r.target ∧
      r.tick.halfPeriodTicks = r.halfPeriodTicks ∧ r.tick.step.toInt = -r.step.toInt ∧
      (r.tick.cur.toNat : Int) =
        if r.step = 0#17 then (if r.cur = r.target then 0 else (r.target.toNat : Int))
        else min 0xFF00 (max 0 ((r.cur.toNat : Int) - r.step.toInt))) ∧
    (r.remainingTicks.toNat = 0 → r.halfPeriodTicks.toNat = 0 → r.tick = r)

/-- R221, R80: one TICK makes at most CHANNEL_COUNT duty writes, of ascending channel ids below CHANNEL_COUNT and of
duties up to DUTY_MAX, and at most one TimeSource request, a TsStop; its response comes last. -/
def Obligations.TickIsBoundedAndInChannelOrder : Prop :=
  ∀ s t : State,
    s.sched.running = true → s.ChannelsExist → exec .tick s = .next t →
    ∃ es w, t.ports.trace = s.ports.trace ++ es ++ [.trsp w] ∧ responses es = [] ∧
      (sinkWrites es).length ≤ s.ctrl.channelCount.toNat ∧
      ((sinkWrites es).map fun x => x.1.toNat).Pairwise (· < ·) ∧
      (∀ x ∈ sinkWrites es, x.1.toNat < s.ctrl.channelCount.toNat ∧ x.2.1 ≤ 2 ^ s.params.dutyBits - 1) ∧
      (tsRequests es = [] ∨ tsRequests es = [.stop])

/-- R218: a TICK that finds no channel armed writes nothing and stops the scheduler; a TICK that leaves none armed stops
it, and one that leaves some armed does not. -/
def Obligations.SchedulerStopsWhenNoChannelIsArmed : Prop :=
  ∀ s t : State,
    s.sched.running = true → s.ChannelsExist → exec .tick s = .next t →
    (s.anyArmed = false →
      t = { s with
        sched := { s.sched with running := false }
        ports := { s.ports with trace := s.ports.trace ++ [.tsreq .stop, .trsp 0#64] } }) ∧
    t.sched.running = t.anyArmed

/-- R210: the scheduler changes state only as its table says, and by those instructions only. -/
def Obligations.SchedulerTransitions : Prop :=
  ∀ (s t : State) (i : Instr) (a b : SchedulerMode),
    s.Lifecycle → exec i s = .next t → s.sched.mode = some a → t.sched.mode = some b → a ≠ b →
    (a = .unprepared ∧ b = .stopped ∧ ∃ P N, i = .init P N) ∨
    (a = .stopped ∧ b = .running ∧
      ((∃ c v ms, i = .setChannel c v ms ∧ ms ≠ 0#32) ∨ ∃ c v ms sm, i = .startBlink c v ms sm)) ∨
    (a = .running ∧ b = .stopped ∧ i = .tick) ∨
    (a ≠ .unprepared ∧ b = .unprepared ∧ i = .deinit)

/-! ## Trajectories (spec/41_fade_engine.md R183-R188)

After the command come any instructions that do not touch the channel, `is`, with `k` TICKs among them. -/

/-- R183: a one-shot fade of `n` ticks is at `c0 + k·s` after `k < n` TICKs, where `s` is `(T − c0) / n` truncated toward
zero, and at `T` exactly and Idle from the `n`-th on. It makes one duty write on each of its `n` TICKs, and every
`c0 + k·s` lies between `c0` and `T`. -/
def Obligations.OneShotFadeTrajectory : Prop :=
  ∀ (s : State) (c : ChannelId) (v : Byte) (ms : Millis) (is : List Instr),
    s.Inv → s.Present c → ms ≠ 0#32 → (∀ i ∈ is, sparesChannel c i = true) →
    let n := max 1 (ms.toNat / s.ctrl.tickPeriodMs.toNat)
    let c0 : Int := (s.chan c.toNat).cur.toNat
    let T : Int := v.toNat * 256
    let k := is.count .tick
    ∃ u, runInstrs (.setChannel c v ms :: is) s = .next u ∧
      ((u.chan c.toNat).cur.toNat : Int) = (if k < n then c0 + k * Int.tdiv (T - c0) n else T) ∧
      (k < n → u.sched.running = true ∧
        min c0 T ≤ c0 + k * Int.tdiv (T - c0) n ∧ c0 + k * Int.tdiv (T - c0) n ≤ max c0 T) ∧
      (n ≤ k → (u.chan c.toNat).mode = .idle) ∧
      u.writesTo c = s.writesTo c + min k n

/-- R44 item 3: while a one-shot fade runs, and after it, the brightness lies between its start and its end. -/
def Obligations.FadeNeverLeavesItsInterval : Prop :=
  ∀ (s u : State) (c : ChannelId) (v : Byte) (ms : Millis) (is : List Instr),
    s.Inv → s.Present c → ms ≠ 0#32 → (∀ i ∈ is, sparesChannel c i = true) →
    runInstrs (.setChannel c v ms :: is) s = .next u →
    min (s.chan c.toNat).cur.toNat (v.toNat * 256) ≤ (u.chan c.toNat).cur.toNat ∧
    (u.chan c.toNat).cur.toNat ≤ max (s.chan c.toNat).cur.toNat (v.toNat * 256)

/-- R184: the `k`-th TICK of a square loop leaves 0 if `(k − 1) / h` is even and `v << 8` if it is odd; every TICK writes
a duty. -/
def Obligations.SquareLoopTrajectory : Prop :=
  ∀ (s : State) (c : ChannelId) (v : Byte) (ms : Millis) (is : List Instr),
    s.Inv → s.Present c → (∀ i ∈ is, sparesChannel c i = true) →
    let h := max 1 (ms.toNat / 2 / s.ctrl.tickPeriodMs.toNat)
    let k := is.count .tick
    ∃ u, runInstrs (.startBlink c v ms false :: is) s = .next u ∧ u.sched.running = true ∧
      (1 ≤ k → (u.chan c.toNat).cur.toNat = if (k - 1) / h % 2 = 0 then 0 else v.toNat * 256) ∧
      u.writesTo c = s.writesTo c + k

/-- R185: the triangle wave of a smooth loop with `s = floor(V / h)` above 0: the `m`-th TICK of half-period `j` leaves
`V − m·s` if `j` is even (falling) and `V − h·s + m·s` if `j` is odd (rising); the lowest value is below `h`; every TICK
writes a duty. -/
def Obligations.SmoothLoopTrajectory : Prop :=
  ∀ (s : State) (c : ChannelId) (v : Byte) (ms : Millis) (is : List Instr),
    s.Inv → s.Present c → (∀ i ∈ is, sparesChannel c i = true) →
    let h := max 1 (ms.toNat / 2 / s.ctrl.tickPeriodMs.toNat)
    let V := v.toNat * 256
    let k := is.count .tick
    let j := (k - 1) / h
    let m := k - j * h
    0 < V / h →
    ∃ u, runInstrs (.startBlink c v ms true :: is) s = .next u ∧ u.sched.running = true ∧
      (1 ≤ k → 1 ≤ m ∧ m ≤ h ∧ h * (V / h) ≤ V ∧ V - h * (V / h) < h ∧
        (u.chan c.toNat).cur.toNat = if j % 2 = 0 then V - m * (V / h) else V - h * (V / h) + m * (V / h)) ∧
      u.writesTo c = s.writesTo c + k

/-- R188: a smooth loop whose quotient is zero holds `V` after the `k`-th TICK if `(k − 1) / h` is even and 0 if it is
odd: a square blink that starts "on". -/
def Obligations.DegenerateSmoothLoopTrajectory : Prop :=
  ∀ (s : State) (c : ChannelId) (v : Byte) (ms : Millis) (is : List Instr),
    s.Inv → s.Present c → (∀ i ∈ is, sparesChannel c i = true) →
    let h := max 1 (ms.toNat / 2 / s.ctrl.tickPeriodMs.toNat)
    let V := v.toNat * 256
    let k := is.count .tick
    V / h = 0 →
    ∃ u, runInstrs (.startBlink c v ms true :: is) s = .next u ∧ u.sched.running = true ∧
      (u.chan c.toNat).cur.toNat = (if (k - 1) / h % 2 = 0 then V else 0) ∧
      u.writesTo c = s.writesTo c + k

/-! ## The gamma table (spec/40_gamma_lut.md) -/

/-- R143: a table that Build gives for any exponent above 0 is valid at every duty resolution. -/
def Obligations.BuiltTablesAreValid : Prop :=
  ∀ (e : ℝ) (t : List Entry) (bits : Nat), 0 < e → IsBuild e t → 1 ≤ bits → bits ≤ 16 → TableValid bits t

/-- R149: the closed forms are Build(1) and Build(1/2). -/
def Obligations.ClosedFormsAreBuild : Prop :=
  IsBuild 1 buildOne ∧ IsBuild (1 / 2) buildHalf

/-- R146: full-scale input reaches DUTY_MAX, for every valid table and for every table that Build gives; and R143's
condition 2 holds exactly when it does. -/
def Obligations.FullScaleReachesDutyMax : Prop :=
  ∀ (bits : Nat) (t : List Entry), 1 ≤ bits → bits ≤ 16 →
    ((TableValid bits t ∨ ∃ e : ℝ, 0 < e ∧ IsBuild e t) → mapDuty bits t 0xFF00#16 = 2 ^ bits - 1) ∧
    (65536 - 2 ^ (16 - bits) ≤ (lutRead t 255).toNat ↔ mapDuty bits t 0xFF00#16 = 2 ^ bits - 1)

/-- R147: for a non-decreasing table Map is non-decreasing over all values of its input. -/
def Obligations.MapIsMonotone : Prop :=
  ∀ (bits : Nat) (t : List Entry) (q q' : Q88),
    NonDecreasing t → q.toNat ≤ q'.toNat → mapDuty bits t q ≤ mapDuty bits t q'

/-- R148: for an integer brightness Map is `(lut[v] · (DUTY_MAX + 1)) >> 16`. -/
def Obligations.MapOfIntegerBrightness : Prop :=
  ∀ (bits : Nat) (t : List Entry) (v : Byte),
    mapDuty bits t (BitVec.ofNat 16 (v.toNat * 256)) = (t.getD v.toNat 0#16).toNat * 2 ^ bits / 65536

/-- R145: the interpolation lies between its two entries for every table, and equals `a + floor((b − a)·frac / 256)`
whatever the sign of `b − a`; the final clamp never changes the result. -/
def Obligations.InterpolationFormula : Prop :=
  ∀ (bits : Nat) (t : List Entry) (q : Q88),
    let a : Int := (lutRead t (q.toNat / 256)).toNat
    let b : Int := (lutRead t (min 255 (q.toNat / 256 + 1))).toNat
    (interpolate t q : Int) = a + (b - a) * (q.toNat % 256 : Nat) / 256 ∧
    min a b ≤ interpolate t q ∧ (interpolate t q : Int) ≤ max a b ∧
    mapDuty bits t q = interpolate t q * 2 ^ bits / 65536 ∧ mapDuty bits t q ≤ 2 ^ bits - 1

/-- R172, R14: `tdiv` is `sign(a) · floor(|a| / b)`, and a ramp of `b` such steps never passes its end point. -/
def Obligations.StepDivisionTruncates : Prop :=
  ∀ a b : Int, 0 < b → tdiv a b = a.sign * (|a| / b) ∧ |b * tdiv a b| ≤ |a|

/-! ## Errors and responses (spec/60_exceptions.md, spec/30_encoding.md R108, R109) -/

/-- R108, R286: every host command runs to a next state and puts out exactly one response word, on RSP and last; its
status is one of the four codes, bits 47:8 are 0, ERRCH is 0 unless HardwareError, DATA is 0 unless Ok; with
InvalidArgument or ResourceExhausted the response is the command's only effect. -/
def Obligations.EveryCommandAnswersOnce : Prop :=
  ∀ (i : Instr) (s : State), i.port = .cmd →
    ∃ t es w, exec i s = .next t ∧ t.ports.trace = s.ports.trace ++ es ++ [.rsp w] ∧ responses es = [] ∧
      (responseStatus w).toNat ≤ 3 ∧ w.extractLsb' 8 40 = 0#40 ∧
      (responseStatus w ≠ 0x03#8 → responseErrch w = 0#8) ∧ (responseStatus w ≠ 0x00#8 → responseData w = 0#8) ∧
      ((responseStatus w = 0x01#8 ∨ responseStatus w = 0x02#8) →
        t = { s with ports := { s.ports with trace := s.ports.trace ++ [.rsp w] } })

/-- R286: a HardwareError changes no state of the core: from two states that differ only in what the sink will answer,
an instruction leaves the same state of the core, and both make the same duty writes up to the answers. -/
def Obligations.SinkAnswersDoNotChangeTheCore : Prop :=
  ∀ (i : Instr) (s t s' t' : State) (answers : List SinkResult) (count : Nat),
    t = { s with ports := { s.ports with sinkAnswers := answers, sinkCount := count } } →
    exec i s = .next s' → exec i t = .next t' →
    s'.SameCore t' ∧
    (sinkWrites s'.ports.trace).map (fun x => (x.1, x.2.1)) =
      (sinkWrites t'.ports.trace).map (fun x => (x.1, x.2.1)) ∧
    tsRequests s'.ports.trace = tsRequests t'.ports.trace

/-- R174: the stale `step` of a channel that is not armed is never read: states that differ only there stay so, with
the same traffic on every port. -/
def Obligations.StaleStepIsNeverRead : Prop :=
  ∀ (i : Instr) (s t s' t' : State),
    s.SameButStaleSteps t → exec i s = .next s' → exec i t = .next t' → s'.SameButStaleSteps t'

/-- R326, R327, R325: only the immediate form of SET_CHANNEL and TICK write duties: after any other instruction the
peripheral holds on every channel what it held. -/
def Obligations.OnlyImmediateSetsAndTicksWriteDuties : Prop :=
  ∀ (i : Instr) (s t : State), exec i s = .next t → i ≠ .tick → (∀ c v, i ≠ .setChannel c v 0#32) →
    sinkWrites t.ports.trace = sinkWrites s.ports.trace ∧
    ∀ c, peripheralDuty t.ports.trace c = peripheralDuty s.ports.trace c

/-! ## Invariants -/

/-- The invariant of R32-R45 and R217 is kept by every step, from every state that has it. -/
def Obligations.StepKeepsTheInvariant : Prop :=
  ∀ s t : State, s.Inv → step s = .next t → t.Inv

/-- The invariant holds right after reset, for every legal choice of the parameters; and the machine's own reset state
is one of these (the model's choice, log 1). -/
def Obligations.ResetHasTheInvariant : Prop :=
  (∀ p : Params, p.Legal → (State.resetWith p).Inv) ∧
  (∃ p : Params, p.Legal ∧ State.reset = State.resetWith p) ∧ State.reset.Inv

/-- Every reachable state has the invariant, whatever the outside world offers, orders and answers between steps. -/
def Obligations.ReachableStatesHaveTheInvariant : Prop :=
  ∀ (p : Params) (s : State), p.Legal → State.Reachable p s → s.Inv ∧ s.params = p

/-- R173: in every reachable state the saturation of the brightness update never changes the value: neither of branch 1's
`cur + step`, nor of branch 2's `cur − step`. -/
def Obligations.SaturationNeverChangesTheValue : Prop :=
  ∀ (p : Params) (s : State) (c : Nat), p.Legal → State.Reachable p s → c < p.nChMax →
    let r := s.chan c
    (0 < r.remainingTicks.toNat →
      0 ≤ (r.cur.toNat : Int) + r.step.toInt ∧ (r.cur.toNat : Int) + r.step.toInt ≤ 0xFF00) ∧
    (r.remainingTicks.toNat = 0 → 0 < r.halfPeriodTicks.toNat →
      0 ≤ (r.cur.toNat : Int) - r.step.toInt ∧ (r.cur.toNat : Int) - r.step.toInt ≤ 0xFF00)

/-- R44 item 4, from the invariant: in a loop with a step, `cur` lies in `[target − halfPeriodTicks·|step|, target]`,
which is within `[0, target]`. -/
def Obligations.LoopStaysInItsRange : Prop :=
  ∀ r : ChannelRegs, r.Inv → 0 < r.halfPeriodTicks.toNat → r.step ≠ 0#17 →
    0 ≤ (r.target.toNat : Int) - r.halfPeriodTicks.toNat * |r.step.toInt| ∧
    (r.target.toNat : Int) - r.halfPeriodTicks.toNat * |r.step.toInt| ≤ r.cur.toNat ∧
    r.cur.toNat ≤ r.target.toNat

/-- R217: in every reachable state the TimeSource has heard TsSchedule, TsStart, TsStop and TsRelease in their turn:
between a TsSchedule and the next TsRelease, TsStart and TsStop alternate, and no request came out of turn. -/
def Obligations.TimeSourceRequestsAlternate : Prop :=
  ∀ (p : Params) (s : State), p.Legal → State.Reachable p s →
    timeSourceMode s.ports.trace ≠ none ∧
    (s.sched.running = true ↔ timeSourceMode s.ports.trace = some .running) ∧
    (s.sched.prepared = true ↔ timeSourceMode s.ports.trace ≠ some .unprepared)

/-- R296: in every reachable state no duty write ever named a channel id at or above N_CH_MAX, and none carried a duty
above DUTY_MAX. -/
def Obligations.ReachableDutyWritesAreInRange : Prop :=
  ∀ (p : Params) (s : State), p.Legal → State.Reachable p s →
    ∀ x ∈ sinkWrites s.ports.trace, x.1.toNat < p.nChMax ∧ x.2.1 ≤ 2 ^ p.dutyBits - 1

/-- No step changes the parameters, and what has been put out stays put out. -/
def Obligations.ParametersAndTrafficPersist : Prop :=
  ∀ s t : State, step s = .next t → t.params = s.params ∧ ∃ es, t.ports.trace = s.ports.trace ++ es

/-! ## Assembler (spec/30_encoding.md R118, R119) -/

/-- R119: the five expansions; FADE rejects `ms = 0`. -/
def Obligations.PseudoInstructionsExpand : Prop :=
  ∀ (c : ChannelId) (v : Byte) (ms : Millis),
    expandPseudo (.setNow c v) = some (.setChannel c v 0#32) ∧
    expandPseudo (.fade c v ms) = (if ms = 0#32 then none else some (.setChannel c v ms)) ∧
    expandPseudo (.off c) = some (.setChannel c 0#8 0#32) ∧
    expandPseudo (.blinkSquare c v ms) = some (.startBlink c v ms false) ∧
    expandPseudo (.breathe c v ms) = some (.startBlink c v ms true)

/-- Every command an assembler line stands for is a well-formed host command, so its words decode back to it. -/
def Obligations.AssembledCommandsAreWellFormed : Prop :=
  ∀ (labels : List (List Char × List Nat)) (line : List Char) (i : Instr),
    assembleLine labels line = .command i → i.WellFormed ∧ i.port = .cmd ∧ decodeCmd (encode i) = .instr i []

/-! ## The wire, and the TimeSource's fairness -/

/-- R73: byte `k` of a word on the wire carries its bits `8k+7:8k`, and so for the two bytes of an entry; a command is
its word and then its payload, entry 0 first. What RSP and TRSP put on a byte-wide transport is read back as their
response words, and a part of a word after them delivers nothing (R75). -/
def Obligations.WireIsLittleEndian : Prop :=
  (∀ w : Word, (bytesOfWord w).length = 8 ∧ ∀ k < 8, (bytesOfWord w)[k]? = some (w.extractLsb' (8 * k) 8)) ∧
  (∀ e : Entry, bytesOfEntry e = [e.extractLsb' 0 8, e.extractLsb' 8 8]) ∧
  (∀ i : Instr, encodeBytes i = bytesOfWord (encodeWord i) ++ (encodePayload i).flatMap bytesOfEntry) ∧
  (∀ (es : List Event) (part : List Byte), part.length < 8 →
    (rspBytes es).length = 8 * (rspWords es).length ∧ wireWords (rspBytes es ++ part) = rspWords es ∧
    (trspBytes es).length = 8 * (trspWords es).length ∧ wireWords (trspBytes es ++ part) = trspWords es)

/-- R219 put to use: in an endless run whose TimeSource is fair, a one-shot fade that no command touches any more reaches
its target and becomes Idle. -/
def Obligations.FairRunsFinishFades : Prop :=
  ∀ (p : Params) (r : EndlessRun p) (n : Nat) (c : ChannelId),
    p.Legal → r.Fair → ((r.state n).chan c.toNat).mode = .oneShotFade →
    (∀ m ≥ n, r.steps m = true → ∀ i, (r.state m).takesCommand i → sparesChannel c i = true) →
    ∃ m ≥ n, ((r.state m).chan c.toNat).mode = .idle ∧
      ((r.state m).chan c.toNat).cur = ((r.state n).chan c.toNat).target
end

