-- ==== Sys2Proof/Laws/State.lean ====
section
/-! SUPPORT. What each update of the state does to each field, true by computation. -/
namespace Sys2Proof.Machine

/-! ## setChan -/

@[simp] theorem State.setChan_params (s : State) (c : Nat) (r : ChannelRegs) :
    (s.setChan c r).params = s.params := rfl
@[simp] theorem State.setChan_ctrl (s : State) (c : Nat) (r : ChannelRegs) :
    (s.setChan c r).ctrl = s.ctrl := rfl
@[simp] theorem State.setChan_sched (s : State) (c : Nat) (r : ChannelRegs) :
    (s.setChan c r).sched = s.sched := rfl
@[simp] theorem State.setChan_ch (s : State) (c : Nat) (r : ChannelRegs) :
    (s.setChan c r).ch = s.ch.set c r := rfl
@[simp] theorem State.setChan_lut (s : State) (c : Nat) (r : ChannelRegs) :
    (s.setChan c r).lut = s.lut := rfl
@[simp] theorem State.setChan_ports (s : State) (c : Nat) (r : ChannelRegs) :
    (s.setChan c r).ports = s.ports := rfl
@[simp] theorem State.setChan_map (s : State) (c : Nat) (r : ChannelRegs) (q : Q88) :
    (s.setChan c r).map q = s.map q := rfl

/-! ## zeroChannels -/

@[simp] theorem State.zeroChannels_params (s : State) :
    s.zeroChannels.params = s.params := rfl
@[simp] theorem State.zeroChannels_ctrl (s : State) :
    s.zeroChannels.ctrl = s.ctrl := rfl
@[simp] theorem State.zeroChannels_sched (s : State) :
    s.zeroChannels.sched = s.sched := rfl
@[simp] theorem State.zeroChannels_ch (s : State) :
    s.zeroChannels.ch = List.replicate s.params.nChMax ChannelRegs.zero := rfl
@[simp] theorem State.zeroChannels_lut (s : State) :
    s.zeroChannels.lut = s.lut := rfl
@[simp] theorem State.zeroChannels_ports (s : State) :
    s.zeroChannels.ports = s.ports := rfl
@[simp] theorem State.zeroChannels_map (s : State) (q : Q88) :
    s.zeroChannels.map q = s.map q := rfl

/-! ## emit -/

@[simp] theorem State.emit_params (s : State) (e : Event) :
    (s.emit e).params = s.params := rfl
@[simp] theorem State.emit_ctrl (s : State) (e : Event) :
    (s.emit e).ctrl = s.ctrl := rfl
@[simp] theorem State.emit_sched (s : State) (e : Event) :
    (s.emit e).sched = s.sched := rfl
@[simp] theorem State.emit_ch (s : State) (e : Event) :
    (s.emit e).ch = s.ch := rfl
@[simp] theorem State.emit_lut (s : State) (e : Event) :
    (s.emit e).lut = s.lut := rfl
@[simp] theorem State.emit_ports (s : State) (e : Event) :
    (s.emit e).ports = { s.ports with trace := s.ports.trace ++ [e] } := rfl
@[simp] theorem State.emit_chan (s : State) (e : Event) (k : Nat) :
    (s.emit e).chan k = s.chan k := rfl
@[simp] theorem State.emit_anyArmed (s : State) (e : Event) :
    (s.emit e).anyArmed = s.anyArmed := rfl
@[simp] theorem State.emit_map (s : State) (e : Event) (q : Q88) :
    (s.emit e).map q = s.map q := rfl

/-! ## tsRequest -/

@[simp] theorem State.tsRequest_params (s : State) (r : TsRequest) :
    (s.tsRequest r).params = s.params := rfl
@[simp] theorem State.tsRequest_ctrl (s : State) (r : TsRequest) :
    (s.tsRequest r).ctrl = s.ctrl := rfl
@[simp] theorem State.tsRequest_sched (s : State) (r : TsRequest) :
    (s.tsRequest r).sched = s.sched := rfl
@[simp] theorem State.tsRequest_ch (s : State) (r : TsRequest) :
    (s.tsRequest r).ch = s.ch := rfl
@[simp] theorem State.tsRequest_lut (s : State) (r : TsRequest) :
    (s.tsRequest r).lut = s.lut := rfl
@[simp] theorem State.tsRequest_ports (s : State) (r : TsRequest) :
    (s.tsRequest r).ports = { s.ports with trace := s.ports.trace ++ [.tsreq r] } := rfl
@[simp] theorem State.tsRequest_chan (s : State) (r : TsRequest) (k : Nat) :
    (s.tsRequest r).chan k = s.chan k := rfl
@[simp] theorem State.tsRequest_anyArmed (s : State) (r : TsRequest) :
    (s.tsRequest r).anyArmed = s.anyArmed := rfl
@[simp] theorem State.tsRequest_map (s : State) (r : TsRequest) (q : Q88) :
    (s.tsRequest r).map q = s.map q := rfl

/-! ## respond -/

@[simp] theorem State.respond_params (s : State) (a : Status) (e : ChannelId) (d : Byte) :
    (s.respond a e d).params = s.params := rfl
@[simp] theorem State.respond_ctrl (s : State) (a : Status) (e : ChannelId) (d : Byte) :
    (s.respond a e d).ctrl = s.ctrl := rfl
@[simp] theorem State.respond_sched (s : State) (a : Status) (e : ChannelId) (d : Byte) :
    (s.respond a e d).sched = s.sched := rfl
@[simp] theorem State.respond_ch (s : State) (a : Status) (e : ChannelId) (d : Byte) :
    (s.respond a e d).ch = s.ch := rfl
@[simp] theorem State.respond_lut (s : State) (a : Status) (e : ChannelId) (d : Byte) :
    (s.respond a e d).lut = s.lut := rfl
@[simp] theorem State.respond_ports (s : State) (a : Status) (e : ChannelId) (d : Byte) :
    (s.respond a e d).ports = { s.ports with trace := s.ports.trace ++ [.rsp (responseWord a e d)] } := rfl
@[simp] theorem State.respond_chan (s : State) (a : Status) (e : ChannelId) (d : Byte) (k : Nat) :
    (s.respond a e d).chan k = s.chan k := rfl
@[simp] theorem State.respond_anyArmed (s : State) (a : Status) (e : ChannelId) (d : Byte) :
    (s.respond a e d).anyArmed = s.anyArmed := rfl
@[simp] theorem State.respond_map (s : State) (a : Status) (e : ChannelId) (d : Byte) (q : Q88) :
    (s.respond a e d).map q = s.map q := rfl

/-! ## tickRespond -/

@[simp] theorem State.tickRespond_params (s : State) (a : Status) (e : ChannelId) :
    (s.tickRespond a e).params = s.params := rfl
@[simp] theorem State.tickRespond_ctrl (s : State) (a : Status) (e : ChannelId) :
    (s.tickRespond a e).ctrl = s.ctrl := rfl
@[simp] theorem State.tickRespond_sched (s : State) (a : Status) (e : ChannelId) :
    (s.tickRespond a e).sched = s.sched := rfl
@[simp] theorem State.tickRespond_ch (s : State) (a : Status) (e : ChannelId) :
    (s.tickRespond a e).ch = s.ch := rfl
@[simp] theorem State.tickRespond_lut (s : State) (a : Status) (e : ChannelId) :
    (s.tickRespond a e).lut = s.lut := rfl
@[simp] theorem State.tickRespond_ports (s : State) (a : Status) (e : ChannelId) :
    (s.tickRespond a e).ports = { s.ports with trace := s.ports.trace ++ [.trsp (responseWord a e 0#8)] } := rfl
@[simp] theorem State.tickRespond_chan (s : State) (a : Status) (e : ChannelId) (k : Nat) :
    (s.tickRespond a e).chan k = s.chan k := rfl
@[simp] theorem State.tickRespond_anyArmed (s : State) (a : Status) (e : ChannelId) :
    (s.tickRespond a e).anyArmed = s.anyArmed := rfl
@[simp] theorem State.tickRespond_map (s : State) (a : Status) (e : ChannelId) (q : Q88) :
    (s.tickRespond a e).map q = s.map q := rfl

/-! ## raise -/

@[simp] theorem State.raise_params (s : State) (a : Status) :
    (s.raise a).params = s.params := rfl
@[simp] theorem State.raise_ctrl (s : State) (a : Status) :
    (s.raise a).ctrl = s.ctrl := rfl
@[simp] theorem State.raise_sched (s : State) (a : Status) :
    (s.raise a).sched = s.sched := rfl
@[simp] theorem State.raise_ch (s : State) (a : Status) :
    (s.raise a).ch = s.ch := rfl
@[simp] theorem State.raise_lut (s : State) (a : Status) :
    (s.raise a).lut = s.lut := rfl
@[simp] theorem State.raise_ports (s : State) (a : Status) :
    (s.raise a).ports = { s.ports with trace := s.ports.trace ++ [.rsp (responseWord a 0#8 0#8)] } := rfl
@[simp] theorem State.raise_chan (s : State) (a : Status) (k : Nat) :
    (s.raise a).chan k = s.chan k := rfl
@[simp] theorem State.raise_anyArmed (s : State) (a : Status) :
    (s.raise a).anyArmed = s.anyArmed := rfl
@[simp] theorem State.raise_map (s : State) (a : Status) (q : Q88) :
    (s.raise a).map q = s.map q := rfl

/-! ## sinkApply -/

@[simp] theorem State.sinkApply_params (s : State) (c : ChannelId) (d : Nat) :
    (s.sinkApply c d).params = s.params := rfl
@[simp] theorem State.sinkApply_ctrl (s : State) (c : ChannelId) (d : Nat) :
    (s.sinkApply c d).ctrl = s.ctrl := rfl
@[simp] theorem State.sinkApply_sched (s : State) (c : ChannelId) (d : Nat) :
    (s.sinkApply c d).sched = s.sched := rfl
@[simp] theorem State.sinkApply_ch (s : State) (c : ChannelId) (d : Nat) :
    (s.sinkApply c d).ch = s.ch := rfl
@[simp] theorem State.sinkApply_lut (s : State) (c : ChannelId) (d : Nat) :
    (s.sinkApply c d).lut = s.lut := rfl
@[simp] theorem State.sinkApply_ports (s : State) (c : ChannelId) (d : Nat) :
    (s.sinkApply c d).ports =
      { s.ports with
        sinkAnswers := s.ports.sinkAnswers.tail
        sinkCount := s.ports.sinkCount + 1
        trace := s.ports.trace ++ [.sink c d s.sinkAnswer] } := rfl
@[simp] theorem State.sinkApply_chan (s : State) (c : ChannelId) (d : Nat) (k : Nat) :
    (s.sinkApply c d).chan k = s.chan k := rfl
@[simp] theorem State.sinkApply_anyArmed (s : State) (c : ChannelId) (d : Nat) :
    (s.sinkApply c d).anyArmed = s.anyArmed := rfl
@[simp] theorem State.sinkApply_map (s : State) (c : ChannelId) (d : Nat) (q : Q88) :
    (s.sinkApply c d).map q = s.map q := rfl

/-! ## setRunning -/

@[simp] theorem State.setRunning_params (s : State) (b : Bool) :
    (s.setRunning b).params = s.params := rfl
@[simp] theorem State.setRunning_ctrl (s : State) (b : Bool) :
    (s.setRunning b).ctrl = s.ctrl := rfl
@[simp] theorem State.setRunning_sched (s : State) (b : Bool) :
    (s.setRunning b).sched = { s.sched with running := b } := rfl
@[simp] theorem State.setRunning_ch (s : State) (b : Bool) :
    (s.setRunning b).ch = s.ch := rfl
@[simp] theorem State.setRunning_lut (s : State) (b : Bool) :
    (s.setRunning b).lut = s.lut := rfl
@[simp] theorem State.setRunning_ports (s : State) (b : Bool) :
    (s.setRunning b).ports = s.ports := rfl
@[simp] theorem State.setRunning_chan (s : State) (b : Bool) (k : Nat) :
    (s.setRunning b).chan k = s.chan k := rfl
@[simp] theorem State.setRunning_anyArmed (s : State) (b : Bool) :
    (s.setRunning b).anyArmed = s.anyArmed := rfl
@[simp] theorem State.setRunning_map (s : State) (b : Bool) (q : Q88) :
    (s.setRunning b).map q = s.map q := rfl

/-! ## withCmdIn -/

@[simp] theorem State.withCmdIn_params (s : State) (items : List CmdItem) :
    (s.withCmdIn items).params = s.params := rfl
@[simp] theorem State.withCmdIn_ctrl (s : State) (items : List CmdItem) :
    (s.withCmdIn items).ctrl = s.ctrl := rfl
@[simp] theorem State.withCmdIn_sched (s : State) (items : List CmdItem) :
    (s.withCmdIn items).sched = s.sched := rfl
@[simp] theorem State.withCmdIn_ch (s : State) (items : List CmdItem) :
    (s.withCmdIn items).ch = s.ch := rfl
@[simp] theorem State.withCmdIn_lut (s : State) (items : List CmdItem) :
    (s.withCmdIn items).lut = s.lut := rfl
@[simp] theorem State.withCmdIn_ports (s : State) (items : List CmdItem) :
    (s.withCmdIn items).ports = { s.ports with cmdIn := items } := rfl
@[simp] theorem State.withCmdIn_chan (s : State) (items : List CmdItem) (k : Nat) :
    (s.withCmdIn items).chan k = s.chan k := rfl
@[simp] theorem State.withCmdIn_anyArmed (s : State) (items : List CmdItem) :
    (s.withCmdIn items).anyArmed = s.anyArmed := rfl
@[simp] theorem State.withCmdIn_map (s : State) (items : List CmdItem) (q : Q88) :
    (s.withCmdIn items).map q = s.map q := rfl

/-! ## withTickIn -/

@[simp] theorem State.withTickIn_params (s : State) (ws : List Word) :
    (s.withTickIn ws).params = s.params := rfl
@[simp] theorem State.withTickIn_ctrl (s : State) (ws : List Word) :
    (s.withTickIn ws).ctrl = s.ctrl := rfl
@[simp] theorem State.withTickIn_sched (s : State) (ws : List Word) :
    (s.withTickIn ws).sched = s.sched := rfl
@[simp] theorem State.withTickIn_ch (s : State) (ws : List Word) :
    (s.withTickIn ws).ch = s.ch := rfl
@[simp] theorem State.withTickIn_lut (s : State) (ws : List Word) :
    (s.withTickIn ws).lut = s.lut := rfl
@[simp] theorem State.withTickIn_ports (s : State) (ws : List Word) :
    (s.withTickIn ws).ports = { s.ports with tickIn := ws } := rfl
@[simp] theorem State.withTickIn_chan (s : State) (ws : List Word) (k : Nat) :
    (s.withTickIn ws).chan k = s.chan k := rfl
@[simp] theorem State.withTickIn_anyArmed (s : State) (ws : List Word) :
    (s.withTickIn ws).anyArmed = s.anyArmed := rfl
@[simp] theorem State.withTickIn_map (s : State) (ws : List Word) (q : Q88) :
    (s.withTickIn ws).map q = s.map q := rfl

/-! ## dropStale -/

theorem State.dropStale_of_running {s : State} (h : s.sched.running = true) : s.dropStale = s := by
  simp [State.dropStale, h]
theorem State.dropStale_of_stopped {s : State} (h : s.sched.running = false) : s.dropStale = s.withTickIn [] := by
  simp [State.dropStale, h]
@[simp] theorem State.dropStale_params (s : State) : s.dropStale.params = s.params := by
  cases h : s.sched.running <;> simp [State.dropStale, h]
@[simp] theorem State.dropStale_ctrl (s : State) : s.dropStale.ctrl = s.ctrl := by
  cases h : s.sched.running <;> simp [State.dropStale, h]
@[simp] theorem State.dropStale_sched (s : State) : s.dropStale.sched = s.sched := by
  cases h : s.sched.running <;> simp [State.dropStale, h]
@[simp] theorem State.dropStale_ch (s : State) : s.dropStale.ch = s.ch := by
  cases h : s.sched.running <;> simp [State.dropStale, h]
@[simp] theorem State.dropStale_lut (s : State) : s.dropStale.lut = s.lut := by
  cases h : s.sched.running <;> simp [State.dropStale, h]
@[simp] theorem State.dropStale_chan (s : State) (k : Nat) : s.dropStale.chan k = s.chan k := by
  simp [State.chan]
@[simp] theorem State.dropStale_anyArmed (s : State) : s.dropStale.anyArmed = s.anyArmed := by
  simp [State.anyArmed]
@[simp] theorem State.dropStale_map (s : State) (q : Q88) : s.dropStale.map q = s.map q := by
  simp [State.map]
@[simp] theorem State.dropStale_cmdIn (s : State) : s.dropStale.ports.cmdIn = s.ports.cmdIn := by
  cases h : s.sched.running <;> simp [State.dropStale, h]
@[simp] theorem State.dropStale_trace (s : State) : s.dropStale.ports.trace = s.ports.trace := by
  cases h : s.sched.running <;> simp [State.dropStale, h]

/-! ## afterTurn -/

@[simp] theorem State.afterTurn_params (s : State) :
    s.afterTurn.params = s.params := rfl
@[simp] theorem State.afterTurn_ctrl (s : State) :
    s.afterTurn.ctrl = s.ctrl := rfl
@[simp] theorem State.afterTurn_sched (s : State) :
    s.afterTurn.sched = s.sched := rfl
@[simp] theorem State.afterTurn_ch (s : State) :
    s.afterTurn.ch = s.ch := rfl
@[simp] theorem State.afterTurn_lut (s : State) :
    s.afterTurn.lut = s.lut := rfl
@[simp] theorem State.afterTurn_ports (s : State) :
    s.afterTurn.ports = { s.ports with turns := s.ports.turns.tail, turnCount := s.ports.turnCount + 1 } := rfl
@[simp] theorem State.afterTurn_chan (s : State) (k : Nat) :
    s.afterTurn.chan k = s.chan k := rfl
@[simp] theorem State.afterTurn_anyArmed (s : State) :
    s.afterTurn.anyArmed = s.anyArmed := rfl
@[simp] theorem State.afterTurn_map (s : State) (q : Q88) :
    s.afterTurn.map q = s.map q := rfl

/-! ## prepare -/

@[simp] theorem State.prepare_params (s : State) :
    s.prepare.params = s.params := rfl
@[simp] theorem State.prepare_ctrl (s : State) :
    s.prepare.ctrl = s.ctrl := rfl
@[simp] theorem State.prepare_sched (s : State) :
    s.prepare.sched = ⟨true, false⟩ := rfl
@[simp] theorem State.prepare_ch (s : State) :
    s.prepare.ch = s.ch := rfl
@[simp] theorem State.prepare_lut (s : State) :
    s.prepare.lut = s.lut := rfl
@[simp] theorem State.prepare_ports (s : State) :
    s.prepare.ports = { s.ports with trace := s.ports.trace ++ [.tsreq (.schedule s.ctrl.tickPeriodMs)] } := rfl
@[simp] theorem State.prepare_chan (s : State) (k : Nat) :
    s.prepare.chan k = s.chan k := rfl
@[simp] theorem State.prepare_anyArmed (s : State) :
    s.prepare.anyArmed = s.anyArmed := rfl
@[simp] theorem State.prepare_map (s : State) (q : Q88) :
    s.prepare.map q = s.map q := rfl

end Sys2Proof.Machine
end

