-- ==== Sys2Proof/Laws/Arith.lean ====
section
/-! SUPPORT. What the arithmetic of Machine/Operands.lean computes, as numbers. -/
namespace Sys2Proof.Machine

@[simp] theorem toQ88_toNat (v : Byte) : (toQ88 v).toNat = v.toNat * 256 := by
  have := v.isLt
  simp only [toQ88, BitVec.toNat_ofNat]
  omega

theorem toQ88_le (v : Byte) : (toQ88 v).toNat ≤ 0xFF00 := by
  have := v.isLt
  simp only [toQ88_toNat]
  omega

theorem atLeastOneTick_toNat {n : Nat} (h : n < 2 ^ 32) : (atLeastOneTick n).toNat = max 1 n := by
  simp only [atLeastOneTick, BitVec.toNat_ofNat]
  omega

@[simp] theorem atLeastOneTick_of_ticks (n : Ticks) : (atLeastOneTick n.toNat).toNat = max 1 n.toNat :=
  atLeastOneTick_toNat n.isLt

/-- Truncation never passes the numerator: `b · tdiv(a, b)` lies between 0 and `a` (41_fade_engine.md R172). -/
theorem tdiv_mul_between (a : Int) {b : Int} (hb : 0 < b) :
    (0 ≤ a → 0 ≤ tdiv a b ∧ tdiv a b * b ≤ a) ∧ (a ≤ 0 → tdiv a b ≤ 0 ∧ a ≤ tdiv a b * b) := by
  have key : ∀ x : Int, 0 ≤ x → 0 ≤ x.tdiv b ∧ x.tdiv b * b ≤ x := fun x hx => by
    rw [Int.tdiv_eq_ediv_of_nonneg hx]
    exact ⟨Int.ediv_nonneg hx hb.le, Int.ediv_mul_le x hb.ne'⟩
  refine ⟨key a, fun ha => ?_⟩
  obtain ⟨h1, h2⟩ := key (-a) (by omega)
  rw [Int.neg_tdiv] at h1 h2
  have : -a.tdiv b * b = -(a.tdiv b * b) := by ring
  simp only [tdiv]
  omega

/-- A quotient is no larger than its numerator. -/
theorem tdiv_abs_le (a : Int) {b : Int} (hb : 0 < b) :
    (0 ≤ a → tdiv a b ≤ a) ∧ (a ≤ 0 → a ≤ tdiv a b) := by
  obtain ⟨h1, h2⟩ := tdiv_mul_between a hb
  refine ⟨fun h => ?_, fun h => ?_⟩
  · obtain ⟨h3, h4⟩ := h1 h; nlinarith
  · obtain ⟨h3, h4⟩ := h2 h; nlinarith

/-- The 17-bit step field holds every value in −65536..65535 (10_state.md R40). -/
theorem toStep_toInt {x : Int} (h1 : -65536 ≤ x) (h2 : x ≤ 65535) : (toStep x).toInt = x := by
  rw [toStep, BitVec.toInt_ofInt, Int.bmod_eq_of_le] <;> omega

/-- Saturation changes nothing inside the legal range (41_fade_engine.md R173). -/
theorem advance_toNat {cur : Q88} {step : FadeStep} (h1 : 0 ≤ (cur.toNat : Int) + step.toInt)
    (h2 : (cur.toNat : Int) + step.toInt ≤ 0xFF00) :
    ((advance cur step).toNat : Int) = cur.toNat + step.toInt := by
  have : sat 0 0xFF00 ((cur.toNat : Int) + step.toInt) = cur.toNat + step.toInt := by
    simp only [sat]; omega
  rw [advance, this, BitVec.toNat_ofInt]
  omega

/-- The brightness update always lands in the legal range of `cur` (10_state.md R38). -/
theorem advance_le (cur : Q88) (step : FadeStep) : (advance cur step).toNat ≤ 0xFF00 := by
  have h : 0 ≤ sat 0 0xFF00 ((cur.toNat : Int) + step.toInt) ∧
      sat 0 0xFF00 ((cur.toNat : Int) + step.toInt) ≤ 0xFF00 := by
    simp only [sat]; omega
  rw [advance, BitVec.toNat_ofInt]
  omega

theorem ticks_pred_toNat {n : Ticks} (h : 0 < n.toNat) : (n - 1#32).toNat = n.toNat - 1 := by
  have := n.isLt
  simp only [BitVec.toNat_sub, BitVec.toNat_ofNat]
  omega

theorem step_ne_zero_iff (x : FadeStep) : x ≠ 0#17 ↔ x.toInt ≠ 0 := by
  rw [not_iff_not]
  constructor
  · rintro rfl; rfl
  · intro h; exact BitVec.eq_of_toInt_eq (by simpa using h)

end Sys2Proof.Machine
end

