-- ==== Sys2Proof/Laws/Ops.lean ====
section
/-! SUPPORT. One lemma per shared operation that says all it can do. -/
namespace Sys2Proof.Machine

/-! ## The channel register file: read after write, and every other set is left alone -/

@[simp] theorem State.chan_setChan_same {s : State} {c : Nat} (r : ChannelRegs) (h : c < s.ch.length) :
    (s.setChan c r).chan c = r := by
  simp [State.chan, List.getD, h]

@[simp] theorem State.chan_setChan_other {s : State} {c d : Nat} (r : ChannelRegs) (h : c ≠ d) :
    (s.setChan c r).chan d = s.chan d := by
  simp [State.chan, List.getD, List.getElem?_set_ne h]

theorem State.chan_zeroChannels (s : State) (c : Nat) : s.zeroChannels.chan c = ChannelRegs.zero := by
  simp only [State.chan, List.getD, State.zeroChannels_ch, List.getElem?_replicate]
  split <;> rfl

theorem State.chan_resetWith (p : Params) (c : Nat) : (State.resetWith p).chan c = ChannelRegs.zero := by
  simp only [State.chan, List.getD, State.resetWith, List.getElem?_replicate]
  split <;> rfl

theorem State.anyArmed_eq_true_iff (s : State) :
    s.anyArmed = true ↔ ∃ c < s.ctrl.channelCount.toNat, (s.chan c).armed = true := by
  simp [State.anyArmed]

theorem ChannelRegs.armed_iff (r : ChannelRegs) :
    r.armed = true ↔ 0 < r.remainingTicks.toNat ∨ 0 < r.halfPeriodTicks.toNat := by
  simp [ChannelRegs.armed]

theorem ChannelRegs.zero_not_armed : ChannelRegs.zero.armed = false := rfl

/-! ## Validation -/

theorem State.accepts_iff (s : State) (c : ChannelId) :
    s.accepts c = true ↔ s.ctrl.initialized = true ∧ c.toNat < s.ctrl.channelCount.toNat := by
  simp [State.accepts]

/-! ## The scheduler -/

/-- EnsureRunning: nothing on a running scheduler, RUNNING and one TsStart on a stopped one. -/
theorem State.ensureRunning_cases (s : State) :
    (s.sched.running = true ∧ s.ensureRunning = s) ∨
    (s.sched.running = false ∧ s.ensureRunning = (s.setRunning true).tsRequest .start) := by
  cases h : s.sched.running <;> simp [State.ensureRunning, h]

/-- SelfStopCheck: nothing while a channel is armed, else RUNNING falls with one TsStop. -/
theorem State.selfStopCheck_cases (s : State) :
    (s.anyArmed = true ∧ s.selfStopCheck = s) ∨
    (s.anyArmed = false ∧ s.selfStopCheck = (s.setRunning false).tsRequest .stop) := by
  cases h : s.anyArmed <;> simp [State.selfStopCheck, h]

/-- Stop and release: TsStop first if the scheduler ran, then TsRelease. -/
theorem State.stopAndRelease_eq (s : State) :
    s.stopAndRelease =
      { s with
        sched := ⟨false, false⟩
        ports :=
          { s.ports with
            trace := s.ports.trace ++
              ((if s.sched.running then [.tsreq .stop] else []) ++ [.tsreq .release]) } } := by
  obtain ⟨p, c, ⟨pr, ru⟩, ch, l, po⟩ := s
  cases ru <;>
    simp [State.stopAndRelease, State.stopIfRunning, State.setRunning, State.tsRequest, State.emit]

/-- The gate of TICK: with the scheduler stopped nothing happens. -/
theorem execTick_cases (s : State) :
    (s.sched.running = true ∧ execTick s = .next s.acceptedTick) ∨
    (s.sched.running = false ∧ execTick s = .next s) := by
  cases h : s.sched.running <;> simp [execTick, h]

/-! ## Traffic -/

theorem sinkWrites_append (a b : List Event) : sinkWrites (a ++ b) = sinkWrites a ++ sinkWrites b := by
  simp [sinkWrites]

theorem tsRequests_append (a b : List Event) : tsRequests (a ++ b) = tsRequests a ++ tsRequests b := by
  simp [tsRequests]

theorem responses_append (a b : List Event) : responses (a ++ b) = responses a ++ responses b := by
  simp [responses]

theorem rspWords_append (a b : List Event) : rspWords (a ++ b) = rspWords a ++ rspWords b := by
  simp [rspWords]

theorem trspWords_append (a b : List Event) : trspWords (a ++ b) = trspWords a ++ trspWords b := by
  simp [trspWords]

theorem wireBytes_append (a b : List Word) : wireBytes (a ++ b) = wireBytes a ++ wireBytes b := by
  simp [wireBytes]

theorem timeSourceMode_append (a b : List Event) :
    timeSourceMode (a ++ b) = (tsRequests b).foldl timeSourceAfter (timeSourceMode a) := by
  simp [timeSourceMode, tsRequests_append]

/-- The first answer to come, and the ones after it. -/
theorem State.answerAt_zero (s : State) : s.answerAt 0 = s.sinkAnswer := by
  cases h : s.ports.sinkAnswers <;> simp [State.answerAt, State.sinkAnswer, h]

theorem State.answerAt_sinkApply (s : State) (c : ChannelId) (d k : Nat) :
    (s.sinkApply c d).answerAt k = s.answerAt (k + 1) := by
  cases h : s.ports.sinkAnswers with
  | nil => simp [State.answerAt, h, Nat.add_comm, Nat.add_left_comm]
  | cons a as => simp [State.answerAt, h, Nat.add_comm, Nat.add_left_comm]

end Sys2Proof.Machine
end

