-- ==== Sys2Proof/Laws/Channel.lean ====
section
/-! SUPPORT. The fade engine's operations as numbers, and that each keeps the channel invariant. -/
namespace Sys2Proof.Machine

/-- The three branches of TickChannel, and when each is taken (41_fade_engine.md R178). -/
theorem ChannelRegs.tick_cases (r : ChannelRegs) :
    (0 < r.remainingTicks.toNat ∧ r.tick = r.countDown) ∨
    (r.remainingTicks.toNat = 0 ∧ 0 < r.halfPeriodTicks.toNat ∧ r.tick = r.reverse) ∨
    (r.armed = false ∧ r.tick = r) := by
  simp only [ChannelRegs.tick, ChannelRegs.armed]
  rcases Nat.eq_zero_or_pos r.remainingTicks.toNat with h | h <;>
    rcases Nat.eq_zero_or_pos r.halfPeriodTicks.toNat with h' | h' <;> simp [h, h']

/-- TickChannel returns a duty exactly on an armed channel, and always leaves `tick` in the register set. -/
theorem State.tickChannel_eq (s : State) (c : Nat) :
    s.tickChannel c =
      if (s.chan c).armed then (s.setChan c (s.chan c).tick, some (s.map (s.chan c).tick.cur)) else (s, none) := by
  rcases (s.chan c).tick_cases with ⟨h, e⟩ | ⟨h, h', e⟩ | ⟨h, e⟩
  · simp [State.tickChannel, ChannelRegs.armed, h, e]
  · simp [State.tickChannel, ChannelRegs.armed, h, h', e]
  · have : ¬(0 < (s.chan c).remainingTicks.toNat) ∧ ¬(0 < (s.chan c).halfPeriodTicks.toNat) := by
      simpa [ChannelRegs.armed] using h
    simp [State.tickChannel, this, h]

theorem ChannelRegs.tick_of_not_armed {r : ChannelRegs} (h : r.armed = false) : r.tick = r := by
  have : ¬(0 < r.remainingTicks.toNat) ∧ ¬(0 < r.halfPeriodTicks.toNat) := by
    simpa [ChannelRegs.armed] using h
  simp [ChannelRegs.tick, this]

@[simp] theorem ChannelRegs.zero_tick : ChannelRegs.zero.tick = ChannelRegs.zero := rfl

/-- A loop stays a loop: no TICK writes `halfPeriodTicks` (10_state.md R42), nor `target` (R39). -/
theorem ChannelRegs.tick_half_target (r : ChannelRegs) :
    r.tick.halfPeriodTicks = r.halfPeriodTicks ∧ r.tick.target = r.target := by
  rcases r.tick_cases with ⟨_, e⟩ | ⟨_, _, e⟩ | ⟨_, e⟩ <;> rw [e] <;>
    simp only [ChannelRegs.countDown, ChannelRegs.reverse] <;> (try split) <;> simp

/-- A channel that is not armed does not become so by a TICK. -/
theorem ChannelRegs.armed_of_tick_armed {r : ChannelRegs} (h : r.tick.armed = true) : r.armed = true := by
  by_contra hn
  rw [Bool.not_eq_true] at hn
  rw [ChannelRegs.tick_of_not_armed hn, hn] at h
  cases h

/-! ## The channel invariant -/

theorem ChannelRegs.zero_inv : ChannelRegs.zero.Inv := by decide

theorem ChannelRegs.inv_of_idle {r : ChannelRegs} (h : r.InRange) (hr : r.remainingTicks = 0#32)
    (hh : r.halfPeriodTicks = 0#32) : r.Inv := by
  refine ⟨h, fun _ h' => ?_, fun h' => ?_⟩ <;> simp [hr, hh] at h'

theorem ChannelRegs.setImmediate_inv {r : ChannelRegs} (v : Byte) (h : r.Inv) : (r.setImmediate v).Inv := by
  have hv := toQ88_le v
  refine inv_of_idle ⟨hv, hv, ?_, h.1.2.2.2⟩ rfl rfl
  simp [ChannelRegs.setImmediate]

theorem ChannelRegs.stopLoop_inv {r : ChannelRegs} (h : r.Inv) : r.stopLoop.Inv := by
  obtain ⟨⟨h1, h2, h3, _⟩, _⟩ := h
  exact inv_of_idle ⟨h1, h2, h3, by simp [stopLoop], by simp [stopLoop]⟩ rfl rfl

theorem ChannelRegs.setFade_inv {r : ChannelRegs} (v : Byte) (n : Ticks) (h : r.Inv) : (r.setFade v n).Inv := by
  have hv := toQ88_le v
  have hc := h.1.1
  have hn : 0 < ((atLeastOneTick n.toNat).toNat : Int) := by simp
  obtain ⟨up, down⟩ := tdiv_mul_between ((toQ88 v).toNat - r.cur.toNat : Int) hn
  obtain ⟨up', down'⟩ := tdiv_abs_le ((toQ88 v).toNat - r.cur.toNat : Int) hn
  have hs : (toStep (tdiv ((toQ88 v).toNat - r.cur.toNat) (atLeastOneTick n.toNat).toNat)).toInt =
      tdiv ((toQ88 v).toNat - r.cur.toNat) (atLeastOneTick n.toNat).toNat := by
    apply toStep_toInt <;> omega
  refine ⟨⟨hc, hv, by simp [ChannelRegs.setFade], ?_, ?_⟩, fun _ _ => ?_, fun h' => ?_⟩
  · simp only [ChannelRegs.setFade, hs]; omega
  · simp only [ChannelRegs.setFade, hs]; omega
  · simp only [ChannelRegs.setFade, hs]
    rcases le_total 0 ((toQ88 v).toNat - r.cur.toNat : Int) with hd | hd
    · obtain ⟨a, b⟩ := up hd
      exact .inl ⟨mul_nonneg a hn.le, b⟩
    · obtain ⟨a, b⟩ := down hd
      exact .inr ⟨mul_nonpos_of_nonpos_of_nonneg a hn.le, b⟩
  · simp [ChannelRegs.setFade] at h'

theorem ChannelRegs.startLoop_inv {r : ChannelRegs} (v : Byte) (n : Ticks) (smooth : Bool) :
    (r.startLoop v n smooth).Inv := by
  have hv := toQ88_le v
  have hn : 0 < ((atLeastOneTick n.toNat).toNat : Int) := by simp
  obtain ⟨-, down⟩ := tdiv_mul_between (-((toQ88 v).toNat : Int)) hn
  obtain ⟨-, down'⟩ := tdiv_abs_le (-((toQ88 v).toNat : Int)) hn
  have d := down (by omega)
  have d' := down' (by omega)
  cases smooth with
  | false =>
    refine ⟨⟨hv, hv, by simp [ChannelRegs.startLoop],
      by simp [ChannelRegs.startLoop], by simp [ChannelRegs.startLoop]⟩, fun h _ => ?_, fun _ => ?_⟩
    · simp only [ChannelRegs.startLoop] at h
      rw [h] at hn; simp at hn
    · refine ⟨by simp [ChannelRegs.startLoop], fun h => ?_, fun h => ?_, fun _ => .inr rfl⟩
      · simp [ChannelRegs.startLoop] at h
      · simp [ChannelRegs.startLoop] at h
  | true =>
    have hs : (toStep (tdiv (-((toQ88 v).toNat : Int)) (atLeastOneTick n.toNat).toNat)).toInt =
        tdiv (-((toQ88 v).toNat : Int)) (atLeastOneTick n.toNat).toNat := by
      apply toStep_toInt <;> omega
    refine ⟨⟨hv, hv, by simp [ChannelRegs.startLoop], ?_, ?_⟩, fun h _ => ?_, fun _ => ?_⟩
    · simp only [ChannelRegs.startLoop, if_true, hs]; omega
    · simp only [ChannelRegs.startLoop, if_true, hs]; omega
    · simp only [ChannelRegs.startLoop] at h
      rw [h] at hn; simp at hn
    · refine ⟨by simp [ChannelRegs.startLoop], fun _ => ⟨?_, ?_⟩, fun h => ?_, fun _ => .inr rfl⟩
      · simp [ChannelRegs.startLoop]
      · simp only [ChannelRegs.startLoop, if_true, hs]; omega
      · simp only [ChannelRegs.startLoop, if_true, hs] at h; omega

/-- Branch 1 moves by exactly `step` (41_fade_engine.md R173: the saturation never changes the value). -/
theorem ChannelRegs.countDown_no_saturation {r : ChannelRegs} (h : r.Inv) (hr : 0 < r.remainingTicks.toNat) :
    0 ≤ (r.cur.toNat : Int) + r.step.toInt ∧ (r.cur.toNat : Int) + r.step.toInt ≤ 0xFF00 := by
  obtain ⟨⟨h1, h2, -, -, -⟩, hf, hl⟩ := h
  rcases Nat.eq_zero_or_pos r.halfPeriodTicks.toNat with hz | hp
  · have := hf (BitVec.eq_of_toNat_eq (by simpa using hz)) hr
    rcases this with ⟨a, b⟩ | ⟨a, b⟩
    · have : 0 ≤ r.step.toInt := by
        by_contra hn; push Not at hn; nlinarith
      have : r.step.toInt ≤ r.step.toInt * r.remainingTicks.toNat := by nlinarith
      omega
    · have : r.step.toInt ≤ 0 := by
        by_contra hn; push Not at hn; nlinarith
      have : r.step.toInt * r.remainingTicks.toNat ≤ r.step.toInt := by nlinarith
      omega
  · obtain ⟨hle, hneg, hpos, -⟩ := hl hp
    rcases lt_trichotomy r.step.toInt 0 with hs | hs | hs
    · obtain ⟨a, b⟩ := hneg hs
      have : r.step.toInt * (r.remainingTicks.toNat : Int) ≤ r.step.toInt := by nlinarith
      constructor <;> nlinarith
    · omega
    · obtain ⟨a, b⟩ := hpos hs
      have h3 : r.step.toInt ≤ r.step.toInt * (r.remainingTicks.toNat : Int) := by nlinarith
      constructor <;> nlinarith

/-- Branch 2 moves by exactly `−step`. -/
theorem ChannelRegs.reverse_no_saturation {r : ChannelRegs} (h : r.Inv) (hr : r.remainingTicks.toNat = 0)
    (hp : 0 < r.halfPeriodTicks.toNat) :
    0 ≤ (r.cur.toNat : Int) - r.step.toInt ∧ (r.cur.toNat : Int) - r.step.toInt ≤ 0xFF00 := by
  obtain ⟨⟨h1, h2, -, -, -⟩, -, hl⟩ := h
  obtain ⟨hle, hneg, hpos, -⟩ := hl hp
  have h1' : (1 : Int) ≤ r.halfPeriodTicks.toNat := by omega
  rcases lt_trichotomy r.step.toInt 0 with hs | hs | hs
  · obtain ⟨a, b⟩ := hneg hs
    have : r.step.toInt * (r.halfPeriodTicks.toNat : Int) ≤ r.step.toInt := by nlinarith
    simp only [hr, Nat.cast_zero, sub_zero] at a
    omega
  · omega
  · obtain ⟨a, b⟩ := hpos hs
    have : r.step.toInt ≤ r.step.toInt * (r.halfPeriodTicks.toNat : Int) := by nlinarith
    simp only [hr, Nat.cast_zero, mul_zero, sub_zero] at a
    omega

/-- Where branch 1 leaves `cur`, when it does not snap. -/
theorem ChannelRegs.countDown_cur {r : ChannelRegs} (h : r.Inv) (hr : 0 < r.remainingTicks.toNat)
    (hn : ¬(r.remainingTicks - 1#32 = 0#32 ∧ r.halfPeriodTicks = 0#32)) :
    (r.countDown.cur.toNat : Int) = r.cur.toNat + r.step.toInt := by
  obtain ⟨a, b⟩ := ChannelRegs.countDown_no_saturation h hr
  simp only [ChannelRegs.countDown, if_neg hn]
  split
  · exact advance_toNat a b
  · rename_i hs
    have : r.step.toInt = 0 := by
      by_contra h0; exact hs ((step_ne_zero_iff _).mpr h0)
    omega

theorem ChannelRegs.countDown_inv {r : ChannelRegs} (h : r.Inv) (hr : 0 < r.remainingTicks.toNat) :
    r.countDown.Inv := by
  have hp := ticks_pred_toNat hr
  by_cases hsnap : r.remainingTicks - 1#32 = 0#32 ∧ r.halfPeriodTicks = 0#32
  · refine inv_of_idle ⟨?_, h.1.2.1, h.1.2.2.1, h.1.2.2.2⟩ hsnap.1 hsnap.2
    simp only [ChannelRegs.countDown, if_pos hsnap]
    exact h.1.2.1
  · have hc := ChannelRegs.countDown_cur h hr hsnap
    obtain ⟨a, b⟩ := ChannelRegs.countDown_no_saturation h hr
    obtain ⟨⟨h1, h2, h3, h4, h5⟩, hf, hl⟩ := h
    have hrem : (r.countDown.remainingTicks.toNat : Int) = r.remainingTicks.toNat - 1 := by
      simp only [ChannelRegs.countDown, hp]; omega
    refine ⟨⟨by omega, h2, h3, h4, h5⟩, fun hz hr' => ?_, fun hh => ?_⟩
    · have ht : r.countDown.target = r.target := rfl
      have hst : r.countDown.step = r.step := rfl
      rw [hrem, hc, ht, hst]
      have hr1 : (1 : Int) ≤ (r.remainingTicks.toNat : Int) - 1 := by
        simp only [ChannelRegs.countDown, hp] at hr'; omega
      rcases hf hz hr with ⟨x, y⟩ | ⟨x, y⟩
      · have : 0 ≤ r.step.toInt := by
          by_contra hn; push Not at hn; nlinarith
        exact .inl ⟨by positivity, by nlinarith⟩
      · have : r.step.toInt ≤ 0 := by
          by_contra hn; push Not at hn; nlinarith
        exact .inr ⟨by nlinarith, by nlinarith⟩
    · have ht : r.countDown.target = r.target := rfl
      have hst : r.countDown.step = r.step := rfl
      have hhalf : r.countDown.halfPeriodTicks = r.halfPeriodTicks := rfl
      rw [hhalf] at hh
      obtain ⟨hle, hneg, hpos, hzero⟩ := hl hh
      refine ⟨by rw [hhalf]; omega, fun hs => ?_, fun hs => ?_, fun hs => ?_⟩
      · obtain ⟨x, y⟩ := hneg hs
        rw [hrem, hc, ht, hst, hhalf, x]
        exact ⟨by ring, y⟩
      · obtain ⟨x, y⟩ := hpos hs
        rw [hrem, hc, ht, hst, x]
        exact ⟨by ring, y⟩
      · have h0 : r.step.toInt = 0 := by
          rw [hst] at hs; rw [hs]; rfl
        have he : r.countDown.cur = r.cur := BitVec.eq_of_toNat_eq (by omega)
        rw [he, ht]
        exact hzero hs

theorem ChannelRegs.reverse_inv {r : ChannelRegs} (h : r.Inv) (hr : r.remainingTicks.toNat = 0)
    (hp : 0 < r.halfPeriodTicks.toNat) : r.reverse.Inv := by
  have hpred := ticks_pred_toNat hp
  obtain ⟨a, b⟩ := ChannelRegs.reverse_no_saturation h hr hp
  have hne : r.halfPeriodTicks ≠ 0#32 := by
    rintro he; rw [he] at hp; simp at hp
  obtain ⟨⟨h1, h2, h3, h4, h5⟩, hf, hl⟩ := h
  obtain ⟨-, hneg, hpos, hzero⟩ := hl hp
  by_cases hs : r.step = 0#17
  · have hcur : r.reverse.cur = 0#16 ∨ r.reverse.cur = r.target := by
      simp only [ChannelRegs.reverse, hs, ne_eq, not_true_eq_false, if_false]
      split <;> simp
    have hstep : r.reverse.step = 0#17 := by simp [ChannelRegs.reverse, hs]
    have ht : r.reverse.target = r.target := by simp [ChannelRegs.reverse, hs]
    have hhalf : r.reverse.halfPeriodTicks = r.halfPeriodTicks := by simp [ChannelRegs.reverse, hs]
    have hrem : r.reverse.remainingTicks = r.halfPeriodTicks - 1#32 := by simp [ChannelRegs.reverse, hs]
    refine ⟨⟨?_, ht ▸ h2, ht ▸ h3, by simp [hstep], by simp [hstep]⟩, fun hz _ => absurd (hhalf ▸ hz) hne,
      fun _ => ⟨?_, ?_, ?_, fun _ => ht ▸ hcur⟩⟩
    · rcases hcur with e | e <;> rw [e] <;> simp_all
    · rw [hrem, hhalf, hpred]; omega
    · simp [hstep]
    · simp [hstep]
  · have hi : (toStep (-r.step.toInt)).toInt = -r.step.toInt := toStep_toInt (by omega) (by omega)
    have hcur : (r.reverse.cur.toNat : Int) = r.cur.toNat - r.step.toInt := by
      simp only [ChannelRegs.reverse, ne_eq, hs, not_false_eq_true, if_true]
      rw [advance_toNat] <;> rw [hi] <;> omega
    have hstep : r.reverse.step.toInt = -r.step.toInt := by simp [ChannelRegs.reverse, hs, hi]
    have ht : r.reverse.target = r.target := by simp [ChannelRegs.reverse, hs]
    have hhalf : r.reverse.halfPeriodTicks = r.halfPeriodTicks := by simp [ChannelRegs.reverse, hs]
    have hrem : (r.reverse.remainingTicks.toNat : Int) = r.halfPeriodTicks.toNat - 1 := by
      have : r.reverse.remainingTicks = r.halfPeriodTicks - 1#32 := by simp [ChannelRegs.reverse, hs]
      rw [this, hpred]; omega
    refine ⟨⟨by omega, ht ▸ h2, ht ▸ h3, by omega, by omega⟩, fun hz _ => absurd (hhalf ▸ hz) hne,
      fun _ => ⟨by rw [hhalf]; omega, fun hn => ?_, fun hn => ?_, fun h0 => ?_⟩⟩
    · obtain ⟨x, y⟩ := hpos (by omega)
      rw [hr] at x
      rw [hstep, hcur, ht, hhalf, hrem, x]
      exact ⟨by push_cast; ring, by linarith⟩
    · obtain ⟨x, y⟩ := hneg (by omega)
      rw [hr] at x
      rw [hstep, hcur, ht, hhalf, hrem, x]
      exact ⟨by push_cast; ring, by linarith⟩
    · exact absurd ((step_ne_zero_iff _).mp hs) (by rw [h0] at hstep; simp at hstep; omega)

/-- TickChannel keeps the channel invariant. -/
theorem ChannelRegs.tick_inv {r : ChannelRegs} (h : r.Inv) : r.tick.Inv := by
  rcases r.tick_cases with ⟨hr, e⟩ | ⟨hr, hp, e⟩ | ⟨-, e⟩ <;> rw [e]
  · exact ChannelRegs.countDown_inv h hr
  · exact ChannelRegs.reverse_inv h hr hp
  · exact h

end Sys2Proof.Machine
end

