-- ==== Sys2Proof/Laws/Decode.lean ====
section
/-! SUPPORT. The fields of an encoded word are the operands it was encoded from; the payload is read back whole. -/
namespace Sys2Proof

/-! ## Fields -/

theorem fieldOPC_init (p : Millis) (n : BitVec 16) : fieldOPC (encodeWord (.init p n)) = 0x01#8 := by
  apply BitVec.eq_of_getLsbD_eq
  intro i hi
  simp only [fieldOPC, encodeWord, place]
  interval_cases i <;> simp

theorem fieldARG_init (p : Millis) (n : BitVec 16) : fieldARG (encodeWord (.init p n)) = p := by
  apply BitVec.eq_of_getLsbD_eq
  intro i hi
  simp only [fieldARG, encodeWord, place]
  interval_cases i <;> simp

theorem fieldCNT_init (p : Millis) (n : BitVec 16) : fieldCNT (encodeWord (.init p n)) = n := by
  apply BitVec.eq_of_getLsbD_eq
  intro i hi
  simp only [fieldCNT, encodeWord, place]
  interval_cases i <;> simp

theorem fields_setChannel (c : ChannelId) (v : Byte) (ms : Millis) :
    fieldOPC (encodeWord (.setChannel c v ms)) = 0x03#8 ∧ fieldCH (encodeWord (.setChannel c v ms)) = c ∧
      fieldVAL (encodeWord (.setChannel c v ms)) = v ∧ fieldARG (encodeWord (.setChannel c v ms)) = ms := by
  refine ⟨?_, ?_, ?_, ?_⟩ <;>
  · apply BitVec.eq_of_getLsbD_eq
    intro i hi
    simp only [fieldOPC, fieldCH, fieldVAL, fieldARG, encodeWord, place]
    interval_cases i <;> simp

theorem fields_startBlink (c : ChannelId) (v : Byte) (ms : Millis) (sm : Bool) :
    fieldOPC (encodeWord (.startBlink c v ms sm)) = 0x04#8 ∧ fieldCH (encodeWord (.startBlink c v ms sm)) = c ∧
      fieldVAL (encodeWord (.startBlink c v ms sm)) = v ∧ fieldARG (encodeWord (.startBlink c v ms sm)) = ms := by
  refine ⟨?_, ?_, ?_, ?_⟩ <;>
  · apply BitVec.eq_of_getLsbD_eq
    intro i hi
    simp only [fieldOPC, fieldCH, fieldVAL, fieldARG, encodeWord, place]
    interval_cases i <;> simp

theorem fieldSM_startBlink (c : ChannelId) (v : Byte) (ms : Millis) (sm : Bool) :
    fieldSM (encodeWord (.startBlink c v ms sm)) = sm := by
  have : (encodeWord (.startBlink c v ms sm)).extractLsb' 32 1 = BitVec.ofBool sm := by
    apply BitVec.eq_of_getLsbD_eq
    intro i hi
    simp only [encodeWord, place]
    interval_cases i
    simp
  rw [fieldSM, this]
  cases sm <;> rfl

theorem fields_stopBlink (c : ChannelId) :
    fieldOPC (encodeWord (.stopBlink c)) = 0x05#8 ∧ fieldCH (encodeWord (.stopBlink c)) = c := by
  refine ⟨?_, ?_⟩ <;>
  · apply BitVec.eq_of_getLsbD_eq
    intro i hi
    simp only [fieldOPC, fieldCH, encodeWord, place]
    interval_cases i <;> simp

theorem fields_getChannel (c : ChannelId) :
    fieldOPC (encodeWord (.getChannel c)) = 0x06#8 ∧ fieldCH (encodeWord (.getChannel c)) = c := by
  refine ⟨?_, ?_⟩ <;>
  · apply BitVec.eq_of_getLsbD_eq
    intro i hi
    simp only [fieldOPC, fieldCH, encodeWord, place]
    interval_cases i <;> simp

theorem fields_setGammaTable (n : BitVec 9) (es : List Entry) :
    fieldOPC (encodeWord (.setGammaTable n es)) = 0x07#8 ∧ fieldLEN (encodeWord (.setGammaTable n es)) = n := by
  refine ⟨?_, ?_⟩ <;>
  · apply BitVec.eq_of_getLsbD_eq
    intro i hi
    simp only [fieldOPC, fieldLEN, encodeWord, place]
    interval_cases i <;> simp

/-! ## Rows -/

/-- A word that holds a row has the row's opcode: every mask covers bits 63:56. -/
theorem OpcodeRow.fieldOPC_of_holds {r : OpcodeRow} {w : Word} (hr : r ∈ opcodeRows) (h : r.holds w = true) :
    fieldOPC w = fieldOPC r.pattern := by
  have masks : ∀ q ∈ opcodeRows, fieldOPC q.mask = 0xFF#8 := by decide
  have hm := masks r hr
  have he : w &&& r.mask = r.pattern := by simpa [OpcodeRow.holds] using h
  have : fieldOPC (w &&& r.mask) = fieldOPC w &&& fieldOPC r.mask := by
    apply BitVec.eq_of_getLsbD_eq
    intro i hi
    simp [fieldOPC, hi]
  rw [← he, this, hm]
  apply BitVec.eq_of_getLsbD_eq
  intro i hi
  interval_cases i <;> simp

/-! ## Payload -/

/-- A whole payload is read back, and what follows it is left. -/
theorem takeEntries_map (es : List Entry) (rest : List CmdItem) :
    takeEntries es.length (es.map .entry ++ rest) = .complete es rest := by
  induction es with
  | nil => rfl
  | cons e es ih => simp [takeEntries, ih]

/-- A payload that has not all arrived is pending. -/
theorem takeEntries_pending {n : Nat} {es : List Entry} (h : es.length < n) :
    takeEntries n (es.map .entry) = .pending := by
  induction es generalizing n with
  | nil => obtain ⟨m, rfl⟩ : ∃ m, n = m + 1 := ⟨n - 1, by simp at h; omega⟩; rfl
  | cons e es ih =>
    obtain ⟨m, rfl⟩ : ∃ m, n = m + 1 := ⟨n - 1, by simp at h; omega⟩
    simp [takeEntries, ih (n := m) (by simpa using h)]

/-- A word among a payload's entries shows two interleaved transactions. -/
theorem takeEntries_interleaved {n : Nat} {es : List Entry} (h : es.length < n) (w : Word) (rest : List CmdItem) :
    takeEntries n (es.map .entry ++ .word w :: rest) = .interleaved := by
  induction es generalizing n with
  | nil => obtain ⟨m, rfl⟩ : ∃ m, n = m + 1 := ⟨n - 1, by simp at h; omega⟩; rfl
  | cons e es ih =>
    obtain ⟨m, rfl⟩ : ∃ m, n = m + 1 := ⟨n - 1, by simp at h; omega⟩
    simp [takeEntries, ih (n := m) (by simpa using h)]

/-- All that reading a payload can do, when it succeeds. -/
theorem takeEntries_complete {n : Nat} {items rest : List CmdItem} {es : List Entry}
    (h : takeEntries n items = .complete es rest) : es.length = n ∧ items = es.map .entry ++ rest := by
  induction n generalizing items es with
  | zero => simp [takeEntries] at h; simp [h]
  | succ n ih =>
    match items, h with
    | .entry e :: items, h =>
      simp only [takeEntries] at h
      split at h
      · rename_i es' rest' he
        cases h
        obtain ⟨a, b⟩ := ih he
        simp [a, b]
      · cases h
      · cases h

end Sys2Proof
end

