-- ==== Sys2Proof/Laws/PerInstr.lean ====
section
/-! SUPPORT. A statement about every instruction as syntax, proved one constructor at a time. -/
namespace Sys2Proof

/-- The row an instruction belongs to (30_encoding.md R107). -/
def Instr.mnemonic : Instr → Mnemonic
  | .init _ _ => .init
  | .deinit => .deinit
  | .setChannel _ _ _ => .setChannel
  | .startBlink _ _ _ _ => .startBlink
  | .stopBlink _ => .stopBlink
  | .getChannel _ => .getChannel
  | .setGammaTable _ _ => .setGammaTable
  | .tick => .tick

/-- The instruction's encoded word matches a row of its own port, and the first row it matches is its own. -/
def Laws.OwnRow.Statement (i : Instr) : Prop :=
  (rowFor i.port (encodeWord i)).map (·.mnemonic) = some i.mnemonic

/-- `find?` lands on a row when the row holds and no earlier row of the port has the word's opcode. -/
theorem rowFor_eq_some {p : Port} {w : Word} {pre post : List OpcodeRow} {r : OpcodeRow}
    (hrows : opcodeRows = pre ++ r :: post) (hp : r.port = p) (hr : r.holds w = true)
    (hpre : ∀ q ∈ pre, fieldOPC q.pattern ≠ fieldOPC w) : rowFor p w = some r := by
  rw [rowFor, List.find?_eq_some_iff_append]
  refine ⟨by simp [hp, hr], pre, post, hrows, fun q hq => ?_⟩
  by_contra hn
  have : q.holds w = true := by
    simp only [Bool.not_eq_true, Bool.not_eq_false'] at hn
    simp at hn
    exact hn.2
  have hmem : q ∈ opcodeRows := by rw [hrows]; simp [hq]
  exact hpre q hq (OpcodeRow.fieldOPC_of_holds hmem this).symm

theorem Laws.OwnRow.init (p : Millis) (n : BitVec 16) : Laws.OwnRow.Statement (.init p n) := by
  have : rowFor .cmd (encodeWord (.init p n)) =
      some ⟨.init, .cmd, 0x0100000000000000#64, 0xFF0000FF00000000#64⟩ := by
    apply rowFor_eq_some (pre := []) rfl rfl _ (by simp)
    simp only [OpcodeRow.holds, beq_iff_eq]
    apply BitVec.eq_of_getLsbD_eq
    intro i hi
    simp only [encodeWord, place]
    interval_cases i <;> simp
  simp [Laws.OwnRow.Statement, Instr.port, this, Instr.mnemonic]

theorem Laws.OwnRow.deinit : Laws.OwnRow.Statement .deinit := by
  unfold Laws.OwnRow.Statement
  decide

theorem Laws.OwnRow.setChannel (c : ChannelId) (v : Byte) (ms : Millis) :
    Laws.OwnRow.Statement (.setChannel c v ms) := by
  have : rowFor .cmd (encodeWord (.setChannel c v ms)) =
      some ⟨.setChannel, .cmd, 0x0300000000000000#64, 0xFF0000FF00000000#64⟩ := by
    apply rowFor_eq_some (pre := opcodeRows.take 2) rfl rfl
    · simp only [OpcodeRow.holds, beq_iff_eq]
      apply BitVec.eq_of_getLsbD_eq
      intro i hi
      simp only [encodeWord, place]
      interval_cases i <;> simp
    · rw [(fields_setChannel c v ms).1]
      decide
  simp [Laws.OwnRow.Statement, Instr.port, this, Instr.mnemonic]

theorem Laws.OwnRow.startBlink (c : ChannelId) (v : Byte) (ms : Millis) (sm : Bool) :
    Laws.OwnRow.Statement (.startBlink c v ms sm) := by
  have : rowFor .cmd (encodeWord (.startBlink c v ms sm)) =
      some ⟨.startBlink, .cmd, 0x0400000000000000#64, 0xFF0000FE00000000#64⟩ := by
    apply rowFor_eq_some (pre := opcodeRows.take 3) rfl rfl
    · simp only [OpcodeRow.holds, beq_iff_eq]
      apply BitVec.eq_of_getLsbD_eq
      intro i hi
      simp only [encodeWord, place]
      interval_cases i <;> simp
    · rw [(fields_startBlink c v ms sm).1]
      decide
  simp [Laws.OwnRow.Statement, Instr.port, this, Instr.mnemonic]

theorem Laws.OwnRow.stopBlink (c : ChannelId) : Laws.OwnRow.Statement (.stopBlink c) := by
  have : rowFor .cmd (encodeWord (.stopBlink c)) =
      some ⟨.stopBlink, .cmd, 0x0500000000000000#64, 0xFF00FFFFFFFFFFFF#64⟩ := by
    apply rowFor_eq_some (pre := opcodeRows.take 4) rfl rfl
    · simp only [OpcodeRow.holds, beq_iff_eq]
      apply BitVec.eq_of_getLsbD_eq
      intro i hi
      simp only [encodeWord, place]
      interval_cases i <;> simp
    · rw [(fields_stopBlink c).1]
      decide
  simp [Laws.OwnRow.Statement, Instr.port, this, Instr.mnemonic]

theorem Laws.OwnRow.getChannel (c : ChannelId) : Laws.OwnRow.Statement (.getChannel c) := by
  have : rowFor .cmd (encodeWord (.getChannel c)) =
      some ⟨.getChannel, .cmd, 0x0600000000000000#64, 0xFF00FFFFFFFFFFFF#64⟩ := by
    apply rowFor_eq_some (pre := opcodeRows.take 5) rfl rfl
    · simp only [OpcodeRow.holds, beq_iff_eq]
      apply BitVec.eq_of_getLsbD_eq
      intro i hi
      simp only [encodeWord, place]
      interval_cases i <;> simp
    · rw [(fields_getChannel c).1]
      decide
  simp [Laws.OwnRow.Statement, Instr.port, this, Instr.mnemonic]

theorem Laws.OwnRow.setGammaTable (n : BitVec 9) (es : List Entry) :
    Laws.OwnRow.Statement (.setGammaTable n es) := by
  have : rowFor .cmd (encodeWord (.setGammaTable n es)) =
      some ⟨.setGammaTable, .cmd, 0x0700000000000000#64, 0xFFFFFE00FFFFFFFF#64⟩ := by
    apply rowFor_eq_some (pre := opcodeRows.take 6) rfl rfl
    · simp only [OpcodeRow.holds, beq_iff_eq]
      apply BitVec.eq_of_getLsbD_eq
      intro i hi
      simp only [encodeWord, place]
      interval_cases i <;> simp
    · rw [(fields_setGammaTable n es).1]
      decide
  simp [Laws.OwnRow.Statement, Instr.port, this, Instr.mnemonic]

theorem Laws.OwnRow.tick : Laws.OwnRow.Statement .tick := by
  unfold Laws.OwnRow.Statement
  decide

end Sys2Proof
end

