-- ==== Sys2Proof/Laws/Run.lean ====
section
/-! SUPPORT. What a move of a run can do: the outside world's moves, and the step that accepts a TICK. -/
namespace Sys2Proof.Machine

/-- The outside world reaches no state of the core, and takes back nothing that was put out (00_scope.md R9). -/
theorem State.Offers.sameCore {s t : State} (h : State.Offers s t) :
    s.SameCore t ∧ t.ports.trace = s.ports.trace := by
  cases h <;> exact ⟨⟨rfl, rfl, rfl, rfl, rfl⟩, rfl⟩

/-- It only adds to what is offered and settled. -/
theorem State.Offers.adds {s t : State} (h : State.Offers s t) :
    s.ports.cmdIn <+: t.ports.cmdIn ∧ s.ports.tickIn <+: t.ports.tickIn ∧
    s.ports.turns <+: t.ports.turns ∧ s.ports.sinkAnswers <+: t.ports.sinkAnswers := by
  cases h <;> simp

/-- What a step makes of the ports before it acts: stale words are dropped while the scheduler is stopped, a choice is
used up if both ports offer (42_tick_scheduler.md R213, 20_memory.md R79). -/
theorem State.chosen_cases (s : State) :
    (s.sched.running = false ∧ s.chosen = s.withTickIn []) ∨
    (s.sched.running = true ∧ (s.cmdOffered && s.tickOffered) = true ∧ s.chosen = s.afterTurn) ∨
    (s.sched.running = true ∧ (s.cmdOffered && s.tickOffered) = false ∧ s.chosen = s) := by
  cases h : s.sched.running
  · have ht : s.tickOffered = false := by simp [State.tickOffered, h]
    exact .inl ⟨rfl, by simp [State.chosen, ht, State.dropStale_of_stopped h]⟩
  · cases hb : s.cmdOffered && s.tickOffered
    · exact .inr (.inr ⟨rfl, rfl, by simp [State.chosen, hb, State.dropStale_of_running h]⟩)
    · exact .inr (.inl ⟨rfl, rfl, by simp only [State.chosen, hb, if_true, State.dropStale_of_running h]⟩)

theorem State.chosen_sameCore (s : State) : s.SameCore s.chosen := by
  rcases s.chosen_cases with ⟨-, e⟩ | ⟨-, -, e⟩ | ⟨-, -, e⟩ <;> rw [e] <;> exact ⟨rfl, rfl, rfl, rfl, rfl⟩

theorem State.chosen_tickIn {s : State} (h : s.sched.running = true) : s.chosen.ports.tickIn = s.ports.tickIn := by
  rcases s.chosen_cases with ⟨h', -⟩ | ⟨-, -, e⟩ | ⟨-, -, e⟩
  · simp [h] at h'
  · rw [e]; rfl
  · rw [e]

/-- What a step does that accepts a TICK: it takes the tick word, and the TICK runs (42_tick_scheduler.md R213, R214). -/
theorem State.step_of_acceptsTick {s : State} (h : s.acceptsTick) :
    step s = .next (s.chosen.withTickIn s.ports.tickIn.tail).acceptedTick := by
  obtain ⟨hrun, hport, hhead⟩ := h
  obtain ⟨rest, htick⟩ : ∃ rest, s.ports.tickIn = encodeWord .tick :: rest := by
    cases hq : s.ports.tickIn with
    | nil => simp [hq] at hhead
    | cons w rest => exact ⟨rest, by simp_all⟩
  have hdec : decodeTick (encodeWord .tick) = .instr .tick := by decide +kernel
  have hsched : (s.chosen.withTickIn rest).sched.running = true :=
    (congrArg Sched.running s.chosen_sameCore.2.2.1).symm.trans hrun
  simp only [step, stepOnce, hport, tickStep, State.chosen_tickIn hrun, htick, hdec, List.tail_cons, exec, execTick, hsched, if_true]

/-- A run's moves. -/
theorem EndlessRun.move_cases {p : Params} (r : EndlessRun p) (n : Nat) :
    (r.steps n = true ∧ step (r.state n) = .next (r.state (n + 1))) ∨
    (r.steps n = false ∧ State.Offers (r.state n) (r.state (n + 1))) := by
  have := r.moves n
  cases h : r.steps n <;> simp_all

/-- Every state of a run is reachable. -/
theorem EndlessRun.reachable {p : Params} (r : EndlessRun p) (n : Nat) : State.Reachable p (r.state n) := by
  induction n with
  | zero => exact r.begins ▸ .reset
  | succ n ih =>
    rcases r.move_cases n with ⟨-, h⟩ | ⟨-, h⟩
    · exact .step _ _ ih h
    · exact .offer _ _ ih h

end Sys2Proof.Machine
end

