-- ==== Sys2Proof/Laws/Tick.lean ====
section
/-! SUPPORT. The channel-by-channel loop of a TICK, in closed form. -/
namespace Sys2Proof.Machine

/-- The state and the first failure after a TICK's first `n` channels. -/
def State.tickedTo (s : State) (n : Nat) : State × Option ChannelId :=
  ({ s with
     ch := s.tickedBelow n
     ports :=
       { s.ports with
         sinkAnswers := s.ports.sinkAnswers.drop (s.armedBelow n).length
         sinkCount := s.ports.sinkCount + (s.armedBelow n).length
         trace := s.ports.trace ++ s.writesBelow n } },
   s.failureBelow n)

theorem State.armedBelow_succ (s : State) (n : Nat) :
    s.armedBelow (n + 1) = s.armedBelow n ++ if (s.chan n).armed then [n] else [] := by
  simp only [State.armedBelow, List.range_succ, List.filter_append]
  cases h : (s.chan n).armed <;> simp [h]

theorem State.writesBelow_succ (s : State) (n : Nat) :
    s.writesBelow (n + 1) = s.writesBelow n ++
      if (s.chan n).armed then
        [.sink (BitVec.ofNat 8 n) (s.map (s.chan n).tick.cur) (s.answerAt (s.armedBelow n).length)]
      else [] := by
  simp only [State.writesBelow, State.armedBelow_succ]
  cases h : (s.chan n).armed <;> simp [List.zipIdx_append]

theorem State.failureBelow_succ (s : State) (n : Nat) :
    s.failureBelow (n + 1) =
      if (s.chan n).armed then
        firstFailure (s.failureBelow n) (BitVec.ofNat 8 n) (s.answerAt (s.armedBelow n).length)
      else s.failureBelow n := by
  simp only [State.failureBelow, State.armedBelow_succ]
  cases h : (s.chan n).armed
  · simp
  · simp only [if_true, List.zipIdx_append, List.find?_append]
    cases hf : (s.armedBelow n).zipIdx.find? (fun p => s.answerAt p.2 == .hwErr) with
    | some q => simp [firstFailure]
    | none =>
      cases ha : s.answerAt (s.armedBelow n).length <;> simp [firstFailure, ha]

theorem State.tickedBelow_zero (s : State) : s.tickedBelow 0 = s.ch := by
  apply List.ext_getElem <;> simp [State.tickedBelow]

theorem State.tickedBelow_length (s : State) (n : Nat) : (s.tickedBelow n).length = s.ch.length := by
  simp [State.tickedBelow]

theorem State.tickedBelow_getD (s : State) (n c : Nat) :
    (s.tickedBelow n).getD c ChannelRegs.zero = if c < n then (s.chan c).tick else s.chan c := by
  simp only [State.tickedBelow, List.getD, List.getElem?_mapIdx, State.chan]
  cases h : s.ch[c]? with
  | none => simp
  | some r => simp

theorem State.tickedBelow_succ {s : State} {n : Nat} (h : n < s.ch.length) :
    s.tickedBelow (n + 1) = (s.tickedBelow n).set n (s.chan n).tick := by
  apply List.ext_getElem
  · simp [State.tickedBelow]
  · intro i h1 h2
    simp only [State.tickedBelow, List.getElem_mapIdx, List.getElem_set, State.chan, List.getD]
    rcases Nat.lt_trichotomy i n with hi | hi | hi
    · rw [if_pos (by omega), if_neg (by omega), if_pos hi]
    · subst hi
      simp [h]
    · rw [if_neg (by omega), if_neg (by omega), if_neg (by omega)]

/-- The answers still to come after `n` channels. -/
theorem State.tickedTo_sinkAnswer (s : State) (n : Nat) :
    (s.tickedTo n).1.sinkAnswer = s.answerAt (s.armedBelow n).length := by
  have h : (s.tickedTo n).1.sinkAnswer =
      match s.ports.sinkAnswers.drop (s.armedBelow n).length with
      | a :: _ => a
      | [] => Config.sinkDraw (s.ports.sinkCount + (s.armedBelow n).length) := rfl
  rw [h, State.answerAt]
  cases hd : s.ports.sinkAnswers.drop (s.armedBelow n).length with
  | nil =>
    have : s.ports.sinkAnswers[(s.armedBelow n).length]? = none := by
      rw [List.getElem?_eq_none_iff]; exact List.drop_eq_nil_iff.mp hd
    rw [this]
  | cons a as =>
    have : s.ports.sinkAnswers[(s.armedBelow n).length]? = some a := by
      rw [← List.head?_drop, hd]; rfl
    rw [this]

/-- One more channel. -/
theorem tickVisit_tickedTo {s : State} {n : Nat} (h : n < s.ch.length) :
    tickVisit (s.tickedTo n) n = s.tickedTo (n + 1) := by
  have hchan : (s.tickedTo n).1.chan n = s.chan n := by
    show (s.tickedBelow n).getD n ChannelRegs.zero = _
    rw [State.tickedBelow_getD, if_neg (Nat.lt_irrefl n)]
  have hans := s.tickedTo_sinkAnswer n
  simp only [tickVisit, State.tickChannel_eq, hchan]
  cases ha : (s.chan n).armed with
  | false =>
    have ht : s.tickedBelow (n + 1) = s.tickedBelow n := by
      rw [State.tickedBelow_succ h, ChannelRegs.tick_of_not_armed ha]
      apply List.ext_getElem
      · simp
      · intro i h1 h2
        rw [List.getElem_set]
        split
        · rename_i hi
          subst hi
          have := s.tickedBelow_getD n n
          rw [if_neg (Nat.lt_irrefl n)] at this
          rw [← this]
          simp [List.getD, h2]
        · rfl
    simp [State.tickedTo, State.armedBelow_succ, State.writesBelow_succ, State.failureBelow_succ, ha, ht]
  | true =>
    have hmap : (s.tickedTo n).1.map (s.chan n).tick.cur = s.map (s.chan n).tick.cur := rfl
    have hset : ((s.tickedTo n).1.setChan n (s.chan n).tick).sinkAnswer =
        s.answerAt (s.armedBelow n).length := hans
    simp only [if_true, hset, hmap]
    simp only [State.tickedTo, State.sinkApply, State.setChan, State.armedBelow_succ, State.writesBelow_succ,
      State.failureBelow_succ, ha, if_true, State.tickedBelow_succ h, List.length_append, List.length_singleton,
      List.append_assoc, List.tail_drop, Nat.add_assoc]
    congr 3
    simp only [List.append_cancel_left_eq]
    exact congrArg (fun a => [Event.sink (BitVec.ofNat 8 n) (s.map (s.chan n).tick.cur) a]) hans

/-- All that the loop of a TICK does (42_tick_scheduler.md R214). -/
theorem State.tickChannels_eq {s : State} (h : s.ctrl.channelCount.toNat ≤ s.ch.length) :
    s.tickChannels = s.tickedTo s.ctrl.channelCount.toNat := by
  have key : ∀ n ≤ s.ch.length, (List.range n).foldl tickVisit (s, none) = s.tickedTo n := by
    intro n
    induction n with
    | zero =>
      intro _
      simp [State.tickedTo, State.armedBelow, State.writesBelow, State.failureBelow, State.tickedBelow_zero]
    | succ n ih =>
      intro hn
      rw [List.range_succ, List.foldl_append, ih (by omega)]
      exact tickVisit_tickedTo (by omega)
  exact key _ h

end Sys2Proof.Machine
end

