-- ==== Sys2Proof/Tests/Slice0.lean ====
section
/-! SUPPORT. Tests of single steps, with values from spec/95_test_vectors.md (V-…) and the formats of
spec/30_encoding.md; and, for every obligation with hypotheses, a witness that meets them. -/
namespace Sys2Proof.Tests
open Sys2Proof Sys2Proof.Machine

-- One theorem after the other: each is checked by evaluation, and all of them at once take too many threads.
set_option Elab.async false

/-! ## Small states, with the parameters of the vectors (92_eei_decisions.md D39) -/

/-- Right after reset. -/
def fresh : State := State.resetWith Params.ofExamples

/-- After `INIT 20, 4`, with the given scheduler and channels, and four writes answered Ok. -/
def coreWith (running : Bool) (chs : List ChannelRegs) : State :=
  { fresh with
    ctrl := ⟨true, 20#32, 4#16⟩
    sched := ⟨true, running⟩
    ch := chs
    ports :=
      { Ports.empty with
        sinkAnswers := [.ok, .ok, .ok, .ok]
        trace := .tsreq (.schedule 20#32) :: if running then [.tsreq .start] else [] } }

/-- An idle register set. -/
def z : ChannelRegs := ChannelRegs.zero

/-- The same state with transfers offered on CMD. -/
def onCmd (s : State) (items : List CmdItem) : State := { s with ports := { s.ports with cmdIn := items } }

/-- The same state with words offered on TICK. -/
def onTick (s : State) (ws : List Word) : State := { s with ports := { s.ports with tickIn := ws } }

/-- The same state with other answers of the sink. -/
def answering (s : State) (as : List SinkResult) : State := { s with ports := { s.ports with sinkAnswers := as } }

/-- The traffic that a step adds to that of the state before it. -/
def puts (s : State) (o : Host.Outcome State Fault Refusal) : Option (List Event) :=
  match o with
  | .next t => some (t.ports.trace.drop s.ports.trace.length)
  | _ => none

/-- One register set after a step. -/
def regs (c : Nat) (o : Host.Outcome State Fault Refusal) : Option ChannelRegs :=
  match o with
  | .next t => some (t.chan c)
  | _ => none

/-- The control fields after a step. -/
def control (o : Host.Outcome State Fault Refusal) : Option (Ctrl × Sched) :=
  match o with
  | .next t => some (t.ctrl, t.sched)
  | _ => none

/-- V-F1 after the command: `(0, 0xFF00, 13056, 5, 0)`. -/
def fading : State := coreWith true [⟨0#16, 0xFF00#16, 13056#17, 5#32, 0#32⟩, z, z, z]

/-- V-B1 after the command: `(0xFF00, 0xFF00, 0, 0, 25)`. -/
def blinking : State := coreWith true [⟨0xFF00#16, 0xFF00#16, 0#17, 0#32, 25#32⟩, z, z, z]

/-- V-S2 at TICK 3: `(0x0001, 0x6400, −8533, 0, 3)`. -/
def breathing : State := coreWith true [⟨0x0001#16, 0x6400#16, BitVec.ofInt 17 (-8533), 0#32, 3#32⟩, z, z, z]

/-! ## WellFormed: LEN and the payload agree (R116) -/

theorem test_wellFormed_refuses_short_payload : ¬ Instr.WellFormed (.setGammaTable 2#9 [0#16]) := by decide
theorem test_wellFormed_refuses_long_payload : ¬ Instr.WellFormed (.setGammaTable 0#9 [0#16]) := by decide
theorem test_wellFormed_accepts : Instr.WellFormed (.setGammaTable 2#9 [0#16, 0xFFFF#16]) := by decide

/-! ## Decoding of words written out from R101-R106 -/

/-- V-E2: `0x01FF_FF00_FFFF_FFFF` is `INIT 0xFFFFFFFF, 65535`. -/
theorem test_decode_init : decodeCmd [.word 0x01FFFF00FFFFFFFF#64] = .instr (.init 0xFFFFFFFF#32 0xFFFF#16) [] := by
  decide +kernel
/-- V-L5. -/
theorem test_decode_deinit : decodeCmd [.word 0x0200000000000000#64] = .instr .deinit [] := by decide +kernel
/-- V-E2: `0x03FF_FF00_FFFF_FFFF` is `SET_CHANNEL 255, 255, 0xFFFFFFFF`. -/
theorem test_decode_setChannel :
    decodeCmd [.word 0x03FFFF00FFFFFFFF#64] = .instr (.setChannel 255#8 255#8 0xFFFFFFFF#32) [] := by decide +kernel
/-- V-E2: `0x0403_FF01_FFFF_FFFF` is `START_BLINK 3, 255, 0xFFFFFFFF, 1`. -/
theorem test_decode_startBlink :
    decodeCmd [.word 0x0403FF01FFFFFFFF#64] = .instr (.startBlink 3#8 255#8 0xFFFFFFFF#32 true) [] := by decide +kernel
/-- V-B4: `0x0401_0A00_0000_0000` is `START_BLINK 1, 10, 0, 0`. -/
theorem test_decode_startBlink_square :
    decodeCmd [.word 0x04010A0000000000#64] = .instr (.startBlink 1#8 10#8 0#32 false) [] := by decide +kernel
/-- V-L4: `0x0503_0000_0000_0000` is `STOP_BLINK 3`. -/
theorem test_decode_stopBlink : decodeCmd [.word 0x0503000000000000#64] = .instr (.stopBlink 3#8) [] := by decide +kernel
/-- V-L4: `0x06FF_0000_0000_0000` is `GET_CHANNEL 255`. -/
theorem test_decode_getChannel : decodeCmd [.word 0x06FF000000000000#64] = .instr (.getChannel 255#8) [] := by
  decide +kernel
/-- R104, R116: LEN is bits 40:32; what follows the payload is left. -/
theorem test_decode_setGammaTable :
    decodeCmd [.word 0x0700000200000000#64, .entry 7#16, .entry 9#16, .word 0#64] =
      .instr (.setGammaTable 2#9 [7#16, 9#16]) [.word 0#64] := by decide +kernel
/-- R105. -/
theorem test_decode_tick : decodeTick 0x8000000000000000#64 = .instr .tick := by decide +kernel
/-- V-E1: the reserved opcodes 0x00, 0x08, 0xFF, and TICK's own on CMD. -/
theorem test_decode_reservedOpcodes :
    [0x0000000000000000#64, 0x0800000000000000#64, 0xFF00000000000000#64, 0x8000000000000000#64].all
      (fun w => decodeCmd [.word w] == .illegal .reservedOpcode []) = true := by decide +kernel
/-- V-E1: a reserved bit beside an assigned opcode. -/
theorem test_decode_reservedFields :
    [0x0300000100000000#64, 0x0300000200000000#64, 0x0500010000000000#64, 0x0500000000000001#64,
      0x0200000000000001#64, 0x0100000100000014#64, 0x0600000000000005#64, 0x0400FF03000003E8#64].all
      (fun w => decodeCmd [.word w] == .illegal .reservedField []) = true := by decide +kernel
/-- V-E3: other words on TICK. -/
theorem test_decode_otherTickWords :
    [0x8000000000000001#64, 0x0300000000000000#64].all
      (fun w => decodeTick w == .illegal .notTheTickWord) = true := by decide +kernel
/-- 20_memory.md R73: byte k carries bits 8k+7:8k. -/
theorem test_decode_bytes :
    decodeCmdBytes [0x14, 0, 0, 0, 0, 4, 0, 1] = .instr (.init 20#32 4#16) [] := by decide +kernel
/-- R118: an assembler line. -/
theorem test_assemble :
    assembleLine [] ['F', 'A', 'D', 'E', ' ', '0', ',', ' ', '0', 'x', 'F', 'f', ',', '6', '0', ' ', ';'] =
      .command (.setChannel 0#8 255#8 60#32) := by decide +kernel

/-! ## The table and Map -/

/-- V-G2: spot values of Build(0.5). -/
theorem test_buildHalf :
    [buildHalf.getD 13 0, buildHalf.getD 128 0, buildHalf.getD 254 0, buildHalf.getD 255 0] =
      [170#16, 16448#16, 64769#16, 65535#16] := by decide +kernel
/-- V-M1: both tables at 0x8080, 0xFE80 and 0xFEFF. -/
theorem test_map :
    [0x8080#16, 0xFE80#16, 0xFEFF#16].map (fun q => (mapDuty 13 buildOne q, mapDuty 13 buildHalf q)) =
      [(4112, 2072), (8159, 8144), (8191, 8191)] := by decide +kernel

/-! ## One step of each instruction -/

/-- V-L2: `INIT 20, 4`. -/
theorem test_init :
    puts fresh (exec (.init 20#32 4#16) fresh) = some [.tsreq (.schedule 20#32), .rsp 0#64] ∧
    control (exec (.init 20#32 4#16) fresh) = some (⟨true, 20#32, 4#16⟩, ⟨true, false⟩) := by decide +kernel
/-- V-L2: the period check comes before the count check, and that before the resource check. -/
theorem test_init_checks :
    [exec (.init 0#32 5#16) fresh, exec (.init 20#32 0#16) fresh, exec (.init 20#32 5#16) fresh].map (puts fresh) =
      [some [.rsp 0x0100000000000000#64], some [.rsp 0x0100000000000000#64], some [.rsp 0x0200000000000000#64]] := by
  decide +kernel
/-- V-L6: DEINIT while running. -/
theorem test_deinit :
    puts fading (exec .deinit fading) = some [.tsreq .stop, .tsreq .release, .rsp 0#64] ∧
    control (exec .deinit fading) = some (⟨false, 0#32, 0#16⟩, ⟨false, false⟩) := by decide +kernel
/-- V-L1: DEINIT before INIT. -/
theorem test_deinit_refused : puts fresh (exec .deinit fresh) = some [.rsp 0x0100000000000000#64] := by decide +kernel
/-- V-F8: the sink answers HwErr; the brightness is kept. -/
theorem test_setChannel_hwErr :
    let s := answering (coreWith false [z, z, z, z]) [.hwErr]
    puts s (exec (.setChannel 2#8 77#8 0#32) s) = some [.sink 2#8 2464 .hwErr, .rsp 0x0302000000000000#64] ∧
    regs 2 (exec (.setChannel 2#8 77#8 0#32) s) = some ⟨0x4D00#16, 0x4D00#16, 0#17, 0#32, 0#32⟩ := by decide +kernel
/-- V-F2: a fade down, its step truncated toward zero. -/
theorem test_setChannel_fade :
    let s := coreWith false [⟨0xFF00#16, 0xFF00#16, 0#17, 0#32, 0#32⟩, z, z, z]
    puts s (exec (.setChannel 0#8 0#8 140#32) s) = some [.tsreq .start, .rsp 0#64] ∧
    regs 0 (exec (.setChannel 0#8 0#8 140#32) s) =
      some ⟨0xFF00#16, 0#16, BitVec.ofInt 17 (-9325), 7#32, 0#32⟩ := by decide +kernel
/-- V-B1. -/
theorem test_startBlink_square :
    let s := coreWith false [z, z, z, z]
    puts s (exec (.startBlink 0#8 255#8 1000#32 false) s) = some [.tsreq .start, .rsp 0#64] ∧
    regs 0 (exec (.startBlink 0#8 255#8 1000#32 false) s) =
      some ⟨0xFF00#16, 0xFF00#16, 0#17, 0#32, 25#32⟩ := by decide +kernel
/-- V-S2. -/
theorem test_startBlink_smooth :
    regs 0 (exec (.startBlink 0#8 100#8 140#32 true) (coreWith false [z, z, z, z])) =
      some ⟨0x6400#16, 0x6400#16, BitVec.ofInt 17 (-8533), 3#32, 3#32⟩ := by decide +kernel
/-- V-P3: STOP_BLINK cancels a one-shot fade. -/
theorem test_stopBlink :
    let s := coreWith true [⟨0x3300#16, 0xFF00#16, 13056#17, 4#32, 0#32⟩, z, z, z]
    puts s (exec (.stopBlink 0#8) s) = some [.rsp 0#64] ∧
    regs 0 (exec (.stopBlink 0#8) s) = some ⟨0x3300#16, 0xFF00#16, 0#17, 0#32, 0#32⟩ := by decide +kernel
/-- V-Q3: truncation; V-L4: a channel out of range. -/
theorem test_getChannel :
    let s := coreWith false [z, ⟨0x91B9#16, 0#16, 0#17, 0#32, 0#32⟩, z, z]
    puts s (exec (.getChannel 1#8) s) = some [.rsp 0x91#64] ∧
    puts s (exec (.getChannel 4#8) s) = some [.rsp 0x0100000000000000#64] := by decide +kernel
/-- V-GT5: a whole table, and no duty write. -/
theorem test_setGammaTable :
    let s := coreWith false [z, z, z, z]
    puts s (exec (.setGammaTable 256#9 buildHalf) s) = some [.rsp 0#64] := by decide +kernel
/-- V-GT3: 257 entries; V-GT2: none. -/
theorem test_setGammaTable_refused :
    let s := coreWith false [z, z, z, z]
    puts s (exec (.setGammaTable 257#9 (List.replicate 257 0#16)) s) = some [.rsp 0x0100000000000000#64] ∧
    puts s (exec (.setGammaTable 0#9 []) s) = some [.rsp 0x0100000000000000#64] := by decide +kernel
/-- V-T1: every channel advances though two writes fail; the lowest failing one is named. -/
theorem test_tick_failures :
    let f : ChannelRegs := ⟨0#16, 0xFF00#16, 13056#17, 5#32, 0#32⟩
    let s := answering (coreWith true [f, f, f, f]) [.ok, .hwErr, .hwErr, .ok]
    puts s (exec .tick s) =
      some [.sink 0#8 1632 .ok, .sink 1#8 1632 .hwErr, .sink 2#8 1632 .hwErr, .sink 3#8 1632 .ok,
        .trsp 0x0301000000000000#64] := by decide +kernel
/-- V-F9 TICK 3: the snap, and the self-stop; V-S2 TICK 4: the reversal. -/
theorem test_tick_branches :
    let s := coreWith true [⟨0x00AA#16, 0x0100#16, 85#17, 1#32, 0#32⟩, z, z, z]
    puts s (exec .tick s) = some [.sink 0#8 32 .ok, .tsreq .stop, .trsp 0#64] ∧
    regs 0 (exec .tick breathing) = some ⟨0x2156#16, 0x6400#16, 8533#17, 2#32, 3#32⟩ := by decide +kernel

/-! ## Witnesses: a state and operands that meet each obligation's hypotheses -/

theorem test_hyp_DecodeReadsBackEncode :
    Instr.WellFormed (.setGammaTable 2#9 [0#16, 0xFFFF#16]) ∧ Instr.port (.setGammaTable 2#9 [0#16, 0xFFFF#16]) = .cmd := by
  decide
theorem test_hyp_EncodeReadsBackDecode :
    decodeCmd [.word 0x0700000100000000#64, .entry 5#16] = .instr (.setGammaTable 1#9 [5#16]) [] ∧
    decodeTick 0x8000000000000000#64 = .instr .tick := by decide +kernel
theorem test_hyp_BytesDecodeToTheirCommand :
    Instr.WellFormed (.init 20#32 4#16) ∧ Instr.port (.init 20#32 4#16) = .cmd ∧ (List.replicate 7 0#8).length < 8 := by
  decide
theorem test_hyp_ReservedOpcodeAnswersInvalidArgument :
    (onCmd fresh [.word 0#64]).nextPort = some .cmd ∧ (0#64 : Word).extractLsb' 56 8 = 0x00#8 ∧
    (onCmd fresh [.word 0x0800000000000000#64]).nextPort = some .cmd ∧
    0x08 ≤ ((0x0800000000000000#64 : Word).extractLsb' 56 8).toNat := by decide +kernel
/-- Each of the seven reserved fields at its lowest and its highest bit, and a payload of one entry. -/
theorem test_hyp_ReservedFieldAnswersInvalidArgument :
    [0x0100000100000000#64, 0x0100008000000000#64, 0x0200000000000001#64, 0x0280000000000000#64,
      0x0300000100000000#64, 0x0300008000000000#64, 0x0400000200000000#64, 0x0400008000000000#64,
      0x0500000000000001#64, 0x0500800000000000#64, 0x0600000000000001#64, 0x0600800000000000#64].all
      (fun w => (onCmd fresh [.word w]).nextPort == some .cmd) = true ∧
    [0x0700000100000001#64, 0x0700000180000000#64, 0x0700020100000000#64, 0x0780000100000000#64].all
      (fun w => (onCmd fresh [.word w, .entry 5#16]).nextPort == some .cmd && w.extractLsb' 32 9 == 1#9) = true ∧
    ((0x0100000100000000#64 : Word).extractLsb' 32 8 ≠ 0#8 ∧ (0x0280000000000000#64 : Word).extractLsb' 0 56 ≠ 0#56 ∧
      (0x0300008000000000#64 : Word).extractLsb' 32 8 ≠ 0#8 ∧ (0x0400000200000000#64 : Word).extractLsb' 33 7 ≠ 0#7 ∧
      (0x0500800000000000#64 : Word).extractLsb' 0 48 ≠ 0#48 ∧ (0x0600000000000001#64 : Word).extractLsb' 0 48 ≠ 0#48 ∧
      (0x0700020100000000#64 : Word).extractLsb' 41 15 ≠ 0#15 ∧
      (0x0700000180000000#64 : Word).extractLsb' 0 32 ≠ 0#32) := by decide +kernel
theorem test_hyp_OtherTickPortWordsAnswerInvalidArgument :
    let s := onTick fading [0x8000000000000001#64]
    s.ports.tickIn = [0x8000000000000001#64] ∧ 0x8000000000000001#64 ≠ 0x8000000000000000#64 ∧
    s.sched.running = true ∧ s.nextPort = some .tick ∧ Instr.port .deinit = .cmd := by decide +kernel
/-- A stopped core with a stale word, nothing else or a fade offered: the fade starts the scheduler, and no TICK is left. -/
theorem test_hyp_StoppedSchedulerDiscardsTickWords :
    let s := onTick (coreWith false [z, z, z, z]) [0x8000000000000000#64]
    let f := onCmd s (encode (.setChannel 0#8 255#8 100#32))
    s.sched.running = false ∧ s.cmdOffered = false ∧ f.sched.running = false ∧
    step f = .next ((coreWith false [z, z, z, z]).startFade 0#8 255#8 100#32) :=
  ⟨rfl, by decide +kernel, rfl, rfl⟩
theorem test_hyp_StepRunsTheDecodedInstruction :
    (onCmd fresh [.word 0x0200000000000000#64]).nextPort = some .cmd ∧
    decodeCmd (onCmd fresh [.word 0x0200000000000000#64]).ports.cmdIn = .instr .deinit [] ∧
    (onTick fading [0x8000000000000000#64]).nextPort = some .tick ∧
    decodeTick 0x8000000000000000#64 = .instr .tick ∧
    fading.sched.running = true ∧ (fading.cmdOffered && fading.tickOffered) = false ∧ fresh.sched.running = false ∧
    ((onTick (onCmd fading [.word 0#64]) [0#64]).cmdOffered &&
      (onTick (onCmd fading [.word 0#64]) [0#64]).tickOffered) = true := by decide +kernel
/-- One entry short of the shortest and of the longest payload. -/
theorem test_hyp_IncompletePayloadWaits :
    (0x0700000100000000#64 : Word).extractLsb' 56 8 = 0x07#8 ∧
    ([] : List Entry).length < ((0x0700000100000000#64 : Word).extractLsb' 32 9).toNat ∧
    (List.replicate 510 0#16 : List Entry).length < ((0x070001FF00000000#64 : Word).extractLsb' 32 9).toNat ∧
    (onTick (onCmd fading [.word 0x0700000100000000#64]) [0#64]).ports.tickIn ≠ [] ∧
    fading.sched.running = true ∧ fresh.sched.running = false ∧
    (onCmd fresh [.word 0x0700000100000000#64, .word 0#64]).nextPort = some .cmd := by decide +kernel
theorem test_hyp_EitherPortMayGoFirst :
    let s := onTick (onCmd fading [.word 0#64]) [0x8000000000000000#64]
    s.cmdOffered = true ∧ s.tickOffered = true := by decide +kernel
theorem test_hyp_PlacedWordRunsNext :
    fading.ports.cmdIn = [] ∧ fading.ports.tickIn = [] ∧
    decodeTableWord 64 0x0700000100000000 = some (.setGammaTable 1#9 [0#16]) ∧
    decodeTableWord 64 0x8000000000000000 = some .tick := by decide +kernel
/-- The highest legal channel count. -/
theorem test_hyp_InitEstablishesOperatingState :
    fresh.ctrl.initialized = false ∧ 1#32 ≠ 0#32 ∧ 4#16 ≠ 0#16 ∧ (4#16).toNat ≤ fresh.params.nChMax := by decide +kernel
theorem test_hyp_InitChecksInOrder :
    fading.ctrl.initialized = true ∧ fresh.ctrl.initialized = false ∧ 20#32 ≠ 0#32 ∧ 5#16 ≠ 0#16 ∧
    fresh.params.nChMax < (5#16).toNat := by decide +kernel
theorem test_hyp_DeinitRestoresResetState :
    fading.ctrl.initialized = true ∧ fresh.ctrl.initialized = false := by decide +kernel
theorem test_hyp_OnlyInitSucceedsBeforeInit :
    fresh.ctrl.initialized = false ∧ fresh.sched.running = false ∧ Instr.port (.getChannel 0#8) = .cmd := by
  decide +kernel
/-- The first channel id out of range, and any id before INIT. -/
theorem test_hyp_ChannelCommandsValidateTheirChannel :
    fading.ctrl.channelCount.toNat ≤ (4#8).toNat ∧ fresh.ctrl.initialized = false := by decide +kernel
/-- The highest channel id in range: SetChannelImmediateSetsAndWrites, StartBlinkArmsLoop, StopBlinkFreezesChannel,
GetChannelAnswersIntegerPart, and with a duration SetChannelFadeArmsRamp. -/
theorem test_hyp_Present : fading.Present 3#8 ∧ fading.Present 0#8 ∧ 1#32 ≠ 0#32 := by decide +kernel
theorem test_hyp_SetGammaTableReplacesTheTable :
    Instr.WellFormed (.setGammaTable 256#9 buildHalf) ∧ fading.ctrl.initialized = true ∧
    Instr.WellFormed (.setGammaTable 255#9 (List.replicate 255 0#16)) ∧ 255#9 ≠ 256#9 ∧
    fresh.ctrl.initialized = false := by decide +kernel
theorem test_hyp_ChannelCommandsLeaveOtherChannels :
    exec (.stopBlink 0#8) fading = .next (fading.stopBlink 0#8) ∧ 1 ≠ (0#8).toNat := ⟨rfl, by decide⟩
/-- TickAdvancesEveryChannelOnce, TickIsBoundedAndInChannelOrder and SchedulerStopsWhenNoChannelIsArmed; for the last
also a running core with no channel armed (V-F14). -/
theorem test_hyp_tick :
    fading.sched.running = true ∧ fading.ChannelsExist ∧ exec .tick fading = .next fading.acceptedTick ∧
    (coreWith true [z, z, z, z]).sched.running = true ∧ (coreWith true [z, z, z, z]).ChannelsExist ∧
    (coreWith true [z, z, z, z]).anyArmed = false :=
  ⟨rfl, by decide +kernel, rfl, rfl, by decide +kernel, by decide +kernel⟩
/-- A register set in each branch; in branch 2 the lowest step of the second clause too. -/
theorem test_hyp_TickChannelBranches :
    0 < (fading.chan 0).remainingTicks.toNat ∧
    (breathing.chan 0).remainingTicks.toNat = 0 ∧ 0 < (breathing.chan 0).halfPeriodTicks.toNat ∧
    -65535 ≤ (breathing.chan 0).step.toInt ∧ -65535 ≤ (BitVec.ofInt 17 (-65535)).toInt ∧
    z.remainingTicks.toNat = 0 ∧ z.halfPeriodTicks.toNat = 0 := by decide +kernel
/-- A change of each of the four kinds. -/
theorem test_hyp_SchedulerTransitions :
    fresh.Lifecycle ∧ fresh.sched.mode = some .unprepared ∧
    control (exec (.init 20#32 4#16) fresh) = some (⟨true, 20#32, 4#16⟩, ⟨true, false⟩) ∧
    (coreWith false [z, z, z, z]).Lifecycle ∧ (coreWith false [z, z, z, z]).sched.mode = some .stopped ∧
    control (exec (.setChannel 0#8 1#8 1#32) (coreWith false [z, z, z, z])) = some (⟨true, 20#32, 4#16⟩, ⟨true, true⟩) ∧
    (coreWith true [z, z, z, z]).Lifecycle ∧ (coreWith true [z, z, z, z]).sched.mode = some .running ∧
    control (exec .tick (coreWith true [z, z, z, z])) = some (⟨true, 20#32, 4#16⟩, ⟨true, false⟩) ∧
    control (exec .deinit (coreWith true [z, z, z, z])) = some (⟨false, 0#32, 0#16⟩, ⟨false, false⟩) :=
  ⟨by decide +kernel, rfl, by decide +kernel, by decide +kernel, rfl, by decide +kernel, by decide +kernel, rfl,
    by decide +kernel, by decide +kernel⟩
set_option synthInstance.maxSize 2000 in
set_option synthInstance.maxHeartbeats 200000 in
/-- States with the invariant and an armed channel. -/
theorem test_inv_fading : fading.Inv := by decide +kernel
set_option synthInstance.maxSize 2000 in
set_option synthInstance.maxHeartbeats 200000 in
theorem test_inv_blinking : blinking.Inv := by decide +kernel
set_option synthInstance.maxSize 2000 in
set_option synthInstance.maxHeartbeats 200000 in
theorem test_inv_breathing : breathing.Inv := by decide +kernel
theorem test_hyp_StepKeepsTheInvariant :
    (onTick fading [0x8000000000000000#64]).Inv ∧
    step (onTick fading [0x8000000000000000#64]) = .next fading.acceptedTick := ⟨test_inv_fading, rfl⟩
/-- A fade of one tick on the highest channel, while channel 0 blinks, is stopped and ticked. -/
theorem test_hyp_OneShotFadeTrajectory :
    blinking.Inv ∧ blinking.Present 3#8 ∧ 1#32 ≠ 0#32 ∧ ∀ i ∈ [Instr.tick, .stopBlink 0#8, .tick], sparesChannel 3#8 i = true :=
  ⟨test_inv_blinking, by decide +kernel, by decide, by decide⟩
theorem test_hyp_FadeNeverLeavesItsInterval :
    fading.Inv ∧ fading.Present 0#8 ∧ 60#32 ≠ 0#32 ∧ (∀ i ∈ [Instr.tick], sparesChannel 0#8 i = true) ∧
    runInstrs [.setChannel 0#8 0#8 60#32, .tick] fading = .next (fading.startFade 0#8 0#8 60#32).acceptedTick :=
  ⟨test_inv_fading, by decide +kernel, by decide, by decide, rfl⟩
/-- No TICK, and one TICK with a command on another channel before it. -/
theorem test_hyp_SquareLoopTrajectory :
    fading.Inv ∧ fading.Present 0#8 ∧ (∀ i ∈ ([] : List Instr), sparesChannel 0#8 i = true) ∧
    (∀ i ∈ [Instr.setChannel 1#8 9#8 0#32, .tick], sparesChannel 0#8 i = true) ∧
    1 ≤ [Instr.setChannel 1#8 9#8 0#32, .tick].count .tick :=
  ⟨test_inv_fading, by decide +kernel, by decide, by decide, by decide⟩
/-- V-S2: a quotient above zero. -/
theorem test_hyp_SmoothLoopTrajectory :
    fading.Inv ∧ fading.Present 0#8 ∧ (∀ i ∈ [Instr.tick], sparesChannel 0#8 i = true) ∧
    0 < (100#8).toNat * 256 / max 1 ((140#32).toNat / 2 / fading.ctrl.tickPeriodMs.toNat) ∧
    1 ≤ [Instr.tick].count .tick :=
  ⟨test_inv_fading, by decide +kernel, by decide, by decide +kernel, by decide⟩
/-- V-S4's quotient: `256 / 500 = 0`. -/
theorem test_hyp_DegenerateSmoothLoopTrajectory :
    fading.Inv ∧ fading.Present 0#8 ∧ (∀ i ∈ [Instr.tick], sparesChannel 0#8 i = true) ∧
    (1#8).toNat * 256 / max 1 ((20000#32).toNat / 2 / fading.ctrl.tickPeriodMs.toNat) = 0 :=
  ⟨test_inv_fading, by decide +kernel, by decide, by decide +kernel⟩
/-- Build(1/3) in closed form: `floor(256·i³/65025 + 1/2)`, both terms over 130050. -/
def buildThird : List Entry := tableOf fun i => (512 * i ^ 3 + 65025) / 130050

/-- BuiltTablesAreValid, and the second case of FullScaleReachesDutyMax. -/
theorem test_hyp_BuiltTablesAreValid : (0 : ℝ) < 1 / 3 ∧ IsBuild (1 / 3) buildThird := by
  refine ⟨by norm_num, by decide +kernel, fun i hi => ?_, by decide +kernel⟩
  have entries : ∀ j < 255, (lutRead buildThird j).toNat = (512 * j ^ 3 + 65025) / 130050 := by decide +kernel
  rw [entries i hi, eq_comm, Int.floor_eq_iff]
  have e : (65280 : ℝ) * ((i : ℝ) / 255) ^ (1 / (1 / 3 : ℝ)) + 1 / 2 = (512 * (i : ℝ) ^ 3 + 65025) / 130050 := by
    rw [show (1 : ℝ) / (1 / 3) = (3 : ℕ) by norm_num, Real.rpow_natCast]; ring
  rw [e, le_div_iff₀ (by norm_num), div_lt_iff₀ (by norm_num)]
  have h1 := Nat.div_mul_le_self (512 * i ^ 3 + 65025) 130050
  have h2 := Nat.lt_div_mul_add (a := 512 * i ^ 3 + 65025) (b := 130050) (by norm_num)
  constructor
  · exact_mod_cast h1
  · have : (512 * i ^ 3 + 65025 : ℕ) < ((512 * i ^ 3 + 65025) / 130050 + 1) * 130050 := by omega
    exact_mod_cast this

/-- FullScaleReachesDutyMax, at the lowest and the highest duty resolution. -/
theorem test_hyp_FullScaleReachesDutyMax : TableValid 13 buildOne ∧ TableValid 1 buildOne ∧ TableValid 16 buildOne := by
  decide +kernel
theorem test_hyp_MapIsMonotone : NonDecreasing buildHalf ∧ (0xFEFF#16).toNat ≤ (0xFF00#16).toNat := by decide +kernel
theorem test_hyp_StepDivisionTruncates : (0 : Int) < 1 ∧ tdiv (-256) 3 = -85 := by decide
theorem test_hyp_EveryCommandAnswersOnce : Instr.port (.setChannel 0#8 0#8 0#32) = .cmd := by decide
theorem test_hyp_SinkAnswersDoNotChangeTheCore :
    answering fading [.hwErr] = { fading with ports := { fading.ports with sinkAnswers := [.hwErr], sinkCount := 0 } } ∧
    exec .tick fading = .next fading.acceptedTick ∧
    exec .tick (answering fading [.hwErr]) = .next (answering fading [.hwErr]).acceptedTick := ⟨rfl, rfl, rfl⟩
/-- Two states that differ in the stale step of an idle channel (V-F1's end state). -/
theorem test_hyp_StaleStepIsNeverRead :
    let s := coreWith false [⟨0xFF00#16, 0xFF00#16, 13056#17, 0#32, 0#32⟩, z, z, z]
    let t := coreWith false [⟨0xFF00#16, 0xFF00#16, 0#17, 0#32, 0#32⟩, z, z, z]
    s.SameButStaleSteps t ∧ s ≠ t ∧ exec (.getChannel 0#8) s = .next (s.respond .ok 0#8 255#8) ∧
    exec (.getChannel 0#8) t = .next (t.respond .ok 0#8 255#8) :=
  ⟨by decide +kernel, by decide +kernel, rfl, rfl⟩
theorem test_hyp_OnlyImmediateSetsAndTicksWriteDuties :
    exec (.stopBlink 0#8) fading = .next (fading.stopBlink 0#8) ∧ Instr.stopBlink 0#8 ≠ .tick := ⟨rfl, by decide⟩
theorem test_hyp_LoopStaysInItsRange :
    (breathing.chan 0).Inv ∧ 0 < (breathing.chan 0).halfPeriodTicks.toNat ∧ (breathing.chan 0).step ≠ 0#17 := by
  decide +kernel
theorem test_hyp_legal : Params.ofExamples.Legal := by decide +kernel
/-- A reachable state after one step: ReachableStatesHaveTheInvariant, SaturationNeverChangesTheValue,
TimeSourceRequestsAlternate, ReachableDutyWritesAreInRange. -/
theorem test_hyp_Reachable :
    Params.ofExamples.Legal ∧ State.Reachable Params.ofExamples (fresh.initialize 20#32 4#16) := by
  refine ⟨test_hyp_legal, .step (onCmd fresh (encode (.init 20#32 4#16))) _
    (.offer fresh _ .reset (.cmd fresh (encode (.init 20#32 4#16)))) ?_⟩
  rfl
theorem test_hyp_ParametersAndTrafficPersist : step fading = .next fading := rfl
theorem test_hyp_AssembledCommandsAreWellFormed :
    assembleLine [(['t'], List.replicate 256 0)]
      ['S', 'E', 'T', '_', 'G', 'A', 'M', 'M', 'A', '_', 'T', 'A', 'B', 'L', 'E', ' ', 't'] =
      .command (.setGammaTable 256#9 (List.replicate 256 0#16)) := by decide +kernel

/-! ## The wire, and an endless run -/

/-- R73: the answer HardwareError on channel 2 (V-F8) on a byte-wide RSP. -/
theorem test_response_bytes : rspBytes [.rsp 0x0302000000000000#64] = [0, 0, 0, 0, 0, 0, 2, 3] := by decide +kernel
theorem test_hyp_WireIsLittleEndian : ([0x11#8, 0x22#8] : List Byte).length < 8 ∧ ([] : List Byte).length < 8 := by
  decide

/-- The state after an outcome. -/
def after (o : Host.Outcome State Fault Refusal) : State :=
  match o with
  | .next t => t
  | .fault _ => fresh
  | .refused _ => fresh

/-- INIT and a fade of one tick are offered. -/
def run1 : State := onCmd fresh (encode (.init 20#32 4#16) ++ encode (.setChannel 0#8 255#8 20#32))
/-- After both commands. -/
def run3 : State := after (step (after (step run1)))
/-- The tick word is offered. -/
def run4 : State := onTick run3 [0x8000000000000000#64]
/-- The sink's answer is settled. -/
def run5 : State := answering run4 [.ok]
/-- After the TICK: nothing happens any more. -/
def run6 : State := after (step run5)

/-- A run whose fade ends, after which the scheduler is stopped and the outside world offers nothing. -/
def fadeRun : EndlessRun Params.ofExamples where
  state
    | 0 => fresh
    | 1 => run1
    | 2 => after (step run1)
    | 3 => run3
    | 4 => run4
    | 5 => run5
    | _ + 6 => run6
  steps
    | 1 => true
    | 2 => true
    | 5 => true
    | _ => false
  begins := rfl
  moves
    | 0 => .cmd fresh (encode (.init 20#32 4#16) ++ encode (.setChannel 0#8 255#8 20#32))
    | 1 => rfl
    | 2 => rfl
    | 3 => .tick run3 [0x8000000000000000#64] rfl
    | 4 => .answers run4 [.ok]
    | 5 => rfl
    | _ + 6 => .cmd run6 []

theorem test_hyp_FairRunsFinishFades :
    Params.ofExamples.Legal ∧ fadeRun.Fair ∧ ((fadeRun.state 3).chan (0#8).toNat).mode = .oneShotFade ∧
    ∀ m ≥ 3, fadeRun.steps m = true → ∀ i, (fadeRun.state m).takesCommand i → sparesChannel 0#8 i = true := by
  refine ⟨test_hyp_legal, fun ⟨n, h⟩ => ?_, by decide +kernel, fun m hm hs i hi => ?_⟩
  · have : (fadeRun.state (n + 6)).sched.running = false := by
      show run6.sched.running = false
      decide +kernel
    simp [h (n + 6) (by omega)] at this
  · match m, hm, hs, hi with
    | 5, _, _, hi =>
      have : run5.nextPort = some .tick := by decide +kernel
      cases this.symm.trans hi.1
end Sys2Proof.Tests
end

section
/-! SUPPORT. The order in which a machine grows: the parameters stay, the traffic is only added to
(00_scope.md R10, 10_state.md R50). Each operation goes up in it, so every step does. -/
namespace Sys2Proof.Machine

/-- `t` is a later state of the machine `s`: built with the same parameters, with all the traffic of `s` in it, first. -/
def State.Extends (s t : State) : Prop :=
  t.params = s.params ∧ s.ports.trace <+: t.ports.trace

theorem State.extends_iff (s t : State) :
    s.Extends t ↔ t.params = s.params ∧ ∃ es, t.ports.trace = s.ports.trace ++ es := by
  simp only [State.Extends, List.IsPrefix, eq_comm]

theorem State.Extends.trans {s t u : State} (h : s.Extends t) (h' : t.Extends u) : s.Extends u :=
  ⟨h'.1.trans h.1, h.2.trans h'.2⟩

/-- An update that touches neither the parameters nor the traffic. -/
theorem State.Extends.of_eq {s t : State} (hparams : t.params = s.params)
    (htrace : t.ports.trace = s.ports.trace) : s.Extends t :=
  ⟨hparams, htrace ▸ List.prefix_rfl⟩

@[refl] theorem State.Extends.refl (s : State) : s.Extends s := .of_eq rfl rfl

/-- A check with two outcomes: how each command answers (43_commands.md R240). -/
theorem State.Extends.ite {s t u : State} {p : Prop} [Decidable p] (ht : s.Extends t) (hu : s.Extends u) :
    s.Extends (if p then t else u) := by
  split <;> assumption

/-! ## What puts something out -/

theorem State.extends_emit (s : State) (e : Event) : s.Extends (s.emit e) :=
  ⟨rfl, List.prefix_append _ _⟩

theorem State.extends_tsRequest (s : State) (r : TsRequest) : s.Extends (s.tsRequest r) :=
  s.extends_emit _

theorem State.extends_respond (s : State) (a : Status) (e : ChannelId) (d : Byte) : s.Extends (s.respond a e d) :=
  s.extends_emit _

theorem State.extends_tickRespond (s : State) (a : Status) (e : ChannelId) : s.Extends (s.tickRespond a e) :=
  s.extends_emit _

theorem State.extends_raise (s : State) (a : Status) : s.Extends (s.raise a) :=
  s.extends_respond _ _ _

theorem State.extends_sinkApply (s : State) (c : ChannelId) (d : Nat) : s.Extends (s.sinkApply c d) :=
  ⟨rfl, List.prefix_append _ _⟩

/-! ## What only changes the core or an input port -/

theorem State.extends_setChan (s : State) (c : Nat) (r : ChannelRegs) : s.Extends (s.setChan c r) := .of_eq rfl rfl

theorem State.extends_setRunning (s : State) (b : Bool) : s.Extends (s.setRunning b) := .of_eq rfl rfl

theorem State.extends_withCmdIn (s : State) (items : List CmdItem) : s.Extends (s.withCmdIn items) := .of_eq rfl rfl

theorem State.extends_withTickIn (s : State) (ws : List Word) : s.Extends (s.withTickIn ws) := .of_eq rfl rfl

theorem State.extends_chosen (s : State) : s.Extends s.chosen := by
  rcases s.chosen_cases with ⟨-, e⟩ | ⟨-, -, e⟩ | ⟨-, -, e⟩ <;> rw [e] <;> exact .of_eq rfl rfl

/-! ## The scheduler -/

theorem State.extends_ensureRunning (s : State) : s.Extends s.ensureRunning := by
  rcases s.ensureRunning_cases with ⟨-, e⟩ | ⟨-, e⟩ <;> rw [e]
  exact (s.extends_setRunning true).trans (State.extends_tsRequest _ _)

theorem State.extends_selfStopCheck (s : State) : s.Extends s.selfStopCheck := by
  rcases s.selfStopCheck_cases with ⟨-, e⟩ | ⟨-, e⟩ <;> rw [e]
  exact (s.extends_setRunning false).trans (State.extends_tsRequest _ _)

theorem State.extends_stopAndRelease (s : State) : s.Extends s.stopAndRelease := by
  rw [State.stopAndRelease_eq]
  exact ⟨rfl, List.prefix_append _ _⟩

/-! ## A TICK -/

/-- One channel's turn: a duty write if the channel is armed, else nothing. -/
theorem extends_tickVisit (acc : State × Option ChannelId) (c : Nat) : acc.1.Extends (tickVisit acc c).1 := by
  rw [tickVisit, State.tickChannel_eq]
  split_ifs
  · exact (acc.1.extends_setChan _ _).trans (State.extends_sinkApply _ _ _)
  · rfl

theorem extends_foldl_tickVisit (cs : List Nat) (acc : State × Option ChannelId) :
    acc.1.Extends (cs.foldl tickVisit acc).1 := by
  induction cs generalizing acc with
  | nil => rfl
  | cons c cs ih => exact (extends_tickVisit acc c).trans (ih _)

theorem State.extends_tickChannels (s : State) : s.Extends s.tickChannels.1 :=
  extends_foldl_tickVisit _ (s, none)

theorem State.extends_tickAnswer (s : State) (errch : Option ChannelId) : s.Extends (s.tickAnswer errch) := by
  cases errch with
  | none => exact s.extends_tickRespond _ _
  | some c => exact s.extends_tickRespond _ _

theorem State.extends_acceptedTick (s : State) : s.Extends s.acceptedTick :=
  s.extends_tickChannels.trans ((State.extends_selfStopCheck _).trans (State.extends_tickAnswer _ _))

/-! ## The commands that pass their checks -/

/-- Two transfers: TsSchedule, then the answer. -/
theorem State.extends_initialize (s : State) (ms : Millis) (n : BitVec 16) : s.Extends (s.initialize ms n) :=
  (s.extends_tsRequest (.schedule ms)).trans (.trans (.of_eq rfl rfl) (State.extends_respond _ .ok 0#8 0#8))

theorem State.extends_deinitialize (s : State) : s.Extends s.deinitialize :=
  s.extends_stopAndRelease.trans (.trans (.of_eq rfl rfl) (State.extends_respond _ .ok 0#8 0#8))

theorem State.extends_setNow (s : State) (c : ChannelId) (v : Byte) : s.Extends (s.setNow c v) := by
  have written (r : ChannelRegs) (d : Nat) : s.Extends ((s.setChan c.toNat r).sinkApply c d) :=
    (s.extends_setChan _ r).trans (State.extends_sinkApply _ c d)
  unfold State.setNow
  dsimp only
  split <;> exact (written _ _).trans (State.extends_respond _ _ _ _)

theorem State.extends_startFade (s : State) (c : ChannelId) (v : Byte) (ms : Millis) :
    s.Extends (s.startFade c v ms) :=
  (s.extends_setChan _ _).trans ((State.extends_ensureRunning _).trans (State.extends_respond _ _ _ _))

theorem State.extends_startBlink (s : State) (c : ChannelId) (v : Byte) (ms : Millis) (smooth : Bool) :
    s.Extends (s.startBlink c v ms smooth) :=
  (s.extends_setChan _ _).trans ((State.extends_ensureRunning _).trans (State.extends_respond _ _ _ _))

theorem State.extends_stopBlink (s : State) (c : ChannelId) : s.Extends (s.stopBlink c) :=
  (s.extends_setChan _ _).trans (State.extends_respond _ _ _ _)

theorem State.extends_replaceTable (s : State) (es : List Entry) :
    s.Extends ({ s with lut := overrideTable es }.respond .ok 0#8 0#8) :=
  .trans (.of_eq rfl rfl) (State.extends_respond _ .ok 0#8 0#8)

/-! ## Every instruction, and every step -/

/-- An instruction answers a next state, and that one extends the present one. -/
theorem exec_next_extends (i : Instr) (s : State) : ∃ t, exec i s = .next t ∧ s.Extends t :=
  have rejects := s.extends_raise .invalidArgument
  match i with
  | .init ms n =>
    ⟨_, rfl, .ite rejects (.ite rejects (.ite rejects (.ite (s.extends_raise _) (s.extends_initialize ms n))))⟩
  | .deinit => ⟨_, rfl, .ite s.extends_deinitialize rejects⟩
  | .setChannel c v ms => ⟨_, rfl, .ite (.ite (s.extends_setNow c v) (s.extends_startFade c v ms)) rejects⟩
  | .startBlink c v ms smooth => ⟨_, rfl, .ite (s.extends_startBlink c v ms smooth) rejects⟩
  | .stopBlink c => ⟨_, rfl, .ite (s.extends_stopBlink c) rejects⟩
  | .getChannel _ => ⟨_, rfl, .ite (s.extends_respond _ _ _) rejects⟩
  | .setGammaTable _ es => ⟨_, rfl, .ite (.ite (s.extends_replaceTable es) rejects) rejects⟩
  | .tick => ⟨_, rfl, .ite s.extends_acceptedTick (.refl s)⟩

theorem State.extends_of_exec {i : Instr} {s t : State} (h : exec i s = .next t) : s.Extends t := by
  obtain ⟨u, hu, hext⟩ := exec_next_extends i s
  cases hu.symm.trans h
  exact hext

theorem State.extends_of_cmdStep {s t : State} (h : cmdStep s = .next t) : s.Extends t := by
  unfold cmdStep at h
  split at h
  case h_1 i rest _ => exact (s.extends_withCmdIn rest).trans (State.extends_of_exec h)
  case h_2 rest _ =>
    cases h
    exact (s.extends_withCmdIn rest).trans (State.extends_raise _ _)
  case h_3 => cases h; rfl
  case h_4 => cases h

theorem State.extends_of_tickStep {s t : State} (h : tickStep s = .next t) : s.Extends t := by
  unfold tickStep at h
  split at h
  case h_1 => cases h; rfl
  case h_2 w rest _ =>
    split at h
    · exact (s.extends_withTickIn rest).trans (State.extends_of_exec h)
    · cases h
      exact (s.extends_withTickIn rest).trans (State.extends_tickRespond _ _ _)

theorem State.extends_of_step {s t : State} (h : step s = .next t) : s.Extends t := by
  refine s.extends_chosen.trans ?_
  unfold step stepOnce at h
  split at h
  · cases h; rfl
  · exact State.extends_of_cmdStep h
  · exact State.extends_of_tickStep h

/-- Settles O56: every operation a step is made of goes up in `State.Extends`. -/
theorem parametersAndTrafficPersist : Obligations.ParametersAndTrafficPersist :=
  fun s t h => (s.extends_iff t).mp (State.extends_of_step h)

end Sys2Proof.Machine
end

section
/-! SUPPORT. The machine's invariant (10_state.md R32-R45, 42_tick_scheduler.md R217) holds of every state whose register
sets are all zero and whose lifecycle is right, and each shared operation keeps it. -/
namespace Sys2Proof.Machine

/-! ## Reading the invariant -/

theorem Sched.eq_mk {x : Sched} {p r : Bool} (hp : x.prepared = p) (hr : x.running = r) : x = ⟨p, r⟩ := by
  subst hp hr
  rfl

/-- Every register set that the state can read has R44: a set that does not exist reads as zero. -/
theorem State.Inv.chan {s : State} (h : s.Inv) (c : Nat) : (s.chan c).Inv := by
  obtain ⟨⟨-, hlen, -⟩, -, ⟨hinv, -⟩, -⟩ := h
  by_cases hc : c < s.params.nChMax
  · exact hinv c hc
  · have : s.chan c = ChannelRegs.zero := by simp [State.chan, List.getD, hlen, Nat.le_of_not_lt hc]
    exact this ▸ ChannelRegs.zero_inv

/-- CHANNEL_COUNT is within the register file, before INIT too (10_state.md R34). -/
theorem State.Inv.channelCount_le {s : State} (h : s.Inv) : s.ctrl.channelCount.toNat ≤ s.ch.length := by
  obtain ⟨⟨-, hlen, -⟩, ⟨-, -, hon, hoff⟩, -⟩ := h
  cases hi : s.ctrl.initialized with
  | true =>
    obtain ⟨-, -, hle⟩ := hon hi
    omega
  | false =>
    obtain ⟨-, hcount, -⟩ := hoff hi
    simp [hcount]

theorem State.Inv.running_of_armed {s : State} (h : s.Inv) {c : Nat} (hc : c < s.ctrl.channelCount.toNat)
    (ha : (s.chan c).armed = true) : s.sched.running = true := by
  obtain ⟨-, -, -, hrun, -⟩ := h
  exact hrun (s.anyArmed_eq_true_iff.mpr ⟨c, hc, ha⟩)

/-- PREPARED is INITIALIZED (R35). -/
theorem State.Inv.prepared_eq {s : State} (h : s.Inv) : s.sched.prepared = s.ctrl.initialized := by
  obtain ⟨-, ⟨hprep, -⟩, -⟩ := h
  exact hprep

/-- RUNNING implies PREPARED (R36). -/
theorem State.Inv.prepared_of_running {s : State} (h : s.Inv) (hrun : s.sched.running = true) :
    s.sched.prepared = true := by
  obtain ⟨-, ⟨-, himp, -⟩, -⟩ := h
  exact himp hrun

/-- A core that is not initialized holds no TimeSource handle and does not run (R35, R36). -/
theorem State.Inv.sched_of_uninitialized {s : State} (h : s.Inv) (hi : s.ctrl.initialized = false) :
    s.sched = ⟨false, false⟩ := by
  have hprep : s.sched.prepared = false := h.prepared_eq.trans hi
  refine Sched.eq_mk hprep ?_
  by_contra hrun
  simp [h.prepared_of_running (by simpa using hrun)] at hprep

/-! ## States with the same core -/

/-- The invariant speaks of the core and of the TimeSource requests, and of nothing else on the ports. -/
theorem State.Inv.congr {s t : State} (h : s.Inv) (hcore : s.SameCore t)
    (hreq : tsRequests t.ports.trace = tsRequests s.ports.trace) : t.Inv := by
  obtain ⟨params, ctrl, sched, ch, lut, ports⟩ := s
  obtain ⟨params', ctrl', sched', ch', lut', ports'⟩ := t
  obtain ⟨rfl, rfl, rfl, rfl, rfl⟩ := hcore
  obtain ⟨hshape, hlife, hchans, harmed, hts⟩ := h
  have hmode : timeSourceMode ports'.trace = timeSourceMode ports.trace := by
    simp only [timeSourceMode, hreq]
  exact ⟨hshape, hlife, hchans, harmed, hmode.trans hts⟩

theorem State.Inv.emit {s : State} (h : s.Inv) {e : Event} (he : tsRequests [e] = []) : (s.emit e).Inv :=
  h.congr ⟨rfl, rfl, rfl, rfl, rfl⟩ (by simp [tsRequests_append, he])

theorem State.Inv.respond {s : State} (h : s.Inv) (a : Status) (e : ChannelId) (d : Byte) : (s.respond a e d).Inv :=
  h.emit rfl

theorem State.Inv.tickRespond {s : State} (h : s.Inv) (a : Status) (e : ChannelId) : (s.tickRespond a e).Inv :=
  h.emit rfl

theorem State.Inv.raise {s : State} (h : s.Inv) (a : Status) : (s.raise a).Inv :=
  h.respond a 0#8 0#8

theorem State.Inv.tickAnswer {s : State} (h : s.Inv) (errch : Option ChannelId) : (s.tickAnswer errch).Inv := by
  cases errch with
  | none => exact h.tickRespond _ _
  | some c => exact h.tickRespond _ _

theorem State.Inv.sinkApply {s : State} (h : s.Inv) (c : ChannelId) (d : Nat) : (s.sinkApply c d).Inv := by
  refine h.congr ⟨rfl, rfl, rfl, rfl, rfl⟩ ?_
  rw [State.sinkApply_ports, tsRequests_append]
  exact List.append_nil _

theorem State.Inv.withCmdIn {s : State} (h : s.Inv) (items : List CmdItem) : (s.withCmdIn items).Inv :=
  h.congr ⟨rfl, rfl, rfl, rfl, rfl⟩ rfl

theorem State.Inv.withTickIn {s : State} (h : s.Inv) (ws : List Word) : (s.withTickIn ws).Inv :=
  h.congr ⟨rfl, rfl, rfl, rfl, rfl⟩ rfl

theorem State.chosen_trace (s : State) : s.chosen.ports.trace = s.ports.trace := by
  rcases s.chosen_cases with ⟨-, e⟩ | ⟨-, -, e⟩ | ⟨-, -, e⟩ <;> rw [e] <;> rfl

theorem State.Inv.chosen {s : State} (h : s.Inv) : s.chosen.Inv :=
  h.congr s.chosen_sameCore (by rw [State.chosen_trace])

theorem State.Inv.offers {s t : State} (h : s.Inv) (ho : State.Offers s t) : t.Inv :=
  h.congr ho.sameCore.1 (by rw [ho.sameCore.2])

/-! ## Zeroed channels: reset, INIT, DEINIT -/

/-- With every register set zero nothing is armed, so only the lifecycle and the TimeSource are left to check. -/
theorem State.inv_of_zeroed {s : State} (hlegal : s.params.Legal)
    (hch : s.ch = List.replicate s.params.nChMax ChannelRegs.zero) (hlut : s.lut = s.params.gammaDefault)
    (hlife : s.Lifecycle) (hts : timeSourceMode s.ports.trace = s.sched.mode) : s.Inv := by
  obtain ⟨-, -, htable, -⟩ := id hlegal
  have hzero (c : Nat) : s.chan c = ChannelRegs.zero := by
    rw [← s.chan_zeroChannels c, State.chan, State.chan, State.zeroChannels_ch, hch]
  refine ⟨⟨hlegal, by simp [hch], hlut ▸ htable⟩, hlife, ⟨fun c _ => ?_, fun c _ _ => hzero c⟩, fun ha => ?_, hts⟩
  · exact hzero c ▸ ChannelRegs.zero_inv
  · obtain ⟨c, -, hc⟩ := s.anyArmed_eq_true_iff.mp ha
    simp [hzero c, ChannelRegs.zero_not_armed] at hc

theorem State.resetWith_inv {p : Params} (hp : p.Legal) : (State.resetWith p).Inv :=
  State.inv_of_zeroed hp rfl rfl ⟨rfl, by simp [State.resetWith], by simp [State.resetWith],
    fun _ => ⟨rfl, rfl, rfl⟩⟩ rfl

/-! ## One channel -/

/-- A register set with R44 may be written to a channel in use, armed only while the scheduler runs. -/
theorem State.Inv.setChan {s : State} (h : s.Inv) {c : Nat} {r : ChannelRegs} (hc : c < s.ctrl.channelCount.toNat)
    (hr : r.Inv) (ha : r.armed = true → s.sched.running = true) : (s.setChan c r).Inv := by
  have hset : (s.setChan c r).chan c = r := State.chan_setChan_same r (hc.trans_le h.channelCount_le)
  have harmed {d : Nat} (hd : d < s.ctrl.channelCount.toNat) := h.running_of_armed hd
  obtain ⟨⟨hlegal, hlen, hlut⟩, hlife, ⟨hinv, hzero⟩, -, hts⟩ := h
  refine ⟨⟨hlegal, by simpa using hlen, hlut⟩, hlife, ⟨fun d hd => ?_, fun d hd hge => ?_⟩, fun hany => ?_, hts⟩
  · by_cases hcd : c = d
    · subst hcd; exact hset.symm ▸ hr
    · exact State.chan_setChan_other (s := s) r hcd ▸ hinv d hd
  · have hcd : c ≠ d := (hc.trans_le hge).ne
    exact (State.chan_setChan_other r hcd).trans (hzero d hd hge)
  · obtain ⟨d, hd, hda⟩ := (State.anyArmed_eq_true_iff _).mp hany
    by_cases hcd : c = d
    · subst hcd; exact ha (hset ▸ hda)
    · exact harmed hd (State.chan_setChan_other (s := s) r hcd ▸ hda)

/-! ## The scheduler and the TimeSource -/

/-- One request moves the TimeSource as R217 says. -/
theorem timeSourceMode_tsRequest (s : State) (r : TsRequest) :
    timeSourceMode (s.tsRequest r).ports.trace = timeSourceAfter (timeSourceMode s.ports.trace) r :=
  timeSourceMode_append s.ports.trace [.tsreq r]

/-- RUNNING may change with the request that tells the TimeSource so, if no armed channel is left without ticks. -/
theorem State.Inv.setRunning_tsRequest {s : State} (h : s.Inv) {b : Bool} {r : TsRequest}
    (harmed : s.anyArmed = true → b = true) (hprep : b = true → s.sched.prepared = true)
    (hmode : timeSourceAfter s.sched.mode r = Sched.mode ⟨s.sched.prepared, b⟩) :
    ((s.setRunning b).tsRequest r).Inv := by
  obtain ⟨hshape, ⟨hinit, -, hon, hoff⟩, hchans, -, hts⟩ := h
  refine ⟨hshape, ⟨hinit, hprep, hon, hoff⟩, hchans, harmed, ?_⟩
  rw [timeSourceMode_tsRequest, State.setRunning_ports, hts, hmode]
  rfl

theorem State.Inv.ensureRunning {s : State} (h : s.Inv) (hi : s.ctrl.initialized = true) : s.ensureRunning.Inv := by
  rcases s.ensureRunning_cases with ⟨-, e⟩ | ⟨hstop, e⟩ <;> rw [e]
  · exact h
  · have hprep : s.sched.prepared = true := h.prepared_eq.trans hi
    exact h.setRunning_tsRequest (fun _ => rfl) (fun _ => hprep) (by rw [Sched.eq_mk hprep hstop]; rfl)

theorem State.Inv.selfStopCheck {s : State} (h : s.Inv) (hrun : s.sched.running = true) : s.selfStopCheck.Inv := by
  rcases s.selfStopCheck_cases with ⟨-, e⟩ | ⟨hidle, e⟩ <;> rw [e]
  · exact h
  · have hprep := h.prepared_of_running hrun
    exact h.setRunning_tsRequest (by simp [hidle]) (by simp) (by rw [Sched.eq_mk hprep hrun]; rfl)

theorem State.ensureRunning_running (s : State) : s.ensureRunning.sched.running = true := by
  rcases s.ensureRunning_cases with ⟨h, e⟩ | ⟨-, e⟩ <;> rw [e]
  · exact h
  · rfl

@[simp] theorem State.ensureRunning_ctrl (s : State) : s.ensureRunning.ctrl = s.ctrl := by
  rcases s.ensureRunning_cases with ⟨-, e⟩ | ⟨-, e⟩ <;> rw [e]; rfl

@[simp] theorem State.ensureRunning_chan (s : State) (k : Nat) : s.ensureRunning.chan k = s.chan k := by
  rcases s.ensureRunning_cases with ⟨-, e⟩ | ⟨-, e⟩ <;> rw [e]; rfl

/-- Starting the scheduler first and arming the channel after it gives the same state, and each half then keeps the
invariant. -/
theorem State.ensureRunning_setChan (s : State) (c : Nat) (r : ChannelRegs) :
    (s.setChan c r).ensureRunning = s.ensureRunning.setChan c r := by
  simp only [State.ensureRunning, State.setChan_sched, apply_ite (State.setChan · c r)]
  rfl

/-- Arming a channel in use, with the scheduler started for it (42_tick_scheduler.md R212). -/
theorem State.Inv.setChan_ensureRunning {s : State} (h : s.Inv) (hi : s.ctrl.initialized = true) {c : Nat}
    (hc : c < s.ctrl.channelCount.toNat) {r : ChannelRegs} (hr : r.Inv) : (s.setChan c r).ensureRunning.Inv := by
  rw [State.ensureRunning_setChan]
  exact (h.ensureRunning hi).setChan (by simpa using hc) hr fun _ => s.ensureRunning_running

end Sys2Proof.Machine
end

section
/-! SUPPORT. What INIT leaves; every instruction, and so every step, keeps the machine's invariant. -/
namespace Sys2Proof.Machine

/-! ## Lifecycle commands -/

/-- All that a successful INIT does (10_state.md R54). -/
theorem State.initialize_eq (s : State) (ms : Millis) (n : BitVec 16) :
    s.initialize ms n =
      { s with
        ctrl := ⟨true, ms, n⟩
        sched := ⟨true, false⟩
        ch := List.replicate s.params.nChMax ChannelRegs.zero
        lut := s.params.gammaDefault
        ports :=
          { s.ports with
            trace := s.ports.trace ++ [.tsreq (.schedule ms)] ++ [.rsp (responseWord .ok 0#8 0#8)] } } := rfl

/-- Settles O14: the four checks of R243 pass, and the rest is `State.initialize_eq`. -/
theorem initEstablishesOperatingState : Obligations.InitEstablishesOperatingState := by
  intro s P N hoff hP hN hle
  have hinit : exec (.init P N) s = .next (s.initialize P N) := by
    simp [exec, execInit, hoff, hP, hN, Nat.not_lt.mpr hle]
  have hword : responseWord .ok 0#8 0#8 = 0#64 := by decide
  rw [hinit, State.initialize_eq, hword, List.append_assoc]
  rfl

theorem State.initialize_inv {s : State} (h : s.Inv) {ms : Millis} {n : BitVec 16}
    (hoff : s.ctrl.initialized = false) (hms : ms ≠ 0#32) (hn : n ≠ 0#16) (hle : n.toNat ≤ s.params.nChMax) :
    (s.initialize ms n).Inv := by
  have hsched := h.sched_of_uninitialized hoff
  obtain ⟨⟨hlegal, -⟩, -, -, -, hts⟩ := h
  have hms' : ms.toNat ≠ 0 := fun e => hms (BitVec.eq_of_toNat_eq e)
  have hn' : n.toNat ≠ 0 := fun e => hn (BitVec.eq_of_toNat_eq e)
  rw [State.initialize_eq]
  refine State.inv_of_zeroed hlegal rfl rfl ⟨rfl, by simp, fun _ => ?_, by simp⟩ ?_
  · exact ⟨Nat.pos_of_ne_zero hms', Nat.pos_of_ne_zero hn', hle⟩
  · rw [timeSourceMode_append, timeSourceMode_append, hts, hsched]
    rfl

/-- Stop and release leaves the TimeSource released, whether or not it ran (42_tick_scheduler.md R216, R217). -/
theorem timeSourceMode_stopAndRelease {s : State} (hts : timeSourceMode s.ports.trace = s.sched.mode)
    (hprep : s.sched.prepared = true) : timeSourceMode s.stopAndRelease.ports.trace = some .unprepared := by
  rw [State.stopAndRelease_eq, timeSourceMode_append, hts]
  cases hrun : s.sched.running <;> rw [Sched.eq_mk hprep hrun] <;> rfl

theorem State.Inv.deinitialize {s : State} (h : s.Inv) (hi : s.ctrl.initialized = true) : s.deinitialize.Inv := by
  obtain ⟨⟨hlegal, -⟩, ⟨hprep, -⟩, -, -, hts⟩ := h
  have hparams : s.stopAndRelease.params = s.params := by rw [State.stopAndRelease_eq]
  have hsched : s.stopAndRelease.sched = ⟨false, false⟩ := by rw [State.stopAndRelease_eq]
  refine State.Inv.respond (State.inv_of_zeroed ?_ rfl ?_ ⟨?_, ?_, by simp, fun _ => ⟨rfl, rfl, ?_⟩⟩ ?_) .ok 0#8 0#8
  · exact hparams ▸ hlegal
  · exact congrArg Params.gammaDefault hparams.symm
  · exact congrArg Sched.prepared hsched
  · simp [hsched]
  · exact congrArg Params.gammaDefault hparams.symm
  · exact (timeSourceMode_stopAndRelease hts (hprep.trans hi)).trans (congrArg Sched.mode hsched).symm

/-! ## Channel commands -/

theorem State.Inv.setNow {s : State} (h : s.Inv) {c : ChannelId} (hc : c.toNat < s.ctrl.channelCount.toNat)
    (v : Byte) : (s.setNow c v).Inv := by
  have hset : (s.setChan c.toNat ((s.chan c.toNat).setImmediate v)).Inv :=
    h.setChan hc (ChannelRegs.setImmediate_inv v (h.chan _)) (by simp [ChannelRegs.setImmediate, ChannelRegs.armed])
  unfold State.setNow
  dsimp only
  split <;> exact (hset.sinkApply _ _).respond _ _ _

theorem State.Inv.startFade {s : State} (h : s.Inv) {c : ChannelId} (hi : s.ctrl.initialized = true)
    (hc : c.toNat < s.ctrl.channelCount.toNat) (v : Byte) (ms : Millis) : (s.startFade c v ms).Inv :=
  (h.setChan_ensureRunning hi hc (ChannelRegs.setFade_inv v _ (h.chan _))).respond _ _ _

theorem State.Inv.startBlink {s : State} (h : s.Inv) {c : ChannelId} (hi : s.ctrl.initialized = true)
    (hc : c.toNat < s.ctrl.channelCount.toNat) (v : Byte) (ms : Millis) (smooth : Bool) :
    (s.startBlink c v ms smooth).Inv :=
  (h.setChan_ensureRunning hi hc (ChannelRegs.startLoop_inv v _ smooth)).respond _ _ _

theorem State.Inv.stopBlink {s : State} (h : s.Inv) {c : ChannelId} (hc : c.toNat < s.ctrl.channelCount.toNat) :
    (s.stopBlink c).Inv :=
  (h.setChan hc (ChannelRegs.stopLoop_inv (h.chan _)) (by simp [ChannelRegs.stopLoop, ChannelRegs.armed])).respond _ _ _

/-! ## The gamma table command -/

/-- Any 256 entries will do: the invariant asks validity of the default table only. -/
theorem State.Inv.replaceTable {s : State} (h : s.Inv) (hi : s.ctrl.initialized = true) (es : List Entry) :
    State.Inv { s with lut := overrideTable es } := by
  obtain ⟨⟨hlegal, hlen, -⟩, ⟨hprep, hrun, hon, -⟩, hchans, hsched⟩ := h
  exact ⟨⟨hlegal, hlen, by simp [overrideTable]⟩, ⟨hprep, hrun, hon, by simp [hi]⟩, hchans, hsched⟩

/-! ## A TICK -/

theorem tickVisit_ctrl (acc : State × Option ChannelId) (c : Nat) : (tickVisit acc c).1.ctrl = acc.1.ctrl := by
  rw [tickVisit, State.tickChannel_eq]
  split_ifs <;> rfl

theorem tickVisit_sched (acc : State × Option ChannelId) (c : Nat) : (tickVisit acc c).1.sched = acc.1.sched := by
  rw [tickVisit, State.tickChannel_eq]
  split_ifs <;> rfl

theorem State.Inv.tickVisit {acc : State × Option ChannelId} (h : acc.1.Inv) (hrun : acc.1.sched.running = true)
    {c : Nat} (hc : c < acc.1.ctrl.channelCount.toNat) : (tickVisit acc c).1.Inv := by
  rw [Machine.tickVisit, State.tickChannel_eq]
  split_ifs
  · exact (h.setChan hc (ChannelRegs.tick_inv (h.chan c)) fun _ => hrun).sinkApply _ _
  · exact h

theorem State.Inv.foldl_tickVisit {cs : List Nat} {acc : State × Option ChannelId} (h : acc.1.Inv)
    (hrun : acc.1.sched.running = true) (hcs : ∀ c ∈ cs, c < acc.1.ctrl.channelCount.toNat) :
    (cs.foldl Machine.tickVisit acc).1.Inv := by
  induction cs generalizing acc with
  | nil => exact h
  | cons c cs ih =>
    refine ih (h.tickVisit hrun (hcs c List.mem_cons_self)) ?_ fun d hd => ?_
    · rwa [tickVisit_sched]
    · rw [tickVisit_ctrl]
      exact hcs d (List.mem_cons_of_mem c hd)

theorem State.Inv.acceptedTick {s : State} (h : s.Inv) (hrun : s.sched.running = true) : s.acceptedTick.Inv := by
  have hvisited : s.tickChannels.1.Inv := h.foldl_tickVisit (acc := (s, none)) hrun fun _ => List.mem_range.mp
  have hsched : s.tickChannels.1.sched = s.sched := by rw [State.tickChannels_eq h.channelCount_le]; rfl
  exact (hvisited.selfStopCheck (hsched ▸ hrun)).tickAnswer _

/-! ## Every instruction -/

/-- A check with two outcomes: how each command answers (43_commands.md R240). -/
theorem State.Inv.ite {t u : State} {p : Prop} [Decidable p] (ht : p → t.Inv) (hu : ¬p → u.Inv) :
    (if p then t else u).Inv :=
  iteInduction (motive := State.Inv) ht hu

/-- From a state with the invariant an instruction answers a next state with it. -/
theorem exec_next_inv (i : Instr) {s : State} (h : s.Inv) : ∃ t, exec i s = .next t ∧ t.Inv :=
  have rejects := h.raise .invalidArgument
  have accepted {c : ChannelId} (hc : s.accepts c = true) := (s.accepts_iff c).mp hc
  match i with
  | .init ms n =>
    ⟨_, rfl, .ite (fun _ => rejects) fun hoff => .ite (fun _ => rejects) fun hms => .ite (fun _ => rejects) fun hn =>
      .ite (fun _ => h.raise _) fun hle => State.initialize_inv h (by simpa using hoff) hms hn (Nat.le_of_not_lt hle)⟩
  | .deinit => ⟨_, rfl, .ite (fun hi => h.deinitialize hi) fun _ => rejects⟩
  | .setChannel c v ms =>
    ⟨_, rfl, .ite
      (fun hc => .ite (fun _ => h.setNow (accepted hc).2 v) fun _ => h.startFade (accepted hc).1 (accepted hc).2 v ms)
      fun _ => rejects⟩
  | .startBlink c v ms smooth =>
    ⟨_, rfl, .ite (fun hc => h.startBlink (accepted hc).1 (accepted hc).2 v ms smooth) fun _ => rejects⟩
  | .stopBlink c => ⟨_, rfl, .ite (fun hc => h.stopBlink (accepted hc).2) fun _ => rejects⟩
  | .getChannel _ => ⟨_, rfl, .ite (fun _ => h.respond _ _ _) fun _ => rejects⟩
  | .setGammaTable _ es =>
    ⟨_, rfl, .ite (fun hi => .ite (fun _ => (h.replaceTable hi es).respond _ _ _) fun _ => rejects) fun _ => rejects⟩
  | .tick => ⟨_, rfl, .ite (fun hrun => h.acceptedTick hrun) fun _ => h⟩

theorem State.Inv.exec {i : Instr} {s t : State} (h : s.Inv) (hx : exec i s = .next t) : t.Inv := by
  obtain ⟨u, hu, hinv⟩ := exec_next_inv i h
  cases hu.symm.trans hx
  exact hinv

/-! ## Every step -/

theorem State.cmdOffered_of_nextPort {s : State} (h : s.nextPort = some .cmd) : s.cmdOffered = true := by
  unfold State.nextPort at h
  split at h <;> simp_all

theorem State.tickOffered_of_nextPort {s : State} (h : s.nextPort = some .tick) :
    s.sched.running = true ∧ ∃ w rest, s.ports.tickIn = w :: rest := by
  have hoffered : s.tickOffered = true := by
    unfold State.nextPort at h
    split at h <;> simp_all
  simpa [State.tickOffered, List.ne_nil_iff_exists_cons] using hoffered

theorem State.chosen_cmdIn (s : State) : s.chosen.ports.cmdIn = s.ports.cmdIn := by
  rcases s.chosen_cases with ⟨-, e⟩ | ⟨-, -, e⟩ | ⟨-, -, e⟩ <;> rw [e] <;> rfl

/-- All that a step can answer as its next state: it waits, runs an instruction, or rejects an illegal word, on CMD or
on TICK (30_encoding.md R111-R113, R117). -/
theorem step_next_cases {s t : State} (h : step s = .next t) :
    (s.nextPort = none ∧ t = s.chosen) ∨
    (s.nextPort = some .cmd ∧ ∃ i rest, decodeCmd s.ports.cmdIn = .instr i rest ∧
      exec i (s.chosen.withCmdIn rest) = .next t) ∨
    (s.nextPort = some .cmd ∧ ∃ why rest, decodeCmd s.ports.cmdIn = .illegal why rest ∧
      t = (s.chosen.withCmdIn rest).raise .invalidArgument) ∨
    (s.nextPort = some .tick ∧ ∃ w i rest, s.ports.tickIn = w :: rest ∧ decodeTick w = .instr i ∧
      exec i (s.chosen.withTickIn rest) = .next t) ∨
    (s.nextPort = some .tick ∧ ∃ w why rest, s.ports.tickIn = w :: rest ∧ decodeTick w = .illegal why ∧
      t = (s.chosen.withTickIn rest).tickRespond .invalidArgument 0#8) := by
  unfold step stepOnce at h
  split at h
  case h_1 hport => cases h; exact .inl ⟨hport, rfl⟩
  case h_2 hport =>
    have hoffered := State.cmdOffered_of_nextPort hport
    rw [cmdStep, State.chosen_cmdIn] at h
    split at h
    case h_1 i rest hdec => exact .inr (.inl ⟨hport, i, rest, hdec, h⟩)
    case h_2 why rest hdec => cases h; exact .inr (.inr (.inl ⟨hport, why, rest, hdec, rfl⟩))
    case h_3 hdec => simp [State.cmdOffered, hdec] at hoffered
    case h_4 => cases h
  case h_3 hport =>
    obtain ⟨hrun, w, rest, htick⟩ := State.tickOffered_of_nextPort hport
    simp only [tickStep, State.chosen_tickIn hrun, htick] at h
    split at h
    case h_1 i hdec => exact .inr (.inr (.inr (.inl ⟨hport, w, i, rest, htick, hdec, h⟩)))
    case h_2 why hdec => cases h; exact .inr (.inr (.inr (.inr ⟨hport, w, why, rest, htick, hdec, rfl⟩)))

/-- Settles O49: a step waits, runs an instruction or rejects a word, and each keeps the invariant. -/
theorem stepKeepsTheInvariant : Obligations.StepKeepsTheInvariant := by
  intro s t h hstep
  rcases step_next_cases hstep with ⟨-, rfl⟩ | ⟨-, i, rest, -, hx⟩ | ⟨-, why, rest, -, rfl⟩ |
    ⟨-, w, i, rest, -, -, hx⟩ | ⟨-, w, why, rest, -, -, rfl⟩
  · exact h.chosen
  · exact (h.chosen.withCmdIn rest).exec hx
  · exact (h.chosen.withCmdIn rest).raise _
  · exact (h.chosen.withTickIn rest).exec hx
  · exact (h.chosen.withTickIn rest).tickRespond _ _

/-! ## Reset, and every reachable state -/

theorem lutRead_tableOf {f : Nat → Nat} {i : Nat} (h : i < 255) : lutRead (tableOf f) i = BitVec.ofNat 16 (f i) := by
  simp [lutRead, tableOf, List.getD, List.getElem?_append, h]

theorem lutRead_tableOf_last (f : Nat → Nat) : lutRead (tableOf f) 255 = 0xFFFF#16 := by
  simp [lutRead, tableOf, List.getD]

/-- The linear table is valid at every duty resolution (40_gamma_lut.md R143). -/
theorem tableValid_buildOne (bits : Nat) : TableValid bits buildOne := by
  refine ⟨by simp [buildOne, tableOf], fun i hi => ?_, ?_⟩
  · by_cases hlast : i + 1 = 255
    · have := (lutRead buildOne i).isLt
      rw [hlast, buildOne, lutRead_tableOf_last]
      exact Nat.le_of_lt_succ this
    · rw [buildOne, lutRead_tableOf hi, lutRead_tableOf (by omega), BitVec.toNat_ofNat, BitVec.toNat_ofNat]
      omega
  · have : 1 ≤ 2 ^ (16 - bits) := Nat.one_le_two_pow
    rw [buildOne, lutRead_tableOf_last, BitVec.toNat_ofNat]
    omega

/-- The machine's parameters are legal ones, whatever was given (log 1). -/
theorem configParams_legal : Config.params.Legal := by
  unfold Config.params
  split
  · assumption
  · exact ⟨by decide, by decide, tableValid_buildOne _⟩

/-- Settles O50. -/
theorem resetHasTheInvariant : Obligations.ResetHasTheInvariant :=
  ⟨fun _ hp => State.resetWith_inv hp, ⟨Config.params, configParams_legal, rfl⟩,
    State.resetWith_inv configParams_legal⟩

/-- Settles O51, by induction on how the state is reached. -/
theorem reachableStatesHaveTheInvariant : Obligations.ReachableStatesHaveTheInvariant := by
  intro p s hp hs
  induction hs with
  | reset => exact ⟨State.resetWith_inv hp, rfl⟩
  | offer s t _ ho ih =>
    obtain ⟨hinv, hparams⟩ := ih
    obtain ⟨⟨hsame, -⟩, -⟩ := ho.sameCore
    exact ⟨hinv.offers ho, hsame.symm.trans hparams⟩
  | step s t _ hstep ih =>
    obtain ⟨hinv, hparams⟩ := ih
    exact ⟨stepKeepsTheInvariant s t hinv hstep, (State.extends_of_step hstep).1.trans hparams⟩

/-- Settles O53: a falling half has come down from `target`, a rising half has its way still to go, and neither is
longer than the half-period (10_state.md R44 item 4). -/
theorem loopStaysInItsRange : Obligations.LoopStaysInItsRange := by
  rintro r ⟨-, -, hloop⟩ hhalf hstep
  obtain ⟨hle, hfall, hrise, -⟩ := hloop hhalf
  have hrem : (0 : Int) ≤ r.remainingTicks.toNat := by omega
  have hleft : (0 : Int) ≤ r.halfPeriodTicks.toNat - r.remainingTicks.toNat := by omega
  rcases lt_or_gt_of_ne ((step_ne_zero_iff _).mp hstep) with hneg | hpos
  · obtain ⟨hcur, hlow⟩ := hfall hneg
    have hdown := mul_nonpos_of_nonpos_of_nonneg hneg.le hleft
    have htotal := mul_nonpos_of_nonpos_of_nonneg hneg.le hrem
    rw [abs_of_neg hneg]
    exact ⟨by linarith, by linarith, by omega⟩
  · obtain ⟨hcur, hlow⟩ := hrise hpos
    have hup := mul_nonneg hpos.le hrem
    have htotal := mul_nonneg hpos.le hleft
    rw [abs_of_pos hpos]
    exact ⟨by linarith, by linarith, by omega⟩

end Sys2Proof.Machine
end

section
/-! SUPPORT. One channel along a run of instructions that spare it: the TICKs among them are all that it sees
(spec/41_fade_engine.md R183-R188). -/
namespace Sys2Proof.Machine

/-! ## One instruction -/

/-- What a command that spares channel `c` leaves alone: the control fields and the channel's register set. -/
def State.Spares (c : Nat) (s t : State) : Prop := t.ctrl = s.ctrl ∧ t.chan c = s.chan c

theorem State.Spares.ite {c : Nat} {s t u : State} {p : Prop} [Decidable p] (ht : State.Spares c s t)
    (hu : State.Spares c s u) : State.Spares c s (if p then t else u) := by
  split <;> assumption

theorem State.setNow_spares (s : State) {c : Nat} {d : ChannelId} (hd : d.toNat ≠ c) (v : Byte) :
    State.Spares c s (s.setNow d v) := by
  unfold State.setNow
  dsimp only
  split <;> exact ⟨rfl, State.chan_setChan_other (s := s) _ hd⟩

theorem State.setChan_ensureRunning_spares (s : State) {c d : Nat} (hd : d ≠ c) (r : ChannelRegs) :
    State.Spares c s ((s.setChan d r).ensureRunning.respond .ok 0#8 0#8) :=
  ⟨by simp, by simp [hd]⟩

/-- On an initialized core a command that spares a channel leaves it, and the control fields, as they are. -/
theorem exec_next_spares {s : State} {c : ChannelId} {i : Instr} (hi : s.ctrl.initialized = true)
    (hspare : sparesChannel c i = true) (htick : i ≠ .tick) :
    ∃ t, exec i s = .next t ∧ State.Spares c.toNat s t :=
  have answers (a : Status) (e : ChannelId) (d : Byte) : State.Spares c.toNat s (s.respond a e d) := ⟨rfl, rfl⟩
  have rejects : State.Spares c.toNat s (s.raise .invalidArgument) := answers _ _ _
  have other {d : ChannelId} (h : (d != c) = true) : d.toNat ≠ c.toNat := by simpa [BitVec.toNat_inj] using h
  match i with
  | .init ms n => ⟨s.raise .invalidArgument, by simp [exec, execInit, hi], rejects⟩
  | .setChannel d v ms =>
    ⟨_, rfl, .ite (.ite (s.setNow_spares (other hspare) v) (s.setChan_ensureRunning_spares (other hspare) _)) rejects⟩
  | .startBlink d v ms smooth => ⟨_, rfl, .ite (s.setChan_ensureRunning_spares (other hspare) _) rejects⟩
  | .stopBlink d => ⟨_, rfl, .ite ⟨rfl, State.chan_setChan_other (s := s) _ (other hspare)⟩ rejects⟩
  | .getChannel _ => ⟨_, rfl, .ite (answers _ _ _) rejects⟩
  | .setGammaTable _ es => ⟨_, rfl, .ite (.ite ⟨rfl, rfl⟩ rejects) rejects⟩
  | .deinit => by simp [sparesChannel] at hspare
  | .tick => absurd rfl htick

@[simp] theorem State.selfStopCheck_ctrl (s : State) : s.selfStopCheck.ctrl = s.ctrl := by
  rcases s.selfStopCheck_cases with ⟨-, e⟩ | ⟨-, e⟩ <;> rw [e]; rfl

@[simp] theorem State.selfStopCheck_chan (s : State) (k : Nat) : s.selfStopCheck.chan k = s.chan k := by
  rcases s.selfStopCheck_cases with ⟨-, e⟩ | ⟨-, e⟩ <;> rw [e]; rfl

@[simp] theorem State.tickAnswer_ctrl (s : State) (errch : Option ChannelId) : (s.tickAnswer errch).ctrl = s.ctrl := by
  cases errch <;> rfl

@[simp] theorem State.tickAnswer_chan (s : State) (errch : Option ChannelId) (k : Nat) :
    (s.tickAnswer errch).chan k = s.chan k := by
  cases errch <;> rfl

theorem State.acceptedTick_ctrl {s : State} (h : s.ctrl.channelCount.toNat ≤ s.ch.length) :
    s.acceptedTick.ctrl = s.ctrl := by
  simp [State.acceptedTick, State.tickChannels_eq h, State.tickedTo]

/-- An accepted TICK ticks every channel in use and no other (42_tick_scheduler.md R214). -/
theorem State.acceptedTick_chan {s : State} (h : s.ctrl.channelCount.toNat ≤ s.ch.length) (c : Nat) :
    s.acceptedTick.chan c = if c < s.ctrl.channelCount.toNat then (s.chan c).tick else s.chan c := by
  simp only [State.acceptedTick, State.tickAnswer_chan, State.selfStopCheck_chan, State.tickChannels_eq h]
  exact s.tickedBelow_getD _ c

/-- TICK ticks a channel in use whether or not the scheduler runs: while it is stopped no channel is armed, and a TICK
changes no channel that is not armed. -/
theorem execTick_next_chan {s : State} (h : s.Inv) {c : Nat} (hc : c < s.ctrl.channelCount.toNat) :
    ∃ t, exec .tick s = .next t ∧ t.ctrl = s.ctrl ∧ t.chan c = (s.chan c).tick := by
  rcases execTick_cases s with ⟨-, e⟩ | ⟨hstop, e⟩
  · exact ⟨_, e, State.acceptedTick_ctrl h.channelCount_le,
      (State.acceptedTick_chan h.channelCount_le c).trans (if_pos hc)⟩
  · have hidle : (s.chan c).armed = false := by
      by_contra ha
      simp [h.running_of_armed hc (by simpa using ha)] at hstop
    exact ⟨s, e, rfl, (ChannelRegs.tick_of_not_armed hidle).symm⟩

/-! ## A run -/

/-- Along instructions that spare a channel in use, it sees one `ChannelRegs.tick` for each TICK and nothing else. -/
theorem runInstrs_chan {c : ChannelId} {is : List Instr} {s : State} (h : s.Inv) (hi : s.ctrl.initialized = true)
    (hc : c.toNat < s.ctrl.channelCount.toNat) (hspare : ∀ i ∈ is, sparesChannel c i = true) :
    ∃ u, runInstrs is s = .next u ∧ u.Inv ∧ u.ctrl = s.ctrl ∧
      u.chan c.toNat = ChannelRegs.tick^[is.count .tick] (s.chan c.toNat) := by
  induction is generalizing s with
  | nil => exact ⟨s, rfl, h, rfl, rfl⟩
  | cons i is ih =>
    obtain ⟨hspare_i, hspare_is⟩ := List.forall_mem_cons.mp hspare
    obtain ⟨t, hx, hctrl, hchan⟩ : ∃ t, exec i s = .next t ∧ t.ctrl = s.ctrl ∧
        t.chan c.toNat = if i = .tick then (s.chan c.toNat).tick else s.chan c.toNat := by
      by_cases htick : i = .tick
      · simpa only [htick, if_true] using execTick_next_chan h hc
      · simp only [if_neg htick]
        exact exec_next_spares hi hspare_i htick
    obtain ⟨u, hu, hinv, hctrl', hchan'⟩ := ih (h.exec hx) (hctrl ▸ hi) (hctrl ▸ hc) hspare_is
    refine ⟨u, by simpa only [runInstrs, hx] using hu, hinv, hctrl'.trans hctrl, ?_⟩
    rw [hchan', hchan, List.count_cons]
    by_cases htick : i = .tick <;> simp [htick]

/-! ## A fade stays between its start and its end -/

/-- A channel on no loop whose brightness and target lie between `lo` and `hi`. -/
def ChannelRegs.FadeWithin (lo hi : Nat) (r : ChannelRegs) : Prop :=
  r.Inv ∧ r.halfPeriodTicks = 0#32 ∧ (lo ≤ r.cur.toNat ∧ r.cur.toNat ≤ hi) ∧ lo ≤ r.target.toNat ∧ r.target.toNat ≤ hi

/-- One step of a ramp does not pass `target` (10_state.md R44 item 3, 41_fade_engine.md R179). -/
theorem ChannelRegs.countDown_between {r : ChannelRegs} (h : r.Inv) (hhalf : r.halfPeriodTicks = 0#32)
    (hr : 0 < r.remainingTicks.toNat) :
    min r.cur.toNat r.target.toNat ≤ r.countDown.cur.toNat ∧
      r.countDown.cur.toNat ≤ max r.cur.toNat r.target.toNat := by
  by_cases hlast : r.remainingTicks - 1#32 = 0#32
  · have hsnap : r.countDown.cur = r.target := by simp [ChannelRegs.countDown, hlast, hhalf]
    rw [hsnap]
    omega
  · have hcur := ChannelRegs.countDown_cur h hr fun hsnap => hlast hsnap.1
    obtain ⟨-, hfade, -⟩ := h
    have hone : (1 : Int) ≤ r.remainingTicks.toNat := by omega
    rcases hfade hhalf hr with ⟨hup, hle⟩ | ⟨hdown, hle⟩
    · have hstep : 0 ≤ r.step.toInt := nonneg_of_mul_nonneg_left hup (by omega)
      have := le_mul_of_one_le_right hstep hone
      omega
    · have hstep : r.step.toInt ≤ 0 := nonpos_of_mul_nonpos_left hdown (by omega)
      have := mul_le_of_one_le_right hstep hone
      omega

theorem ChannelRegs.FadeWithin.tick {lo hi : Nat} {r : ChannelRegs} (h : r.FadeWithin lo hi) :
    r.tick.FadeWithin lo hi := by
  obtain ⟨hinv, hhalf, ⟨hlo, hhi⟩, htarget⟩ := h
  obtain ⟨hhalf', htarget'⟩ := r.tick_half_target
  refine ⟨ChannelRegs.tick_inv hinv, hhalf'.trans hhalf, ?_, htarget' ▸ htarget⟩
  rcases r.tick_cases with ⟨hr, e⟩ | ⟨-, hp, -⟩ | ⟨-, e⟩
  · have := ChannelRegs.countDown_between hinv hhalf hr
    rw [e]
    omega
  · simp [hhalf] at hp
  · rw [e]
    exact ⟨hlo, hhi⟩

theorem ChannelRegs.setFade_fadeWithin {r : ChannelRegs} (h : r.Inv) (v : Byte) (n : Ticks) :
    (r.setFade v n).FadeWithin (min r.cur.toNat (v.toNat * 256)) (max r.cur.toNat (v.toNat * 256)) := by
  have hcur : (r.setFade v n).cur = r.cur := rfl
  have htarget : (r.setFade v n).target.toNat = v.toNat * 256 := toQ88_toNat v
  refine ⟨ChannelRegs.setFade_inv v n h, rfl, ?_, ?_⟩
  · simp [hcur]
  · simp [htarget]

/-- Settles O34: SetFade puts `cur` and `target` into the interval, and every TICK keeps them there. -/
theorem fadeNeverLeavesItsInterval : Obligations.FadeNeverLeavesItsInterval := by
  intro s u c v ms is h hpresent hms hspare hrun
  obtain ⟨hi, hc, hlen⟩ := hpresent
  have hx : exec (.setChannel c v ms) s = .next (s.startFade c v ms) := by
    simp [exec, execSetChannel, (s.accepts_iff c).mpr ⟨hi, hc⟩, hms]
  have hctrl : (s.startFade c v ms).ctrl = s.ctrl := by simp [State.startFade]
  have hchan : (s.startFade c v ms).chan c.toNat =
      (s.chan c.toNat).setFade v (fadeTicks s.ctrl.tickPeriodMs ms) := by simp [State.startFade, hlen]
  obtain ⟨u', hu', -, -, hticks⟩ :=
    runInstrs_chan (h.startFade hi hc v ms) (hctrl ▸ hi) (hctrl ▸ hc) hspare
  obtain rfl : u = u' := by
    simp only [runInstrs, hx, hu'] at hrun
    cases hrun
    rfl
  have hwithin := Function.Iterate.rec (ChannelRegs.FadeWithin _ _) 
    (ChannelRegs.setFade_fadeWithin (h.chan c.toNat) v (fadeTicks s.ctrl.tickPeriodMs ms))
    (fun _ => ChannelRegs.FadeWithin.tick) (is.count .tick)
  rw [← hchan, ← hticks] at hwithin
  obtain ⟨-, -, hcur, -⟩ := hwithin
  exact hcur

end Sys2Proof.Machine
end

section
/-! SUPPORT. Words and entries as little-endian bytes, and what the readers of a byte-wide transport make of them
(20_memory.md R73, R75). -/
namespace Sys2Proof

/-! ## Bytes of a number -/

/-- Byte `k` of a bit vector's number carries its bits `8k+7:8k` (R73). -/
theorem bytesOfNat_toNat {m : Nat} (n : Nat) (x : BitVec m) :
    bytesOfNat n x.toNat = (List.range n).map fun k => x.extractLsb' (8 * k) 8 := by
  have digits (y : Nat) : bytesOfNat n y = (List.range n).map fun k => BitVec.ofNat 8 (y / 256 ^ k) := by
    induction n generalizing y with
    | zero => rfl
    | succ n ih => simp [bytesOfNat, ih, List.range_succ_eq_map, Nat.div_div_eq_div_mul, Nat.pow_succ']
  rw [digits]
  congr with k
  rw [BitVec.extractLsb', Nat.shiftRight_eq_div_pow, Nat.pow_mul]

/-- The reader's number of the `n` low bytes: nothing above them comes back. -/
theorem natOfBytes_bytesOfNat (n x : Nat) : natOfBytes (bytesOfNat n x) = x % 256 ^ n := by
  induction n generalizing x with
  | zero => simp [bytesOfNat, natOfBytes, Nat.mod_one]
  | succ n ih =>
    rw [bytesOfNat, natOfBytes, ih, BitVec.toNat_ofNat]
    calc x % 256 + 256 * (x / 256 % 256 ^ n)
        = x % (256 * 256 ^ n) := Nat.mod_mul.symm
      _ = x % 256 ^ (n + 1) := by rw [Nat.pow_succ']

/-- A vector of `n` whole bytes is read back from them. -/
theorem ofNat_natOfBytes_bytesOfNat {n : Nat} (x : BitVec (8 * n)) :
    BitVec.ofNat (8 * n) (natOfBytes (bytesOfNat n x.toNat)) = x := by
  have hlt : x.toNat < 256 ^ n := by simpa [Nat.pow_mul] using x.isLt
  rw [natOfBytes_bytesOfNat, Nat.mod_eq_of_lt hlt, BitVec.ofNat_toNat, BitVec.setWidth_eq]

/-! ## One word -/

@[simp] theorem length_bytesOfWord (w : Word) : (bytesOfWord w).length = 8 := rfl

theorem getElem?_bytesOfWord (w : Word) {k : Nat} (hk : k < 8) :
    (bytesOfWord w)[k]? = some (w.extractLsb' (8 * k) 8) := by
  simp [bytesOfWord, bytesOfNat_toNat, hk]

/-- The eight bytes of a word are read back as it, and what follows them is left. -/
theorem takeWord_bytesOfWord (w : Word) (bs : List Byte) : takeWord (bytesOfWord w ++ bs) = some (w, bs) :=
  congrArg (fun v => some (v, bs)) (ofNat_natOfBytes_bytesOfNat (n := 8) w)

/-- A word in part delivers no word (R75). -/
theorem takeWord_eq_none {bs : List Byte} (h : bs.length < 8) : takeWord bs = none := by
  unfold takeWord
  split
  · simp only [List.length_cons] at h
    omega
  · rfl

/-! ## Payload entries -/

theorem bytesOfEntry_eq (e : Entry) : bytesOfEntry e = [e.extractLsb' 0 8, e.extractLsb' 8 8] :=
  bytesOfNat_toNat 2 e

theorem entriesOfBytes_bytesOfEntry (n : Nat) (e : Entry) (bs : List Byte) :
    entriesOfBytes (n + 1) (bytesOfEntry e ++ bs) = (e :: (entriesOfBytes n bs).1, (entriesOfBytes n bs).2) :=
  congrArg (fun d => (d :: (entriesOfBytes n bs).1, (entriesOfBytes n bs).2)) (ofNat_natOfBytes_bytesOfNat (n := 2) e)

/-- A whole payload is read back, entry 0 first, and what follows it is left. -/
theorem entriesOfBytes_flatMap (es : List Entry) (bs : List Byte) :
    entriesOfBytes es.length (es.flatMap bytesOfEntry ++ bs) = (es, bs) := by
  induction es with
  | nil => rfl
  | cons e es ih =>
    rw [List.flatMap_cons, List.append_assoc, List.length_cons, entriesOfBytes_bytesOfEntry, ih]

/-! ## The transfers of a CMD byte stream -/

/-- The bytes of one whole transaction deliver its word and its entries, then what follows delivers the rest. -/
theorem cmdItemsOfBytes_transaction {w : Word} {es : List Entry} (h : es.length = payloadLength w) (fuel : Nat)
    (bs : List Byte) :
    cmdItemsOfBytes (fuel + 1) (bytesOfWord w ++ (es.flatMap bytesOfEntry ++ bs)) =
      .word w :: es.map .entry ++ cmdItemsOfBytes fuel bs := by
  simp only [cmdItemsOfBytes, takeWord_bytesOfWord, ← h, entriesOfBytes_flatMap, if_true]

theorem cmdItemsOfBytes_eq_nil (fuel : Nat) {bs : List Byte} (h : bs.length < 8) : cmdItemsOfBytes fuel bs = [] := by
  cases fuel with
  | zero => rfl
  | succ fuel => simp only [cmdItemsOfBytes, takeWord_eq_none h]

theorem decodeCmdBytes_of_part {bs : List Byte} (h : bs.length < 8) : decodeCmdBytes bs = .pending := by
  rw [decodeCmdBytes, cmdItemsOfBytes_eq_nil _ h]
  rfl

theorem decodeTickBytes_of_part {bs : List Byte} (h : bs.length < 8) : decodeTickBytes bs = none := by
  rw [decodeTickBytes, takeWord_eq_none h]
  rfl

/-! ## The bytes of an instruction -/

theorem encodeBytes_eq (i : Instr) :
    encodeBytes i = bytesOfWord (encodeWord i) ++ (encodePayload i).flatMap bytesOfEntry := by
  rw [encodeBytes, encode, List.flatMap_cons, List.flatMap_map]
  rfl

end Sys2Proof

namespace Sys2Proof.Machine

/-! ## Response words on a byte-wide transport -/

theorem length_wireBytes (ws : List Word) : (wireBytes ws).length = 8 * ws.length := by
  simp [wireBytes, List.length_flatMap, Nat.mul_comm]

theorem wireWordsUpTo_wireBytes (ws : List Word) {part : List Byte} (hpart : part.length < 8) {fuel : Nat}
    (hfuel : ws.length ≤ fuel) : wireWordsUpTo fuel (wireBytes ws ++ part) = ws := by
  induction fuel generalizing ws with
  | zero => simp [wireWordsUpTo, List.length_eq_zero_iff.mp (Nat.le_zero.mp hfuel)]
  | succ fuel ih =>
    cases ws with
    | nil => simp only [wireBytes, List.flatMap_nil, List.nil_append, wireWordsUpTo, takeWord_eq_none hpart]
    | cons w ws =>
      have hbytes : wireBytes (w :: ws) ++ part = bytesOfWord w ++ (wireBytes ws ++ part) := by simp [wireBytes]
      simp only [hbytes, wireWordsUpTo, takeWord_bytesOfWord, ih ws (Nat.le_of_succ_le_succ hfuel)]

/-- The reader gets the words back, whatever part of a further word follows them (R75). -/
theorem wireWords_wireBytes (ws : List Word) {part : List Byte} (hpart : part.length < 8) :
    wireWords (wireBytes ws ++ part) = ws :=
  wireWordsUpTo_wireBytes ws hpart (by rw [List.length_append, length_wireBytes]; omega)

/-- Settles O59, from the bytes of one word and by induction on the words sent. -/
theorem wireIsLittleEndian : Obligations.WireIsLittleEndian :=
  ⟨fun w => ⟨length_bytesOfWord w, fun _ hk => getElem?_bytesOfWord w hk⟩, bytesOfEntry_eq, encodeBytes_eq,
    fun es _ hpart =>
      ⟨length_wireBytes (rspWords es), wireWords_wireBytes (rspWords es) hpart,
        length_wireBytes (trspWords es), wireWords_wireBytes (trspWords es) hpart⟩⟩

end Sys2Proof.Machine
end

section
/-! SUPPORT. The decoder reads an instruction's own transfers, and so its bytes (30_encoding.md R107, R115-R117). -/
namespace Sys2Proof

/-- The per-instruction laws of the opcode map, as one. -/
theorem Instr.ownRow : ∀ i : Instr, Laws.OwnRow.Statement i
  | .init ms n => Laws.OwnRow.init ms n
  | .deinit => Laws.OwnRow.deinit
  | .setChannel c v ms => Laws.OwnRow.setChannel c v ms
  | .startBlink c v ms smooth => Laws.OwnRow.startBlink c v ms smooth
  | .stopBlink c => Laws.OwnRow.stopBlink c
  | .getChannel c => Laws.OwnRow.getChannel c
  | .setGammaTable n es => Laws.OwnRow.setGammaTable n es
  | .tick => Laws.OwnRow.tick

/-- The operands of R110, taken from an instruction's own word and payload, are its own. -/
theorem instrOf_encode (i : Instr) : instrOf i.mnemonic (encodeWord i) (encodePayload i) = i := by
  cases i with
  | init ms n => simp only [Instr.mnemonic, instrOf, fieldARG_init, fieldCNT_init]
  | setChannel c v ms =>
    obtain ⟨-, hch, hval, harg⟩ := fields_setChannel c v ms
    simp only [Instr.mnemonic, instrOf, hch, hval, harg]
  | startBlink c v ms smooth =>
    obtain ⟨-, hch, hval, harg⟩ := fields_startBlink c v ms smooth
    simp only [Instr.mnemonic, instrOf, hch, hval, harg, fieldSM_startBlink]
  | stopBlink c => simp only [Instr.mnemonic, instrOf, (fields_stopBlink c).2]
  | getChannel c => simp only [Instr.mnemonic, instrOf, (fields_getChannel c).2]
  | setGammaTable n es => simp only [Instr.mnemonic, instrOf, encodePayload, (fields_setGammaTable n es).2]
  | deinit => rfl
  | tick => rfl

theorem payloadLength_eq_zero {w : Word} {opc : BitVec 8} (h : fieldOPC w = opc) (hopc : opc ≠ 0x07#8) :
    payloadLength w = 0 :=
  if_neg (h ▸ hopc)

/-- A well-formed instruction has as many payload entries as its word announces (R115). -/
theorem length_encodePayload {i : Instr} (h : i.WellFormed) :
    (encodePayload i).length = payloadLength (encodeWord i) := by
  cases i with
  | init ms n => exact (payloadLength_eq_zero (fieldOPC_init ms n) (by decide)).symm
  | setChannel c v ms => exact (payloadLength_eq_zero (fields_setChannel c v ms).1 (by decide)).symm
  | startBlink c v ms smooth => exact (payloadLength_eq_zero (fields_startBlink c v ms smooth).1 (by decide)).symm
  | stopBlink c => exact (payloadLength_eq_zero (fields_stopBlink c).1 (by decide)).symm
  | getChannel c => exact (payloadLength_eq_zero (fields_getChannel c).1 (by decide)).symm
  | setGammaTable n es =>
    obtain ⟨hopc, hlen⟩ := fields_setGammaTable n es
    have hes : es.length = n.toNat := by simpa [Instr.WellFormed, Instr.wellFormed] using h
    rw [payloadLength, if_pos hopc, hlen, encodePayload, hes]
  | deinit => decide
  | tick => decide

/-- A well-formed command's transfers, with anything after them, are read back as it. -/
theorem decodeCmd_encode_append {i : Instr} (h : i.WellFormed) (hport : i.port = .cmd) (rest : List CmdItem) :
    decodeCmd (encode i ++ rest) = .instr i rest := by
  obtain ⟨r, hrow, hmnem⟩ : ∃ r, rowFor .cmd (encodeWord i) = some r ∧ r.mnemonic = i.mnemonic := by
    simpa only [Laws.OwnRow.Statement, Option.map_eq_some_iff, hport] using i.ownRow
  have htake := takeEntries_map (encodePayload i) rest
  rw [length_encodePayload h] at htake
  simp only [encode, List.cons_append, decodeCmd, htake, hrow, hmnem, instrOf_encode]

/-- The bytes of a well-formed instruction deliver its transfers and nothing else. -/
theorem cmdItemsOfBytes_encodeBytes {i : Instr} (h : i.WellFormed) (fuel : Nat) :
    cmdItemsOfBytes (fuel + 1) (encodeBytes i) = encode i := by
  have hitems := cmdItemsOfBytes_transaction (length_encodePayload h) fuel []
  rwa [List.append_nil, ← encodeBytes_eq, cmdItemsOfBytes_eq_nil fuel (by decide), List.append_nil] at hitems

theorem decodeCmdBytes_encodeBytes {i : Instr} (h : i.WellFormed) (hport : i.port = .cmd) :
    decodeCmdBytes (encodeBytes i) = .instr i [] := by
  obtain ⟨fuel, hfuel⟩ : ∃ fuel, (encodeBytes i).length = fuel + 1 := by
    rw [encodeBytes_eq, List.length_append, length_bytesOfWord]
    exact Nat.exists_eq_add_one.mpr (by omega)
  rw [decodeCmdBytes, hfuel, cmdItemsOfBytes_encodeBytes h, ← List.append_nil (encode i),
    decodeCmd_encode_append h hport]

theorem decodeTickBytes_bytesOfWord (w : Word) : decodeTickBytes (bytesOfWord w) = some (decodeTick w) := by
  have hread := takeWord_bytesOfWord w []
  rw [List.append_nil] at hread
  rw [decodeTickBytes, hread]
  rfl

/-- Settles O3: a transaction's bytes deliver its transfers, which decode to it. -/
theorem bytesDecodeToTheirCommand : Obligations.BytesDecodeToTheirCommand := by
  have hbytes : encodeBytes .tick = bytesOfWord (encodeWord .tick) := by simp [encodeBytes_eq, encodePayload]
  have htick : decodeTick (encodeWord .tick) = .instr .tick := by decide
  exact ⟨fun _ h hport => decodeCmdBytes_encodeBytes h hport, by rw [hbytes, decodeTickBytes_bytesOfWord, htick],
    fun _ h => ⟨decodeCmdBytes_of_part h, decodeTickBytes_of_part h⟩⟩

end Sys2Proof
end

section
/-! SUPPORT. Which port goes first (20_memory.md R79). -/
namespace Sys2Proof.Machine

theorem State.nextPort_of_both_offered {s : State} (hcmd : s.cmdOffered = true) (htick : s.tickOffered = true) :
    s.nextPort = some s.turn := by
  rw [State.nextPort, hcmd, htick]

/-- Settles O11: what is offered does not depend on the choices, and the turn is the first of them. -/
theorem eitherPortMayGoFirst : Obligations.EitherPortMayGoFirst :=
  fun _ _ _ hcmd htick => State.nextPort_of_both_offered hcmd htick

end Sys2Proof.Machine
end

section
/-! SUPPORT. The converse: what the decoder reads as an instruction is that instruction's encoding
(30_encoding.md R101-R107, R117). -/
namespace Sys2Proof

/-! ## Fields -/

/-- A field put back at its place is the word's own bits there. -/
theorem place_extractLsb' (w : Word) (lo n : Nat) :
    place (w.extractLsb' lo n) lo = w &&& place (BitVec.allOnes n) lo := by
  apply BitVec.eq_of_getLsbD_eq
  intro i hi
  by_cases hlo : i < lo
  · simp [place, hlo]
  · have hbit : lo + (i - lo) = i := by omega
    simp [place, hlo, hi, hbit, Bool.and_comm]

/-- `SM` as one bit is the word's bit 32. -/
theorem ofBool_fieldSM (w : Word) : BitVec.ofBool (fieldSM w) = w.extractLsb' 32 1 := by
  have bit : ∀ x : BitVec 1, BitVec.ofBool (x == 1#1) = x := by decide
  exact bit _

/-! ## Rows -/

theorem OpcodeRow.holds_iff {r : OpcodeRow} {w : Word} : r.holds w = true ↔ w &&& r.mask = r.pattern :=
  beq_iff_eq

theorem rowFor_eq_some_cases {p : Port} {w : Word} {r : OpcodeRow} (h : rowFor p w = some r) :
    r ∈ opcodeRows ∧ r.port = p ∧ r.holds w = true := by
  have hfound := List.find?_some h
  rw [Bool.and_eq_true, beq_iff_eq] at hfound
  exact ⟨List.mem_of_find?_eq_some h, hfound⟩

/-- A row's instruction belongs to the row's port, whatever its operands. -/
theorem port_instrOf {r : OpcodeRow} (hr : r ∈ opcodeRows) (w : Word) (es : List Entry) :
    (instrOf r.mnemonic w es).port = r.port := by
  have ports : ∀ q ∈ opcodeRows, q.port = if q.mnemonic = .tick then .tick else .cmd := by decide
  rw [ports r hr]
  cases r.mnemonic <;> rfl

/-- The encoder writes back the row's opcode and every bit that the row's mask leaves free. -/
theorem encodeWord_instrOf {r : OpcodeRow} (hr : r ∈ opcodeRows) (w : Word) (es : List Entry) :
    encodeWord (instrOf r.mnemonic w es) = r.pattern ||| (w &&& ~~~r.mask) := by
  simp only [opcodeRows, List.mem_cons, List.not_mem_nil, or_false] at hr
  rcases hr with rfl | rfl | rfl | rfl | rfl | rfl | rfl | rfl <;>
    simp only [instrOf, encodeWord, fieldARG, fieldCNT, fieldCH, fieldVAL, fieldLEN, ofBool_fieldSM,
      place_extractLsb', BitVec.or_assoc, ← BitVec.and_or_distrib_left]
  all_goals simp [place]

/-- A word that holds a row is the word of the row's instruction. -/
theorem encodeWord_instrOf_of_holds {r : OpcodeRow} (hr : r ∈ opcodeRows) {w : Word} (h : r.holds w = true)
    (es : List Entry) : encodeWord (instrOf r.mnemonic w es) = w := by
  rw [encodeWord_instrOf hr, ← OpcodeRow.holds_iff.mp h, ← BitVec.and_or_distrib_left, BitVec.or_not_self,
    BitVec.and_allOnes]

/-- The row of SET_GAMMA_TABLE is that of the opcode with a payload (30_encoding.md R115). -/
theorem fieldOPC_eq_setGammaTable_iff {r : OpcodeRow} (hr : r ∈ opcodeRows) {w : Word} (h : r.holds w = true) :
    fieldOPC w = 0x07#8 ↔ r.mnemonic = .setGammaTable := by
  have rows : ∀ q ∈ opcodeRows, fieldOPC q.pattern = 0x07#8 ↔ q.mnemonic = .setGammaTable := by decide
  rw [OpcodeRow.fieldOPC_of_holds hr h, rows r hr]

/-- With the payload that its word announces, a row's instruction is well-formed and carries that payload. -/
theorem instrOf_payload {r : OpcodeRow} (hr : r ∈ opcodeRows) {w : Word} (h : r.holds w = true) {es : List Entry}
    (hlen : es.length = payloadLength w) :
    encodePayload (instrOf r.mnemonic w es) = es ∧ (instrOf r.mnemonic w es).WellFormed := by
  by_cases hm : r.mnemonic = .setGammaTable
  · have hopc := (fieldOPC_eq_setGammaTable_iff hr h).mpr hm
    rw [payloadLength, if_pos hopc] at hlen
    rw [hm]
    exact ⟨rfl, by simpa [Instr.WellFormed, Instr.wellFormed, instrOf] using hlen⟩
  · have hopc := mt (fieldOPC_eq_setGammaTable_iff hr h).mp hm
    rw [payloadLength, if_neg hopc] at hlen
    obtain rfl := List.length_eq_zero_iff.mp hlen
    cases e : r.mnemonic with
    | setGammaTable => exact absurd e hm
    | _ => exact ⟨rfl, rfl⟩

/-! ## The decoder, inverted -/

/-- What CMD holds when an instruction is read from it: a word that holds a CMD row, its payload, and the rest. -/
theorem decodeCmd_eq_instr {items rest : List CmdItem} {i : Instr} (h : decodeCmd items = .instr i rest) :
    ∃ w es r, items = .word w :: (es.map .entry ++ rest) ∧ es.length = payloadLength w ∧ rowFor .cmd w = some r ∧
      i = instrOf r.mnemonic w es := by
  match items, h with
  | .word w :: items, h =>
    simp only [decodeCmd] at h
    split at h
    case h_3 es rest' htake =>
      split at h
      case h_1 r hrow =>
        cases h
        obtain ⟨hlen, hitems⟩ := takeEntries_complete htake
        exact ⟨w, es, r, by rw [hitems], hlen, hrow, rfl⟩
      case h_2 => cases h
    all_goals cases h

theorem eq_encode_of_decodeCmd {items rest : List CmdItem} {i : Instr} (h : decodeCmd items = .instr i rest) :
    items = encode i ++ rest ∧ i.WellFormed ∧ i.port = .cmd := by
  obtain ⟨w, es, r, rfl, hlen, hrow, rfl⟩ := decodeCmd_eq_instr h
  obtain ⟨hr, hport, hholds⟩ := rowFor_eq_some_cases hrow
  obtain ⟨hpayload, hwf⟩ := instrOf_payload hr hholds hlen
  refine ⟨?_, hwf, (port_instrOf hr w es).trans hport⟩
  rw [encode, hpayload, encodeWord_instrOf_of_holds hr hholds, List.cons_append]

theorem Instr.eq_tick_of_port {i : Instr} (h : i.port = .tick) : i = .tick := by
  cases i with
  | tick => rfl
  | _ => cases h

theorem eq_encodeWord_of_decodeTick {w : Word} {i : Instr} (h : decodeTick w = .instr i) :
    w = encodeWord i ∧ i = .tick := by
  unfold decodeTick at h
  split at h
  case h_1 r hrow =>
    cases h
    obtain ⟨hr, hport, hholds⟩ := rowFor_eq_some_cases hrow
    exact ⟨(encodeWord_instrOf_of_holds hr hholds []).symm, Instr.eq_tick_of_port ((port_instrOf hr w []).trans hport)⟩
  case h_2 => cases h

/-- Settles O1: an instruction's word holds its own row, whose fields are its operands, and its payload is read back. -/
theorem decodeReadsBackEncode : Obligations.DecodeReadsBackEncode :=
  ⟨fun _ h hport => decodeCmd_encode_append h hport, by decide⟩

/-- Settles O2: a decoded word holds a row, and the encoder writes every bit of a word that does. -/
theorem encodeReadsBackDecode : Obligations.EncodeReadsBackDecode :=
  ⟨fun _ _ _ => eq_encode_of_decodeCmd, fun _ _ => eq_encodeWord_of_decodeTick⟩

end Sys2Proof
end

section
/-! SUPPORT. Illegal words, on either port (30_encoding.md R111-R113). -/
namespace Sys2Proof

/-! ## CMD -/

/-- Only the rows of the word's own opcode need to be looked at. -/
theorem rowFor_eq_none {p : Port} {w : Word}
    (h : ∀ r ∈ opcodeRows, r.port = p → fieldOPC w = fieldOPC r.pattern → r.holds w = false) : rowFor p w = none := by
  rw [rowFor, List.find?_eq_none]
  intro r hr hfound
  obtain ⟨hport, hholds⟩ : r.port = p ∧ r.holds w = true := by simpa using hfound
  simp [h r hr hport (OpcodeRow.fieldOPC_of_holds hr hholds)] at hholds

/-- A transaction whose word matches no row is illegal, and its payload is consumed with it (R111, R115). -/
theorem decodeCmd_of_rowFor_eq_none {w : Word} {es : List Entry} (hlen : es.length = payloadLength w)
    (hrow : rowFor .cmd w = none) (rest : List CmdItem) :
    decodeCmd (.word w :: (es.map .entry ++ rest)) = .illegal (illegalCmdWord w) rest := by
  simp only [decodeCmd, ← hlen, takeEntries_map, hrow]

/-- With a set bit in a field that its opcode's rows hold to zero, a word matches no row (R101, R111). -/
theorem rowFor_eq_none_of_reserved {p : Port} {w : Word} {opc : BitVec 8} {lo n : Nat} (hopc : w.extractLsb' 56 8 = opc)
    (hset : w.extractLsb' lo n ≠ 0#n)
    (hrows : ∀ r ∈ opcodeRows, fieldOPC r.pattern = opc →
      r.mask.extractLsb' lo n = BitVec.allOnes n ∧ r.pattern.extractLsb' lo n = 0#n) : rowFor p w = none := by
  refine rowFor_eq_none fun r hr _ heq => ?_
  obtain ⟨hmask, hzero⟩ := hrows r hr (heq.symm.trans hopc)
  by_contra hholds
  have hpattern := OpcodeRow.holds_iff.mp (by simpa using hholds)
  apply hset
  calc w.extractLsb' lo n = (w &&& r.mask).extractLsb' lo n := by
        rw [BitVec.extractLsb'_and, hmask, BitVec.and_allOnes]
    _ = 0#n := by rw [hpattern, hzero]

/-- The opcodes of the CMD rows are 0x01 to 0x07 (R107). -/
theorem rowFor_eq_none_of_reservedOpcode {w : Word} (h : fieldOPC w = 0x00#8 ∨ 0x08 ≤ (fieldOPC w).toNat) :
    rowFor .cmd w = none := by
  have assigned : ∀ r ∈ opcodeRows, r.port = .cmd →
      fieldOPC r.pattern ≠ 0x00#8 ∧ (fieldOPC r.pattern).toNat < 0x08 := by decide
  refine rowFor_eq_none fun r hr hport heq => ?_
  obtain ⟨hne, hlt⟩ := assigned r hr hport
  rw [heq] at h
  rcases h with h | h
  · exact absurd h hne
  · omega

theorem payloadLength_of_reservedOpcode {w : Word} (h : fieldOPC w = 0x00#8 ∨ 0x08 ≤ (fieldOPC w).toNat) :
    payloadLength w = 0 :=
  payloadLength_eq_zero rfl fun hopc => by simp [hopc] at h

/-! ## TICK -/

theorem decodeTick_of_ne {w : Word} (h : w ≠ encodeWord .tick) : decodeTick w = .illegal .notTheTickWord := by
  unfold decodeTick
  split
  case h_1 r hrow =>
    have hdec : decodeTick w = .instr (instrOf r.mnemonic w []) := by rw [decodeTick, hrow]
    obtain ⟨hw, htick⟩ := eq_encodeWord_of_decodeTick hdec
    exact absurd (htick ▸ hw) h
  case h_2 => rfl

/-- The word of a host command is not the tick word: it matches a row of CMD, and the tick word matches none. -/
theorem encodeWord_ne_tick {i : Instr} (hport : i.port = .cmd) : encodeWord i ≠ encodeWord .tick := by
  intro h
  have hown := i.ownRow
  have hnone : rowFor .cmd (encodeWord .tick) = none := by decide
  simp [Laws.OwnRow.Statement, hport, h, hnone] at hown

end Sys2Proof

namespace Sys2Proof.Machine

/-! ## The step -/

theorem step_of_nextPort_cmd {s : State} (h : s.nextPort = some .cmd) : step s = cmdStep s.chosen := by
  rw [step, stepOnce, h]

theorem step_of_nextPort_tick {s : State} (h : s.nextPort = some .tick) : step s = tickStep s.chosen := by
  rw [step, stepOnce, h]

theorem step_of_cmd_instr {s : State} {i : Instr} {rest : List CmdItem} (hport : s.nextPort = some .cmd)
    (hdec : decodeCmd s.ports.cmdIn = .instr i rest) : step s = exec i (s.chosen.withCmdIn rest) := by
  simp only [step_of_nextPort_cmd hport, cmdStep, State.chosen_cmdIn, hdec]

theorem step_of_cmd_illegal {s : State} {why : IllegalWord} {rest : List CmdItem} (hport : s.nextPort = some .cmd)
    (hdec : decodeCmd s.ports.cmdIn = .illegal why rest) :
    step s = .next ((s.chosen.withCmdIn rest).raise .invalidArgument) := by
  simp only [step_of_nextPort_cmd hport, cmdStep, State.chosen_cmdIn, hdec]

theorem step_of_tick_instr {s : State} {w : Word} {i : Instr} {rest : List Word} (hport : s.nextPort = some .tick)
    (hhead : s.ports.tickIn = w :: rest) (hdec : decodeTick w = .instr i) :
    step s = exec i (s.chosen.withTickIn rest) := by
  obtain ⟨hrun, -⟩ := State.tickOffered_of_nextPort hport
  simp only [step_of_nextPort_tick hport, tickStep, State.chosen_tickIn hrun, hhead, hdec]

theorem step_of_tick_illegal {s : State} {w : Word} {why : IllegalWord} {rest : List Word}
    (hport : s.nextPort = some .tick) (hhead : s.ports.tickIn = w :: rest) (hdec : decodeTick w = .illegal why) :
    step s = .next ((s.chosen.withTickIn rest).tickRespond .invalidArgument 0#8) := by
  obtain ⟨hrun, -⟩ := State.tickOffered_of_nextPort hport
  simp only [step_of_nextPort_tick hport, tickStep, State.chosen_tickIn hrun, hhead, hdec]

/-- A transaction whose word matches no row: the word and its payload are taken, and the answer is the only effect. -/
theorem step_of_rowFor_eq_none {s : State} {w : Word} {es : List Entry} {rest : List CmdItem}
    (hhead : s.ports.cmdIn = .word w :: (es.map .entry ++ rest)) (hlen : es.length = payloadLength w)
    (hrow : rowFor .cmd w = none) (hport : s.nextPort = some .cmd) :
    step s = .next
      { s.chosen with
        ports :=
          { s.chosen.ports with
            cmdIn := rest
            trace := s.ports.trace ++ [.rsp 0x0100000000000000#64] } } := by
  have hdec := decodeCmd_of_rowFor_eq_none hlen hrow rest
  rw [← hhead] at hdec
  have hword : responseWord .invalidArgument 0#8 0#8 = 0x0100000000000000#64 := by decide
  rw [step_of_cmd_illegal hport hdec, ← hword, ← s.chosen_trace]
  rfl

/-- Settles O6: every row of the opcode holds the reserved field to zero, so the word matches none. -/
theorem reservedFieldAnswersInvalidArgument : Obligations.ReservedFieldAnswersInvalidArgument := by
  intro s w es rest hhead hlen hreserved hport
  refine step_of_rowFor_eq_none hhead hlen ?_ hport
  rcases hreserved with ⟨hopc, hz⟩ | ⟨hopc, hz⟩ | ⟨hopc, hz⟩ | ⟨hopc, hz⟩ | ⟨hopc, hz⟩ | ⟨hopc, hz⟩ |
    ⟨hopc, hz | hz⟩ <;>
  exact rowFor_eq_none_of_reserved hopc hz (by decide)

/-- Settles O5: no row of CMD has the opcode, and it announces no payload. -/
theorem reservedOpcodeAnswersInvalidArgument : Obligations.ReservedOpcodeAnswersInvalidArgument :=
  fun _ _ _ hhead hopc hport =>
    step_of_rowFor_eq_none (es := []) hhead (payloadLength_of_reservedOpcode hopc).symm
      (rowFor_eq_none_of_reservedOpcode hopc) hport

/-- Settles O7: the tick word is the only word of its row, and no other row is on TICK. -/
theorem otherTickPortWordsAnswerInvalidArgument : Obligations.OtherTickPortWordsAnswerInvalidArgument := by
  have hword : encodeWord .tick = 0x8000000000000000#64 := by decide
  refine ⟨fun s w rest hhead hne _ hport => ?_, fun i hport => decodeTick_of_ne (encodeWord_ne_tick hport),
    decodeCmd_of_rowFor_eq_none (es := []) (by decide) (by decide)⟩
  have hresp : responseWord .invalidArgument 0#8 0#8 = 0x0100000000000000#64 := by decide
  rw [step_of_tick_illegal hport hhead (decodeTick_of_ne (hword ▸ hne)), ← hresp, ← s.chosen_trace]
  rfl

/-- Settles O9: a step acts on `chosen`, and `chosen` changes neither what stands on CMD nor, while the scheduler runs, what stands on TICK. -/
theorem stepRunsTheDecodedInstruction : Obligations.StepRunsTheDecodedInstruction := by
  refine ⟨fun _ _ _ hport hdec => step_of_cmd_instr hport hdec,
    fun _ _ _ _ hport hhead hdec => step_of_tick_instr hport hhead hdec, fun s hrun hone => ?_, fun s hrun hboth => ?_,
    fun s hstop => ?_⟩
  · simp [State.chosen, hone, State.dropStale_of_running hrun]
  · rw [State.chosen, if_pos hboth, State.dropStale_of_running hrun]
  · obtain ⟨-, e⟩ | ⟨hrun, -⟩ | ⟨hrun, -⟩ := s.chosen_cases
    · exact e
    · simp [hstop] at hrun
    · simp [hstop] at hrun

end Sys2Proof.Machine
end

section
/-! SUPPORT. The bits of one instruction, placed as a word: what they hold, and that the next step runs it (log 4). -/
namespace Sys2Proof

/-! ## What the bits hold -/

theorem length_entriesOfBytes_le (n : Nat) (bs : List Byte) : (entriesOfBytes n bs).1.length ≤ n := by
  induction n generalizing bs with
  | zero => simp [entriesOfBytes]
  | succ n ih =>
    match bs with
    | [] => simp [entriesOfBytes]
    | [_] => simp [entriesOfBytes]
    | _ :: _ :: bs => simpa [entriesOfBytes] using ih bs

/-- With fuel for one transaction, a CMD byte stream delivers at most one: a word and no more than its payload. -/
theorem cmdItemsOfBytes_one (bs : List Byte) :
    cmdItemsOfBytes 1 bs = [] ∨
    ∃ w, ∃ es : List Entry, cmdItemsOfBytes 1 bs = .word w :: es.map .entry ∧ es.length ≤ payloadLength w := by
  cases h : takeWord bs with
  | none => exact .inl (by simp only [cmdItemsOfBytes, h])
  | some p =>
    obtain ⟨w, after⟩ := p
    exact .inr ⟨w, _, by simp [cmdItemsOfBytes, h], length_entriesOfBytes_le _ after⟩

/-- The one transaction that those bits hold is read with nothing left. -/
theorem rest_eq_nil_of_decodeCmd_tableItems {nbits n : Nat} {i : Instr} {rest : List CmdItem}
    (h : decodeCmd (tableItems nbits n) = .instr i rest) : rest = [] := by
  obtain ⟨w, es, r, hitems, hlen, -⟩ := decodeCmd_eq_instr h
  rcases cmdItemsOfBytes_one (tableBytes nbits n) with hnil | ⟨w', es', hone, hle⟩
  · simp [tableItems, hnil] at hitems
  · injection hone.symm.trans hitems with hword htail
    cases hword
    have := congrArg List.length htail
    simp only [List.length_map, List.length_append] at this
    exact List.length_eq_zero_iff.mp (by omega)

/-- A word with TICK's opcode announces no payload, so its bytes are its own eight. -/
theorem tableBytes_of_tick {n : Nat} (h : tablePort (tableWord 64 n) = .tick) :
    tableBytes 64 n = bytesOfWord (tableWord 64 n) := by
  have hopc : fieldOPC (tableWord 64 n) = 0x80#8 := by
    by_contra hne
    simp [tablePort, hne] at h
  rw [tableBytes, payloadLength_eq_zero hopc (by decide), bytesOfWord, tableWord, BitVec.toNat_ofNat, Nat.mod_mod]

/-- What the decoder reads from those bits: a whole CMD transaction, or the word on TICK. -/
theorem decodeTableWord_cases {n : Nat} {i : Instr} (h : decodeTableWord 64 n = some i) :
    (tablePort (tableWord 64 n) = .cmd ∧ decodeCmd (tableItems 64 n) = .instr i []) ∨
    (tablePort (tableWord 64 n) = .tick ∧ decodeTick (tableWord 64 n) = .instr i) := by
  unfold decodeTableWord at h
  split at h
  case h_1 hport =>
    split at h
    case h_1 rest hdec =>
      cases h
      exact .inl ⟨hport, rest_eq_nil_of_decodeCmd_tableItems hdec ▸ hdec⟩
    case h_2 => cases h
  case h_2 hport =>
    rw [tableBytes_of_tick hport, decodeTickBytes_bytesOfWord] at h
    split at h
    case h_1 hdec =>
      cases h
      exact .inr ⟨hport, Option.some.inj hdec⟩
    case h_2 => cases h

/-- Settles O4, by evaluating the decoder on the eight words. -/
theorem writtenOutWordsDecode : Obligations.WrittenOutWordsDecode := by
  refine ⟨?_, ?_, ?_, ?_, ?_, ?_, ?_, ?_⟩ <;> decide

end Sys2Proof

namespace Sys2Proof.Machine

/-! ## The next step -/

theorem State.chosen_of_tickIn_nil {s : State} (h : s.ports.tickIn = []) : s.chosen = s := by
  have hstale : s.withTickIn [] = s := by rw [State.withTickIn, ← h]
  have hone : s.tickOffered = false := by simp [State.tickOffered, h]
  simp [State.chosen, hone, State.dropStale, hstale]

/-- A transaction alone on CMD, with nothing on TICK. -/
theorem step_withCmdIn {s : State} {items : List CmdItem} {i : Instr} (hcmd : s.ports.cmdIn = [])
    (htick : s.ports.tickIn = []) (hdec : decodeCmd items = .instr i []) : step (s.withCmdIn items) = exec i s := by
  have hport : (s.withCmdIn items).nextPort = some .cmd := by
    simp [State.nextPort, State.cmdOffered, State.tickOffered, hdec, htick]
  rw [step_of_cmd_instr hport hdec, State.chosen_of_tickIn_nil (s := s.withCmdIn items) htick]
  exact congrArg (exec i) (by rw [State.withCmdIn, State.withCmdIn, ← hcmd])

/-- A tick word alone on TICK: taken while the scheduler runs; while it is stopped it is stale, and a TICK is nothing
(42_tick_scheduler.md R213). -/
theorem step_withTickIn {s : State} {w : Word} (hcmd : s.ports.cmdIn = []) (htick : s.ports.tickIn = [])
    (hdec : decodeTick w = .instr .tick) : step (s.withTickIn [w]) = exec .tick s := by
  have hback : s.withTickIn [] = s := by rw [State.withTickIn, ← htick]
  have hidle : (s.withTickIn [w]).cmdOffered = false := by simp [State.cmdOffered, hcmd, decodeCmd]
  cases hrun : s.sched.running with
  | true =>
    have hport : (s.withTickIn [w]).nextPort = some .tick := by
      simp [State.nextPort, hidle, State.tickOffered, hrun]
    have hchosen : (s.withTickIn [w]).chosen = s.withTickIn [w] := by
      simp [State.chosen, hidle, State.dropStale, hrun]
    rw [step_of_tick_instr hport rfl hdec, hchosen]
    exact congrArg (exec .tick) hback
  | false =>
    have hport : (s.withTickIn [w]).nextPort = none := by
      simp [State.nextPort, hidle, State.tickOffered, hrun]
    have hchosen : (s.withTickIn [w]).chosen = s := by
      have hstale := State.dropStale_of_stopped (s := s.withTickIn [w]) hrun
      rw [State.chosen, hidle, Bool.false_and, if_neg Bool.false_ne_true, hstale]
      exact hback
    rw [step, stepOnce, hport, hchosen]
    simp [exec, execTick, hrun]

/-- Settles O13: with nothing else offered no choice is added, and the word stands alone on its port. -/
theorem placedWordRunsNext : Obligations.PlacedWordRunsNext := by
  intro s n i hcmd htick hdec
  rcases decodeTableWord_cases hdec with ⟨hport, hcmdDec⟩ | ⟨hport, htickDec⟩
  · have hplaced : s.withFetchWord 64 n = s.withCmdIn (tableItems 64 n) := by
      simp [State.withFetchWord, State.offerTableWord, hport, State.offerCmdFirst, State.tickOffered, hcmd, htick,
        State.withCmdIn]
    rw [hplaced, step_withCmdIn hcmd htick hcmdDec]
  · obtain ⟨-, rfl⟩ := eq_encodeWord_of_decodeTick htickDec
    have hplaced : s.withFetchWord 64 n = s.withTickIn [tableWord 64 n] := by
      simp [State.withFetchWord, State.offerTableWord, hport, State.offerTickFirst, State.cmdOffered, decodeCmd, hcmd,
        htick, State.withTickIn]
    rw [hplaced, step_withTickIn hcmd htick htickDec]

end Sys2Proof.Machine
end

section
/-! SUPPORT. Every host command answers once, and last (30_encoding.md R108, 60_exceptions.md R286). -/
namespace Sys2Proof.Machine

/-! ## The fields of a response word -/

theorem responseWord_fields (a : Status) (e : ChannelId) (d : Byte) :
    responseStatus (responseWord a e d) = a.code ∧ responseErrch (responseWord a e d) = e ∧
      responseData (responseWord a e d) = d ∧ (responseWord a e d).extractLsb' 8 40 = 0#40 := by
  refine ⟨?_, ?_, ?_, ?_⟩ <;>
  · apply BitVec.eq_of_getLsbD_eq
    intro i hi
    simp only [responseStatus, responseErrch, responseData, responseWord, place]
    interval_cases i <;> simp

/-! ## One answer -/

/-- From `s` to `t` one response is put out, on RSP and last, its fields as R108 has them; if it rejects the command it
is the only effect. -/
def State.AnswersOnce (s t : State) : Prop :=
  ∃ es w, t.ports.trace = s.ports.trace ++ es ++ [.rsp w] ∧ responses es = [] ∧
    (responseStatus w).toNat ≤ 3 ∧ w.extractLsb' 8 40 = 0#40 ∧
    (responseStatus w ≠ 0x03#8 → responseErrch w = 0#8) ∧ (responseStatus w ≠ 0x00#8 → responseData w = 0#8) ∧
    ((responseStatus w = 0x01#8 ∨ responseStatus w = 0x02#8) →
      t = { s with ports := { s.ports with trace := s.ports.trace ++ [.rsp w] } })

theorem State.AnswersOnce.ite {s t u : State} {p : Prop} [Decidable p] (ht : s.AnswersOnce t) (hu : s.AnswersOnce u) :
    s.AnswersOnce (if p then t else u) := by
  split <;> assumption

/-- From `s` to `u` no response is put out, whatever else is. -/
def State.Quiet (s u : State) : Prop := ∃ es, u.ports.trace = s.ports.trace ++ es ∧ responses es = []

theorem State.AnswersOnce.ok {s u : State} (h : s.Quiet u) (d : Byte) : s.AnswersOnce (u.respond .ok 0#8 d) := by
  obtain ⟨es, htrace, hes⟩ := h
  obtain ⟨hstatus, herrch, -, hzero⟩ := responseWord_fields .ok 0#8 d
  exact ⟨es, _, congrArg (· ++ _) htrace, hes, by rw [hstatus]; decide, hzero, fun _ => herrch,
    fun hne => absurd hstatus hne, by simp [hstatus, Status.code]⟩

theorem State.AnswersOnce.hardwareError {s u : State} (h : s.Quiet u) (c : ChannelId) :
    s.AnswersOnce (u.respond .hardwareError c 0#8) := by
  obtain ⟨es, htrace, hes⟩ := h
  obtain ⟨hstatus, -, hdata, hzero⟩ := responseWord_fields .hardwareError c 0#8
  exact ⟨es, _, congrArg (· ++ _) htrace, hes, by rw [hstatus]; decide, hzero, fun hne => absurd hstatus hne,
    fun _ => hdata, by simp [hstatus, Status.code]⟩

theorem State.AnswersOnce.raise (s : State) (a : Status) : s.AnswersOnce (s.raise a) := by
  obtain ⟨hstatus, herrch, hdata, hzero⟩ := responseWord_fields a 0#8 0#8
  exact ⟨[], _, by rw [List.append_nil]; rfl, rfl, by rw [hstatus]; cases a <;> decide, hzero, fun _ => herrch,
    fun _ => hdata, fun _ => rfl⟩

/-! ## What puts out no response -/

theorem State.quiet_refl (s : State) : s.Quiet s := ⟨[], (List.append_nil _).symm, rfl⟩

theorem State.quiet_setChan (s : State) (c : Nat) (r : ChannelRegs) : s.Quiet (s.setChan c r) := s.quiet_refl

theorem State.quiet_replaceTable (s : State) (es : List Entry) : s.Quiet { s with lut := overrideTable es } :=
  s.quiet_refl

theorem State.Quiet.tsRequest {s u : State} (h : s.Quiet u) (r : TsRequest) : s.Quiet (u.tsRequest r) := by
  obtain ⟨es, htrace, hes⟩ := h
  exact ⟨es ++ [.tsreq r], by simp [htrace], by rw [responses_append, hes]; rfl⟩

theorem State.quiet_setChan_ensureRunning (s : State) (c : Nat) (r : ChannelRegs) :
    s.Quiet (s.setChan c r).ensureRunning := by
  rcases (s.setChan c r).ensureRunning_cases with ⟨-, e⟩ | ⟨-, e⟩ <;> rw [e]
  · exact s.quiet_setChan c r
  · exact (s.quiet_setChan c r).tsRequest .start

theorem State.quiet_stopAndRelease (s : State) : s.Quiet s.stopAndRelease := by
  rw [State.stopAndRelease_eq]
  exact ⟨_, rfl, by split <;> rfl⟩

/-! ## The commands -/

theorem State.setNow_answersOnce (s : State) (c : ChannelId) (v : Byte) : s.AnswersOnce (s.setNow c v) := by
  have written (r : ChannelRegs) (d : Nat) : s.Quiet ((s.setChan c.toNat r).sinkApply c d) := ⟨_, rfl, rfl⟩
  unfold State.setNow
  dsimp only
  split
  · exact .hardwareError (written _ _) c
  · exact .ok (written _ _) 0#8

theorem State.deinitialize_answersOnce (s : State) : s.AnswersOnce s.deinitialize := by
  unfold State.deinitialize
  exact .ok (by exact s.quiet_stopAndRelease) 0#8

theorem exec_next_answersOnce {i : Instr} (s : State) (hport : i.port = .cmd) :
    ∃ t, exec i s = .next t ∧ s.AnswersOnce t :=
  have rejects (a : Status) := State.AnswersOnce.raise s a
  have bad := rejects .invalidArgument
  match i with
  | .init _ _ =>
    ⟨_, rfl, .ite bad (.ite bad (.ite bad (.ite (rejects .resourceExhausted) (.ok ⟨_, rfl, rfl⟩ 0#8))))⟩
  | .deinit => ⟨_, rfl, .ite s.deinitialize_answersOnce bad⟩
  | .setChannel c v _ =>
    ⟨_, rfl, .ite (.ite (s.setNow_answersOnce c v) (.ok (s.quiet_setChan_ensureRunning _ _) 0#8)) bad⟩
  | .startBlink _ _ _ _ => ⟨_, rfl, .ite (.ok (s.quiet_setChan_ensureRunning _ _) 0#8) bad⟩
  | .stopBlink _ => ⟨_, rfl, .ite (.ok (s.quiet_setChan _ _) 0#8) bad⟩
  | .getChannel _ => ⟨_, rfl, .ite (.ok s.quiet_refl _) bad⟩
  | .setGammaTable _ es => ⟨_, rfl, .ite (.ite (.ok (s.quiet_replaceTable es) 0#8) bad) bad⟩
  | .tick => nomatch hport

/-- Settles O45: each command ends with one answer, and a rejecting one has done nothing before it. -/
theorem everyCommandAnswersOnce : Obligations.EveryCommandAnswersOnce := by
  intro i s hport
  obtain ⟨t, hx, es, w, hanswer⟩ := exec_next_answersOnce s hport
  exact ⟨t, es, w, hx, hanswer⟩

end Sys2Proof.Machine
end

section
/-! SUPPORT. What an assembler line can stand for (30_encoding.md R118, R119). -/
namespace Sys2Proof.Machine

/-- All that an assembler's answer can be: nothing, or a well-formed host command. -/
def GivesHostCommand (o : Option Instr) : Prop := ∀ i, o = some i → i.WellFormed ∧ i.port = .cmd

theorem GivesHostCommand.none : GivesHostCommand none := fun _ h => nomatch h

theorem GivesHostCommand.some {i : Instr} (hwf : i.WellFormed) (hport : i.port = .cmd) : GivesHostCommand (some i) :=
  fun _ h => Option.some.inj h ▸ ⟨hwf, hport⟩

theorem GivesHostCommand.ite {o o' : Option Instr} {p : Prop} [Decidable p] (h : GivesHostCommand o)
    (h' : GivesHostCommand o') : GivesHostCommand (if p then o else o') := by
  split <;> assumption

theorem GivesHostCommand.bind {α : Type} {o : Option α} {f : α → Option Instr} (h : ∀ x, GivesHostCommand (f x)) :
    GivesHostCommand (o >>= f) := by
  cases o with
  | none => exact .none
  | some x => exact h x

theorem expandPseudo_givesHostCommand (p : Pseudo) : GivesHostCommand (expandPseudo p) := by
  cases p with
  | fade ch v ms => exact .ite .none (.some rfl rfl)
  | _ => exact .some rfl rfl

/-- Each of R118's and R119's mnemonics, in the model's order, with its own number of operands or no command. -/
theorem asmCommand_givesHostCommand (mnemonic : List Char) (operands : List Nat) :
    GivesHostCommand (asmCommand mnemonic operands) := by
  have expands := expandPseudo_givesHostCommand
  unfold asmCommand
  refine .ite ?_ <| .ite ?_ <| .ite ?_ <| .ite ?_ <| .ite ?_ <| .ite ?_ <| .ite ?_ <| .ite ?_ <| .ite ?_ <| .ite ?_ <|
    .ite ?_ .none
  all_goals
    split
    case h_2 => exact .none
  · exact .bind fun _ => .bind fun _ => .some rfl rfl
  · exact .some rfl rfl
  · exact .bind fun _ => .bind fun _ => .bind fun _ => .some rfl rfl
  · exact .bind fun _ => .bind fun _ => .bind fun _ => .bind fun _ => .some rfl rfl
  · exact .bind fun _ => .some rfl rfl
  · exact .bind fun _ => .some rfl rfl
  · exact .bind fun _ => .bind fun _ => expands _
  · exact .bind fun _ => .bind fun _ => .bind fun _ => expands _
  · exact .bind fun _ => expands _
  · exact .bind fun _ => .bind fun _ => .bind fun _ => expands _
  · exact .bind fun _ => .bind fun _ => .bind fun _ => expands _

theorem length_of_mapM_eq_some {α β : Type} {f : α → Option β} {xs : List α} {ys : List β} (h : xs.mapM f = some ys) :
    ys.length = xs.length := by
  induction xs generalizing ys with
  | nil => simp at h; simp [← h]
  | cons x xs ih =>
    simp only [List.mapM_cons, Option.bind_eq_bind, Option.bind_eq_some_iff] at h
    obtain ⟨y, -, zs, hzs, h⟩ := h
    cases h
    simp [ih hzs]

theorem length_of_asmTable {entries : List Nat} {es : List Entry} (h : asmTable entries = some es) :
    es.length = 256 := by
  unfold asmTable at h
  split at h
  case isTrue hlen => rw [length_of_mapM_eq_some h, hlen]
  case isFalse => cases h

theorem asmGamma_givesHostCommand (labels : List (List Char × List Nat)) (operands : List (List Char)) :
    GivesHostCommand (asmGamma labels operands) := by
  unfold asmGamma
  split
  case h_1 =>
    split
    case h_1 l _ =>
      intro i hi
      obtain ⟨es, hes, rfl⟩ := Option.map_eq_some_iff.mp hi
      exact ⟨by simp [Instr.WellFormed, Instr.wellFormed, length_of_asmTable hes], rfl⟩
    case h_2 => exact .none
  case h_2 => exact .none

theorem hostCommand_of_assembleLine {labels : List (List Char × List Nat)} {line : List Char} {i : Instr}
    (h : assembleLine labels line = .command i) : i.WellFormed ∧ i.port = .cmd := by
  unfold assembleLine at h
  dsimp only at h
  split at h
  case isTrue => cases h
  case isFalse =>
    split at h
    case h_2 => cases h
    case h_1 j hfound =>
      cases h
      split at hfound
      · exact asmGamma_givesHostCommand _ _ i hfound
      · exact GivesHostCommand.bind (fun _ => asmCommand_givesHostCommand _ _) i hfound

/-- Settles O58: an accepted line gives a well-formed host command, and the decoder reads its encoding back. -/
theorem assembledCommandsAreWellFormed : Obligations.AssembledCommandsAreWellFormed := by
  intro labels line i h
  obtain ⟨hwf, hport⟩ := hostCommand_of_assembleLine h
  have hdec := decodeCmd_encode_append hwf hport []
  rw [List.append_nil] at hdec
  exact ⟨hwf, hport, hdec⟩

/-- Settles O57, one equation of `expandPseudo` each. -/
theorem pseudoInstructionsExpand : Obligations.PseudoInstructionsExpand :=
  fun _ _ _ => ⟨rfl, rfl, rfl, rfl, rfl⟩

end Sys2Proof.Machine
end

section
/-! SUPPORT. The gamma table (40_gamma_lut.md): what Map makes of two neighbouring entries, and the tables that Build
gives. -/
namespace Sys2Proof.Machine

/-! ## Interpolation between two entries -/

/-- The mean of two entries in which the second has `frac` parts of 256 (R145). -/
def blend (a b frac : Nat) : Nat := (a * (256 - frac) + b * frac) / 256

/-- R145's `interp` blends two neighbouring entries; the index after 255 is 255. -/
theorem interpolate_eq_blend (t : List Entry) (q : Q88) :
    interpolate t q = blend (lutRead t (q.toNat / 256)).toNat (lutRead t (min 255 (q.toNat / 256 + 1))).toNat
      (q.toNat % 256) := by
  have hidx : q.toNat / 256 ≤ 255 := by omega
  unfold interpolate blend
  dsimp only
  split
  next hlast => rw [hlast]; rfl
  next hinner => rw [Nat.min_eq_right (by omega)]

@[simp] theorem blend_zero (a b : Nat) : blend a b 0 = a := by simp [blend]

/-- The form of `interp` that R145 derives, whatever the sign of `b - a`. -/
theorem blend_eq_add_floor {a b frac : Nat} (hfrac : frac ≤ 256) :
    (blend a b frac : Int) = a + ((b : Int) - a) * frac / 256 := by
  have hsum : ((a * (256 - frac) + b * frac : Nat) : Int) = a * 256 + ((b : Int) - a) * frac := by
    push_cast [hfrac]
    ring
  rw [blend, Int.natCast_ediv, hsum]
  omega

theorem le_blend {lo a b frac : Nat} (hfrac : frac ≤ 256) (ha : lo ≤ a) (hb : lo ≤ b) : lo ≤ blend a b frac := by
  rw [blend, Nat.le_div_iff_mul_le (by decide)]
  calc lo * 256 = lo * (256 - frac) + lo * frac := by rw [← Nat.mul_add, Nat.sub_add_cancel hfrac]
    _ ≤ a * (256 - frac) + b * frac := by gcongr

theorem blend_le {hi a b frac : Nat} (hfrac : frac ≤ 256) (ha : a ≤ hi) (hb : b ≤ hi) : blend a b frac ≤ hi := by
  refine Nat.div_le_of_le_mul ?_
  calc a * (256 - frac) + b * frac ≤ hi * (256 - frac) + hi * frac := by gcongr
    _ = 256 * hi := by rw [← Nat.mul_add, Nat.sub_add_cancel hfrac, Nat.mul_comm]

/-- Between two entries in order, more weight on the second gives no less. -/
theorem blend_mono {a b frac frac' : Nat} (hab : a ≤ b) (hle : frac ≤ frac') (hfrac : frac' ≤ 256) :
    blend a b frac ≤ blend a b frac' := by
  have hfloor : ((b : Int) - a) * frac / 256 ≤ ((b : Int) - a) * frac' / 256 :=
    Int.ediv_le_ediv (by decide) (mul_le_mul_of_nonneg_left (by exact_mod_cast hle) (by omega))
  have := blend_eq_add_floor (a := a) (b := b) (hle.trans hfrac)
  have := blend_eq_add_floor (a := a) (b := b) hfrac
  omega

theorem interpolate_between (t : List Entry) (q : Q88) :
    let a := (lutRead t (q.toNat / 256)).toNat
    let b := (lutRead t (min 255 (q.toNat / 256 + 1))).toNat
    min a b ≤ interpolate t q ∧ interpolate t q ≤ max a b := by
  have hfrac : q.toNat % 256 ≤ 256 := by omega
  rw [interpolate_eq_blend]
  exact ⟨le_blend hfrac (min_le_left _ _) (min_le_right _ _), blend_le hfrac (le_max_left _ _) (le_max_right _ _)⟩

/-- An interpolated brightness fits in 16 bits, for a table in any order. -/
theorem interpolate_lt (t : List Entry) (q : Q88) : interpolate t q < 65536 := by
  obtain ⟨-, hle⟩ := interpolate_between t q
  exact hle.trans_lt (max_lt (BitVec.isLt _) (BitVec.isLt _))

/-- An integer brightness reads its entry (R145, `frac = 0`). -/
theorem interpolate_toQ88 (t : List Entry) (v : Byte) : interpolate t (toQ88 v) = (lutRead t v.toNat).toNat := by
  simp [interpolate_eq_blend]

/-! ## Scaling to the duty width -/

/-- The final clamp of R145 changes nothing, and the result is in the range of a duty. -/
theorem mapDuty_eq (bits : Nat) (t : List Entry) (q : Q88) :
    mapDuty bits t q = interpolate t q * 2 ^ bits / 65536 ∧ mapDuty bits t q ≤ 2 ^ bits - 1 := by
  have hpos : 0 < 2 ^ bits := Nat.two_pow_pos bits
  have hlt : interpolate t q * 2 ^ bits / 65536 < 2 ^ bits :=
    Nat.div_lt_of_lt_mul (Nat.mul_lt_mul_of_pos_right (interpolate_lt t q) hpos)
  rw [mapDuty, dutyMax, Nat.sub_add_cancel hpos]
  omega

theorem mapDuty_toQ88 (bits : Nat) (t : List Entry) (v : Byte) :
    mapDuty bits t (toQ88 v) = (lutRead t v.toNat).toNat * 2 ^ bits / 65536 := by
  rw [(mapDuty_eq bits t _).1, interpolate_toQ88]

/-- Scaling an entry down gives the full duty exactly for the top `2 ^ (16 - bits)` of the 65536 values. -/
theorem scaled_eq_dutyMax_iff {bits x : Nat} (hbits : bits ≤ 16) (hx : x < 65536) :
    x * 2 ^ bits / 65536 = 2 ^ bits - 1 ↔ 65536 - 2 ^ (16 - bits) ≤ x := by
  have hpow : 65536 = 2 ^ (16 - bits) * 2 ^ bits := by
    rw [← Nat.pow_add, Nat.sub_add_cancel hbits]
  have hunit : x * 2 ^ bits / 65536 = x / 2 ^ (16 - bits) := by
    rw [hpow, Nat.mul_div_mul_right _ _ (Nat.two_pow_pos bits)]
  have hlt : x / 2 ^ (16 - bits) < 2 ^ bits := Nat.div_lt_of_lt_mul (hpow ▸ hx)
  have htop : 65536 - 2 ^ (16 - bits) = (2 ^ bits - 1) * 2 ^ (16 - bits) := by
    rw [Nat.sub_mul, one_mul, Nat.mul_comm, ← hpow]
  rw [hunit, htop, ← Nat.le_div_iff_mul_le (Nat.two_pow_pos _)]
  omega

/-! ## Tables in order -/

theorem NonDecreasing.lutRead_le {t : List Entry} (h : NonDecreasing t) {i j : Nat} (hij : i ≤ j) (hj : j ≤ 255) :
    (lutRead t i).toNat ≤ (lutRead t j).toNat := by
  induction j, hij using Nat.le_induction with
  | base => exact le_rfl
  | succ j _ ih => exact (ih (by omega)).trans (h j (by omega))

/-- R147: within one index the weight of the upper entry grows; from one index to a later one the entry where the first
ends is no more than the entry where the second begins. -/
theorem NonDecreasing.interpolate_le {t : List Entry} (h : NonDecreasing t) {q q' : Q88} (hq : q.toNat ≤ q'.toNat) :
    interpolate t q ≤ interpolate t q' := by
  have hidx' : q'.toNat / 256 ≤ 255 := by omega
  have hidx : q.toNat / 256 ≤ q'.toNat / 256 := Nat.div_le_div_right hq
  rcases hidx.eq_or_lt with hsame | hnext
  · rw [interpolate_eq_blend, interpolate_eq_blend, hsame]
    exact blend_mono (h.lutRead_le (by omega) (by omega)) (by omega) (by omega)
  · calc interpolate t q
        ≤ (lutRead t (q.toNat / 256 + 1)).toNat := by
          rw [interpolate_eq_blend, Nat.min_eq_right (by omega)]
          exact blend_le (by omega) (h.lutRead_le (by omega) (by omega)) le_rfl
      _ ≤ (lutRead t (q'.toNat / 256)).toNat := h.lutRead_le hnext hidx'
      _ ≤ interpolate t q' := by
          rw [interpolate_eq_blend]
          exact le_blend (by omega) le_rfl (h.lutRead_le (by omega) (by omega))

/-! ## Build -/

/-- The formula of Build grows with the index: a power with an exponent above 0 does, and so does rounding (R143). -/
theorem build_formula_mono {e : ℝ} (he : 0 < e) {i j : Nat} (hij : i ≤ j) :
    ⌊65280 * ((i : ℝ) / 255) ^ (1 / e) + 1 / 2⌋ ≤ ⌊65280 * ((j : ℝ) / 255) ^ (1 / e) + 1 / 2⌋ := by
  have hpow : ((i : ℝ) / 255) ^ (1 / e) ≤ ((j : ℝ) / 255) ^ (1 / e) :=
    Real.rpow_le_rpow (by positivity) (by gcongr) (by positivity)
  exact Int.floor_mono (by gcongr)

theorem IsBuild.nonDecreasing {e : ℝ} {t : List Entry} (he : 0 < e) (h : IsBuild e t) : NonDecreasing t := by
  obtain ⟨-, hformula, hlast⟩ := h
  intro i hi
  by_cases hend : i + 1 = 255
  · rw [hend, hlast]
    exact Nat.le_of_lt_succ (BitVec.isLt _)
  · have hmono := build_formula_mono he (Nat.le_add_right i 1)
    rw [← hformula i hi, ← hformula (i + 1) (by omega)] at hmono
    exact_mod_cast hmono

theorem IsBuild.tableValid {e : ℝ} {t : List Entry} (he : 0 < e) (h : IsBuild e t) (bits : Nat) : TableValid bits t := by
  have hmono := h.nonDecreasing he
  obtain ⟨hlen, -, hlast⟩ := h
  have hunit : 0 < 2 ^ (16 - bits) := Nat.two_pow_pos _
  refine ⟨hlen, hmono, ?_⟩
  rw [hlast]
  exact Nat.sub_le_sub_left hunit 65536

/-- For the exponent `1 / n` the formula of Build is a quotient of integers. -/
theorem build_formula_natPow (n i : Nat) :
    ⌊65280 * ((i : ℝ) / 255) ^ (n : ℝ) + 1 / 2⌋ = (((130560 * i ^ n + 255 ^ n) / (2 * 255 ^ n) : Nat) : Int) := by
  have hquot : 65280 * ((i : ℝ) / 255) ^ (n : ℝ) + 1 / 2 =
      ((130560 * i ^ n + 255 ^ n : Nat) : ℝ) / ((2 * 255 ^ n : Nat) : ℝ) := by
    rw [Real.rpow_natCast, div_pow]
    push_cast
    field_simp
    ring
  rw [hquot, ← Nat.floor_div_eq_div (K := ℝ), Int.natCast_floor_eq_floor (by positivity)]

/-- A closed form is a table of Build when it is the formula's quotient and fits in an entry. -/
theorem isBuild_tableOf {n : Nat} {f : Nat → Nat}
    (hf : ∀ i < 255, f i = (130560 * i ^ n + 255 ^ n) / (2 * 255 ^ n) ∧ f i < 65536) :
    IsBuild (1 / n) (tableOf f) := by
  refine ⟨by simp [tableOf], fun i hi => ?_, lutRead_tableOf_last f⟩
  obtain ⟨hquot, hlt⟩ := hf i hi
  rw [one_div_one_div, build_formula_natPow, ← hquot, lutRead_tableOf hi, BitVec.toNat_ofNat, Nat.mod_eq_of_lt hlt]

/-- R149's first closed form. -/
theorem isBuild_buildOne : IsBuild 1 buildOne := by
  have h : IsBuild (1 / (1 : ℕ)) buildOne := isBuild_tableOf fun i hi => by
    rw [pow_one, pow_one]
    omega
  simpa using h

/-- R149's second closed form: the quotient, both terms over 255. -/
theorem isBuild_buildHalf : IsBuild (1 / 2) buildHalf :=
  isBuild_tableOf (n := 2) fun i hi => by
    have hsquare : i * i ≤ 254 * 254 := Nat.mul_self_le_mul_self (by omega)
    rw [pow_two i]
    omega

/-! ## The obligations -/

/-- Settles O38: the formula grows with the index, and the last entry is the greatest there is. -/
theorem builtTablesAreValid : Obligations.BuiltTablesAreValid :=
  fun _ _ bits he h _ _ => h.tableValid he bits

/-- Settles O39: both exponents are `1 / n`, for which Build's formula is a quotient of integers. -/
theorem closedFormsAreBuild : Obligations.ClosedFormsAreBuild :=
  ⟨isBuild_buildOne, isBuild_buildHalf⟩

/-- Settles O40: full scale reads the last entry, and a valid table's last entry scales to the full duty. -/
theorem fullScaleReachesDutyMax : Obligations.FullScaleReachesDutyMax := by
  intro bits t _ hbits
  have hfull : mapDuty bits t 0xFF00#16 = (lutRead t 255).toNat * 2 ^ bits / 65536 := mapDuty_toQ88 bits t 255#8
  have hiff := scaled_eq_dutyMax_iff hbits (lutRead t 255).isLt
  rw [hfull]
  refine ⟨fun h => hiff.mpr ?_, hiff.symm⟩
  obtain ⟨-, -, hlast⟩ : TableValid bits t := by
    rcases h with hvalid | ⟨e, he, hbuild⟩
    · exact hvalid
    · exact hbuild.tableValid he bits
  exact hlast

/-- Settles O41: interpolation keeps the order (R147), and so does scaling. -/
theorem mapIsMonotone : Obligations.MapIsMonotone := by
  intro bits t q q' h hq
  rw [(mapDuty_eq bits t q).1, (mapDuty_eq bits t q').1]
  exact Nat.div_le_div_right (Nat.mul_le_mul_right _ (NonDecreasing.interpolate_le h hq))

/-- Settles O42: an integer brightness puts no weight on the second entry. -/
theorem mapOfIntegerBrightness : Obligations.MapOfIntegerBrightness := mapDuty_toQ88

/-- Settles O43: the interpolation is a mean of two 16-bit entries. -/
theorem interpolationFormula : Obligations.InterpolationFormula := by
  intro bits t q
  obtain ⟨hlo, hhi⟩ := interpolate_between t q
  refine ⟨?_, by exact_mod_cast hlo, by exact_mod_cast hhi, mapDuty_eq bits t q⟩
  rw [interpolate_eq_blend, blend_eq_add_floor (by omega)]

end Sys2Proof.Machine
end

section
/-! SUPPORT. What two commands do, in one expression each. -/
namespace Sys2Proof.Machine

/-- The status that answers the immediate SET_CHANNEL (43_commands.md R245). -/
def writeStatus : SinkResult → Status
  | .ok => .ok
  | .hwErr => .hardwareError

/-- The ERRCH that goes with it: the channel, if its write failed (60_exceptions.md R281). -/
def writeErrch (c : ChannelId) : SinkResult → ChannelId
  | .ok => 0#8
  | .hwErr => c

@[simp] theorem State.setChan_sinkAnswer (s : State) (c : Nat) (r : ChannelRegs) :
    (s.setChan c r).sinkAnswer = s.sinkAnswer := rfl

/-- The immediate SET_CHANNEL is one register update, one duty write and one answer. -/
theorem State.setNow_eq (s : State) (c : ChannelId) (v : Byte) :
    s.setNow c v =
      ((s.setChan c.toNat ((s.chan c.toNat).setImmediate v)).sinkApply c (s.map (toQ88 v))).respond
        (writeStatus s.sinkAnswer) (writeErrch c s.sinkAnswer) 0#8 := by
  unfold State.setNow
  dsimp only
  rw [State.setChan_sinkAnswer]
  cases s.sinkAnswer <;> rfl

/-- All that DEINIT does on an initialized core (R244). -/
theorem State.deinitialize_eq (s : State) :
    s.deinitialize =
      { State.resetWith s.params with
        ports :=
          { s.ports with
            trace := s.ports.trace ++ ((if s.sched.running then [.tsreq .stop] else []) ++ [.tsreq .release]) ++
              [.rsp (responseWord .ok 0#8 0#8)] } } := by
  rw [State.deinitialize, State.stopAndRelease_eq]
  rfl

end Sys2Proof.Machine
end

section
/-! SUPPORT. States that differ only in the stale `step` of idle channels are told apart by no instruction
(41_fade_engine.md R174). -/
namespace Sys2Proof.Machine

/-! ## One register set -/

theorem ChannelRegs.SameButStaleStep.refl (r : ChannelRegs) : r.SameButStaleStep r :=
  ⟨rfl, rfl, rfl, rfl, fun _ => rfl⟩

section
variable {r q : ChannelRegs} (h : r.SameButStaleStep q)
include h

theorem ChannelRegs.SameButStaleStep.armed_eq : r.armed = q.armed := by
  obtain ⟨-, -, hleft, hhalf, -⟩ := h
  rw [ChannelRegs.armed, ChannelRegs.armed, hleft, hhalf]

/-- The step of an armed channel is not stale. -/
theorem ChannelRegs.SameButStaleStep.eq_of_armed (ha : r.armed = true) : r = q := by
  obtain ⟨hcur, htarget, hleft, hhalf, hstep⟩ := h
  cases r
  cases q
  simp_all

/-- TICK reads the step of an armed channel only (R179-R181). -/
theorem ChannelRegs.SameButStaleStep.tick : r.tick.SameButStaleStep q.tick := by
  cases ha : r.armed with
  | true => exact h.eq_of_armed ha ▸ .refl _
  | false => rwa [ChannelRegs.tick_of_not_armed ha, ChannelRegs.tick_of_not_armed (h.armed_eq ▸ ha)]

/-- SetFade writes the step, from the brightness and not from the old step (R175). -/
theorem ChannelRegs.SameButStaleStep.setFade (v : Byte) (n : Ticks) :
    (r.setFade v n).SameButStaleStep (q.setFade v n) := by
  obtain ⟨hcur, -⟩ := h
  exact ⟨hcur, rfl, rfl, rfl, fun _ => by simp only [ChannelRegs.setFade, hcur]⟩

theorem ChannelRegs.SameButStaleStep.stopLoop : r.stopLoop.SameButStaleStep q.stopLoop := by
  obtain ⟨hcur, htarget, -⟩ := h
  exact ⟨hcur, htarget, rfl, rfl, fun _ => rfl⟩

end

/-- SetImmediate leaves a stale step behind, on a channel that it makes idle; every other field it writes (R174). -/
theorem ChannelRegs.setImmediate_sameButStaleStep (r q : ChannelRegs) (v : Byte) :
    (r.setImmediate v).SameButStaleStep (q.setImmediate v) :=
  ⟨rfl, rfl, rfl, rfl, fun ha => by simp [ChannelRegs.setImmediate, ChannelRegs.armed] at ha⟩

/-- StartLoop writes every field (R176). -/
theorem ChannelRegs.startLoop_eq (r q : ChannelRegs) (v : Byte) (n : Ticks) (smooth : Bool) :
    r.startLoop v n smooth = q.startLoop v n smooth := rfl

/-! ## The whole state -/

theorem State.SameButStaleSteps.refl (s : State) : s.SameButStaleSteps s :=
  ⟨rfl, rfl, rfl, rfl, rfl, rfl, fun _ _ => .refl _⟩

/-- A check with two outcomes that both states pass or both fail. -/
theorem State.SameButStaleSteps.ite {s t s' t' : State} {p q : Prop} [Decidable p] [Decidable q] (hpq : p ↔ q)
    (h : s.SameButStaleSteps t) (h' : s'.SameButStaleSteps t') :
    (if p then s else s').SameButStaleSteps (if q then t else t') := by
  by_cases hp : p
  · rwa [if_pos hp, if_pos (hpq.mp hp)]
  · rwa [if_neg hp, if_neg (hpq.not.mp hp)]

section
variable {s t : State} (h : s.SameButStaleSteps t)
include h

/-- A set that does not exist reads as zero in both states. -/
theorem State.SameButStaleSteps.chan (c : Nat) : (s.chan c).SameButStaleStep (t.chan c) := by
  obtain ⟨-, -, -, -, -, hlen, hchan⟩ := h
  by_cases hc : c < s.ch.length
  · exact hchan c hc
  · have hs : s.chan c = ChannelRegs.zero := by simp [State.chan, List.getD, Nat.le_of_not_lt hc]
    have ht : t.chan c = ChannelRegs.zero := by simp [State.chan, List.getD, hlen ▸ Nat.le_of_not_lt hc]
    exact hs ▸ ht ▸ .refl _

/-- What an operation that touches no register set leaves, if it treats the other fields alike. -/
theorem State.SameButStaleSteps.of_ch {s' t' : State} (hch : s'.ch = s.ch) (hch' : t'.ch = t.ch)
    (hparams : s'.params = t'.params) (hctrl : s'.ctrl = t'.ctrl) (hsched : s'.sched = t'.sched)
    (hlut : s'.lut = t'.lut) (hports : s'.ports = t'.ports) : s'.SameButStaleSteps t' := by
  obtain ⟨-, -, -, -, -, hlen, hchan⟩ := h
  refine ⟨hparams, hctrl, hsched, hlut, hports, by rw [hch, hch', hlen], ?_⟩
  simp only [State.chan, hch, hch']
  exact hchan

theorem State.SameButStaleSteps.anyArmed_eq : s.anyArmed = t.anyArmed := by
  have harmed c := (h.chan c).armed_eq
  obtain ⟨-, hctrl, -⟩ := h
  simp only [State.anyArmed, hctrl, harmed]

theorem State.SameButStaleSteps.accepts_iff (c : ChannelId) : s.accepts c = true ↔ t.accepts c = true := by
  obtain ⟨-, hctrl, -⟩ := h
  rw [State.accepts, State.accepts, hctrl]

theorem State.SameButStaleSteps.sinkAnswer_eq : s.sinkAnswer = t.sinkAnswer := by
  obtain ⟨-, -, -, -, hports, -⟩ := h
  rw [State.sinkAnswer, State.sinkAnswer, hports]

theorem State.SameButStaleSteps.map_eq (q : Q88) : s.map q = t.map q := by
  obtain ⟨hparams, -, -, hlut, -⟩ := h
  rw [State.map, State.map, hparams, hlut]

theorem State.SameButStaleSteps.setChan (c : Nat) {r q : ChannelRegs} (hrq : r.SameButStaleStep q) :
    (s.setChan c r).SameButStaleSteps (t.setChan c q) := by
  obtain ⟨hparams, hctrl, hsched, hlut, hports, hlen, hchan⟩ := h
  refine ⟨hparams, hctrl, hsched, hlut, hports, by simpa using hlen, fun d hd => ?_⟩
  rw [State.setChan_ch, List.length_set] at hd
  by_cases hcd : c = d
  · subst hcd
    rwa [State.chan_setChan_same r hd, State.chan_setChan_same q (hlen ▸ hd)]
  · rw [State.chan_setChan_other r hcd, State.chan_setChan_other q hcd]
    exact hchan d hd

/-! ## Output ports -/

theorem State.SameButStaleSteps.emit (e : Event) : (s.emit e).SameButStaleSteps (t.emit e) := by
  obtain ⟨hparams, hctrl, hsched, hlut, hports, -⟩ := id h
  exact h.of_ch rfl rfl hparams hctrl hsched hlut (by rw [State.emit_ports, State.emit_ports, hports])

theorem State.SameButStaleSteps.tsRequest (r : TsRequest) : (s.tsRequest r).SameButStaleSteps (t.tsRequest r) :=
  h.emit _

theorem State.SameButStaleSteps.respond (a : Status) (e : ChannelId) (d : Byte) :
    (s.respond a e d).SameButStaleSteps (t.respond a e d) :=
  h.emit _

theorem State.SameButStaleSteps.raise (a : Status) : (s.raise a).SameButStaleSteps (t.raise a) :=
  h.respond _ _ _

theorem State.SameButStaleSteps.tickAnswer (errch : Option ChannelId) :
    (s.tickAnswer errch).SameButStaleSteps (t.tickAnswer errch) := by
  cases errch with
  | none => exact h.emit _
  | some c => exact h.emit _

theorem State.SameButStaleSteps.sinkApply (c : ChannelId) (d : Nat) :
    (s.sinkApply c d).SameButStaleSteps (t.sinkApply c d) := by
  have hanswer := h.sinkAnswer_eq
  obtain ⟨hparams, hctrl, hsched, hlut, hports, -⟩ := id h
  exact h.of_ch rfl rfl hparams hctrl hsched hlut
    (by rw [State.sinkApply_ports, State.sinkApply_ports, hports, hanswer])

/-! ## The scheduler -/

theorem State.SameButStaleSteps.setRunning (b : Bool) : (s.setRunning b).SameButStaleSteps (t.setRunning b) := by
  obtain ⟨hparams, hctrl, hsched, hlut, hports, -⟩ := id h
  exact h.of_ch rfl rfl hparams hctrl (by rw [State.setRunning_sched, State.setRunning_sched, hsched]) hlut hports

theorem State.SameButStaleSteps.running_iff : s.sched.running = true ↔ t.sched.running = true := by
  obtain ⟨-, -, hsched, -⟩ := h
  rw [hsched]

theorem State.SameButStaleSteps.ensureRunning : s.ensureRunning.SameButStaleSteps t.ensureRunning :=
  .ite h.running_iff h ((h.setRunning true).tsRequest .start)

theorem State.SameButStaleSteps.selfStopCheck : s.selfStopCheck.SameButStaleSteps t.selfStopCheck :=
  .ite (by rw [h.anyArmed_eq]) h ((h.setRunning false).tsRequest .stop)

end

/-! ## A TICK -/

/-- What the channels visited so far have made of two states, and the lowest failing channel found on the way. -/
def SameVisits (a b : State × Option ChannelId) : Prop := a.1.SameButStaleSteps b.1 ∧ a.2 = b.2

/-- One channel's turn in a TICK: both states write the same duty, or neither writes one. -/
theorem SameVisits.tickVisit {a b : State × Option ChannelId} (h : SameVisits a b) (c : Nat) :
    SameVisits (tickVisit a c) (tickVisit b c) := by
  obtain ⟨s, errch⟩ := a
  obtain ⟨t, errch'⟩ := b
  obtain ⟨hsame, rfl⟩ : s.SameButStaleSteps t ∧ errch = errch' := h
  have hticked := hsame.setChan c (hsame.chan c).tick
  obtain ⟨hcur, -⟩ := (hsame.chan c).tick
  simp only [Machine.tickVisit, State.tickChannel_eq, ← (hsame.chan c).armed_eq]
  cases (s.chan c).armed with
  | true =>
    simp only [if_true, ← hcur, ← hsame.map_eq, ← hticked.sinkAnswer_eq]
    exact ⟨hticked.sinkApply _ _, rfl⟩
  | false => exact ⟨hsame, rfl⟩

theorem State.SameButStaleSteps.tickChannels {s t : State} (h : s.SameButStaleSteps t) :
    SameVisits s.tickChannels t.tickChannels := by
  obtain ⟨-, hctrl, -⟩ := id h
  rw [State.tickChannels, State.tickChannels, hctrl]
  exact List.foldl_rel (r := SameVisits) ⟨h, rfl⟩ fun c _ _ _ hvisits => hvisits.tickVisit c

theorem State.SameButStaleSteps.acceptedTick {s t : State} (h : s.SameButStaleSteps t) :
    s.acceptedTick.SameButStaleSteps t.acceptedTick := by
  obtain ⟨hvisited, herrch⟩ := h.tickChannels
  rw [State.acceptedTick, State.acceptedTick, herrch]
  exact hvisited.selfStopCheck.tickAnswer _

/-! ## The commands that pass their checks -/

section
variable {s t : State} (h : s.SameButStaleSteps t)
include h

/-- INIT zeroes every register set (10_state.md R54). -/
theorem State.initialize_sameButStaleSteps (ms : Millis) (n : BitVec 16) :
    (s.initialize ms n).SameButStaleSteps (t.initialize ms n) := by
  obtain ⟨hparams, -, -, -, hports, -⟩ := h
  rw [State.initialize_eq, State.initialize_eq, hparams, hports]
  exact .refl _

/-- So does DEINIT (R244). -/
theorem State.deinitialize_sameButStaleSteps : s.deinitialize.SameButStaleSteps t.deinitialize := by
  obtain ⟨hparams, -, hsched, -, hports, -⟩ := h
  rw [State.deinitialize_eq, State.deinitialize_eq, hparams, hsched, hports]
  exact .refl _

theorem State.SameButStaleSteps.setNow (c : ChannelId) (v : Byte) :
    (s.setNow c v).SameButStaleSteps (t.setNow c v) := by
  have hset := h.setChan c.toNat (ChannelRegs.setImmediate_sameButStaleStep (s.chan c.toNat) (t.chan c.toNat) v)
  rw [State.setNow_eq, State.setNow_eq, h.sinkAnswer_eq, h.map_eq]
  exact (hset.sinkApply _ _).respond _ _ _

theorem State.SameButStaleSteps.startFade (c : ChannelId) (v : Byte) (ms : Millis) :
    (s.startFade c v ms).SameButStaleSteps (t.startFade c v ms) := by
  obtain ⟨-, hctrl, -⟩ := id h
  rw [State.startFade, State.startFade, hctrl]
  exact (h.setChan _ ((h.chan _).setFade v _)).ensureRunning.respond _ _ _

theorem State.SameButStaleSteps.startBlink (c : ChannelId) (v : Byte) (ms : Millis) (smooth : Bool) :
    (s.startBlink c v ms smooth).SameButStaleSteps (t.startBlink c v ms smooth) := by
  obtain ⟨-, hctrl, -⟩ := id h
  rw [State.startBlink, State.startBlink, hctrl, ChannelRegs.startLoop_eq (s.chan _) (t.chan _)]
  exact (h.setChan _ (.refl _)).ensureRunning.respond _ _ _

theorem State.SameButStaleSteps.stopBlink (c : ChannelId) : (s.stopBlink c).SameButStaleSteps (t.stopBlink c) :=
  (h.setChan _ (h.chan _).stopLoop).respond _ _ _

/-- GET_CHANNEL answers with the brightness, which the two states have in common (R248). -/
theorem State.SameButStaleSteps.answerChannel (c : ChannelId) :
    (s.respond .ok 0#8 (integerPart (s.chan c.toNat).cur)).SameButStaleSteps
      (t.respond .ok 0#8 (integerPart (t.chan c.toNat).cur)) := by
  obtain ⟨hcur, -⟩ := h.chan c.toNat
  rw [hcur]
  exact h.respond _ _ _

theorem State.SameButStaleSteps.replaceTable (es : List Entry) :
    State.SameButStaleSteps { s with lut := overrideTable es } { t with lut := overrideTable es } := by
  obtain ⟨hparams, hctrl, hsched, -, hports, -⟩ := id h
  exact h.of_ch rfl rfl hparams hctrl hsched rfl hports

/-! ## Every instruction -/

/-- From two states that differ in stale steps only, an instruction answers two next states that do. -/
theorem exec_next_sameButStaleSteps (i : Instr) :
    ∃ s' t', exec i s = .next s' ∧ exec i t = .next t' ∧ s'.SameButStaleSteps t' :=
  have ⟨hparams, hctrl, _⟩ := id h
  have hinit : s.ctrl.initialized = true ↔ t.ctrl.initialized = true := by rw [hctrl]
  have rejects := h.raise .invalidArgument
  match i with
  | .init ms n =>
    ⟨_, _, rfl, rfl, .ite hinit rejects (.ite .rfl rejects (.ite .rfl rejects
      (.ite (by rw [hparams]) (h.raise _) (State.initialize_sameButStaleSteps h ms n))))⟩
  | .deinit => ⟨_, _, rfl, rfl, .ite hinit (State.deinitialize_sameButStaleSteps h) rejects⟩
  | .setChannel c v ms =>
    ⟨_, _, rfl, rfl, .ite (h.accepts_iff c) (.ite .rfl (h.setNow c v) (h.startFade c v ms)) rejects⟩
  | .startBlink c v ms smooth => ⟨_, _, rfl, rfl, .ite (h.accepts_iff c) (h.startBlink c v ms smooth) rejects⟩
  | .stopBlink c => ⟨_, _, rfl, rfl, .ite (h.accepts_iff c) (h.stopBlink c) rejects⟩
  | .getChannel c => ⟨_, _, rfl, rfl, .ite (h.accepts_iff c) (h.answerChannel c) rejects⟩
  | .setGammaTable _ es =>
    ⟨_, _, rfl, rfl, .ite hinit (.ite .rfl ((h.replaceTable es).respond _ _ _) rejects) rejects⟩
  | .tick => ⟨_, _, rfl, rfl, .ite h.running_iff h.acceptedTick h⟩

end

/-- Settles O47: TICK reads the step of armed channels only, SET_CHANNEL's fade form, START_BLINK and STOP_BLINK write
it, and nothing else reads it. -/
theorem staleStepIsNeverRead : Obligations.StaleStepIsNeverRead := by
  intro i s t s' t' h hs ht
  obtain ⟨s'', t'', hs'', ht'', hsame⟩ := exec_next_sameButStaleSteps h i
  cases hs''.symm.trans hs
  cases ht''.symm.trans ht
  exact hsame

end Sys2Proof.Machine
end

section
/-! SUPPORT. The channel commands on an accepted channel, and one TICK of a register set, as numbers (41_fade_engine.md
R172-R181, 43_commands.md R241-R247). -/
namespace Sys2Proof.Machine

/-! ## Arithmetic -/

theorem toStep_neg_toInt {x : FadeStep} (h : -65535 ≤ x.toInt) : (toStep (-x.toInt)).toInt = -x.toInt := by
  have := BitVec.toInt_lt (x := x)
  exact toStep_toInt (by omega) (by omega)

/-- The brightness update stores the saturated sum (R173). -/
theorem advance_toNat_eq_sat (cur : Q88) (step : FadeStep) :
    ((advance cur step).toNat : Int) = sat 0 0xFF00 ((cur.toNat : Int) + step.toInt) := by
  simp only [advance, sat, BitVec.toNat_ofInt]
  omega

theorem fadeTicks_toNat (period ms : Millis) : (fadeTicks period ms).toNat = max 1 (ms.toNat / period.toNat) :=
  atLeastOneTick_toNat ((Nat.div_le_self _ _).trans_lt ms.isLt)

theorem halfTicks_toNat (period ms : Millis) : (halfTicks period ms).toNat = max 1 (ms.toNat / 2 / period.toNat) :=
  atLeastOneTick_toNat (((Nat.div_le_self _ _).trans (Nat.div_le_self _ _)).trans_lt ms.isLt)

/-- SetFade and StartLoop raise a count to at least one that is so already. -/
theorem atLeastOneTick_of_pos {n : Ticks} (h : 0 < n.toNat) : atLeastOneTick n.toNat = n :=
  BitVec.eq_of_toNat_eq (by rw [atLeastOneTick_of_ticks]; omega)

theorem atLeastOneTick_fadeTicks (period ms : Millis) :
    atLeastOneTick (fadeTicks period ms).toNat = fadeTicks period ms :=
  atLeastOneTick_of_pos (by rw [fadeTicks_toNat]; omega)

theorem atLeastOneTick_halfTicks (period ms : Millis) :
    atLeastOneTick (halfTicks period ms).toNat = halfTicks period ms :=
  atLeastOneTick_of_pos (by rw [halfTicks_toNat]; omega)

/-- Settles O44: truncation divides the size and keeps the sign. -/
theorem stepDivisionTruncates : Obligations.StepDivisionTruncates := by
  intro a b hb
  have hquot : tdiv a b = a.sign * (|a| / b) := by
    rcases lt_trichotomy a 0 with ha | rfl | ha
    · rw [abs_of_neg ha, Int.sign_eq_neg_one_of_neg ha, ← Int.tdiv_eq_ediv_of_nonneg (by omega), Int.neg_tdiv, tdiv]
      ring
    · simp [tdiv]
    · rw [abs_of_pos ha, Int.sign_eq_one_of_pos ha, ← Int.tdiv_eq_ediv_of_nonneg ha.le, tdiv, one_mul]
  refine ⟨hquot, ?_⟩
  obtain ⟨hup, hdown⟩ := tdiv_mul_between a hb
  rw [mul_comm]
  rcases le_total 0 a with ha | ha
  · obtain ⟨hnonneg, hle⟩ := hup ha
    rwa [abs_of_nonneg ha, abs_of_nonneg (mul_nonneg hnonneg hb.le)]
  · obtain ⟨hnonpos, hle⟩ := hdown ha
    rw [abs_of_nonpos ha, abs_of_nonpos (mul_nonpos_of_nonpos_of_nonneg hnonpos hb.le)]
    omega

/-! ## One TICK of a register set -/

/-- Branch 1 (R179). -/
theorem ChannelRegs.countDown_cur_eq {r : ChannelRegs} (hr : 0 < r.remainingTicks.toNat) :
    (r.countDown.cur.toNat : Int) =
      if r.remainingTicks.toNat = 1 ∧ r.halfPeriodTicks = 0#32 then (r.target.toNat : Int)
      else if r.step = 0#17 then (r.cur.toNat : Int)
      else sat 0 0xFF00 ((r.cur.toNat : Int) + r.step.toInt) := by
  have hlast : r.remainingTicks - 1#32 = 0#32 ↔ r.remainingTicks.toNat = 1 := by
    rw [← BitVec.toNat_inj, ticks_pred_toNat hr, BitVec.toNat_ofNat]
    omega
  simp only [ChannelRegs.countDown, hlast, ← advance_toNat_eq_sat, ite_not, ne_eq,
    apply_ite (fun q : Q88 => (q.toNat : Int))]

/-- Branch 2 (R180). -/
theorem ChannelRegs.reverse_eq (r : ChannelRegs) :
    r.reverse =
      if r.step = 0#17 then
        { r with
          remainingTicks := r.halfPeriodTicks - 1#32
          cur := if r.cur = r.target then 0#16 else r.target }
      else
        { r with
          remainingTicks := r.halfPeriodTicks - 1#32
          step := toStep (-r.step.toInt)
          cur := advance r.cur (toStep (-r.step.toInt)) } := by
  rw [ChannelRegs.reverse]
  simp only [ne_eq, ite_not]

/-- Settles O29: each branch of TickChannel stores the saturated sum, or what stands in place of it. -/
theorem tickChannelBranches : Obligations.TickChannelBranches := by
  intro r
  obtain ⟨hhalf, htarget⟩ := r.tick_half_target
  refine ⟨fun hr => ?_, fun hr hp hstep => ?_, fun hr hp => ?_⟩
  · have htick : r.tick = r.countDown := by simp [ChannelRegs.tick, hr]
    rw [htick] at hhalf htarget ⊢
    exact ⟨ticks_pred_toNat hr, htarget, rfl, hhalf, ChannelRegs.countDown_cur_eq hr⟩
  · have htick : r.tick = r.reverse := by simp [ChannelRegs.tick, hr, hp]
    refine ⟨?_, htarget, hhalf, ?_⟩
    · rw [htick, ChannelRegs.reverse_eq, ← ticks_pred_toNat hp]
      split <;> rfl
    · rw [htick, ChannelRegs.reverse_eq]
      by_cases hzero : r.step = 0#17
      · simp only [hzero, if_true]
        split <;> simp
      · simp only [hzero, if_false, advance_toNat_eq_sat, toStep_neg_toInt hstep, sat, true_and]
        rfl
  · exact ChannelRegs.tick_of_not_armed (by simp [ChannelRegs.armed, hr, hp])

/-! ## Commands on an accepted channel -/

/-- EnsureRunning (R212). -/
theorem State.ensureRunning_eq (s : State) :
    s.ensureRunning =
      { s with
        sched := { s.sched with running := true }
        ports := { s.ports with trace := s.ports.trace ++ if s.sched.running then [] else [.tsreq .start] } } := by
  obtain ⟨params, ctrl, ⟨prepared, running⟩, ch, lut, ports⟩ := s
  cases running
  · rfl
  · simp [State.ensureRunning]

section
variable {s : State} {c : ChannelId} (h : s.Present c)
include h

theorem State.Present.accepts : s.accepts c = true := by
  obtain ⟨hinit, hcount, -⟩ := h
  exact (s.accepts_iff c).mpr ⟨hinit, hcount⟩

theorem State.Present.exec_setNow (v : Byte) : exec (.setChannel c v 0#32) s = .next (s.setNow c v) := by
  simp [exec, execSetChannel, h.accepts]

theorem State.Present.exec_startFade (v : Byte) {ms : Millis} (hms : ms ≠ 0#32) :
    exec (.setChannel c v ms) s = .next (s.startFade c v ms) := by
  simp [exec, execSetChannel, h.accepts, hms]

theorem State.Present.exec_startBlink (v : Byte) (ms : Millis) (smooth : Bool) :
    exec (.startBlink c v ms smooth) s = .next (s.startBlink c v ms smooth) := by
  simp [exec, execStartBlink, h.accepts]

theorem State.Present.exec_stopBlink : exec (.stopBlink c) s = .next (s.stopBlink c) := by
  simp [exec, execStopBlink, h.accepts]

end

@[simp] theorem responseWord_ok : responseWord .ok 0#8 0#8 = 0#64 := by decide

/-- STATUS 3 stands in bits 63:56, ERRCH in bits 55:48 (30_encoding.md R108). -/
theorem responseWord_hardwareError (c : ChannelId) :
    responseWord .hardwareError c 0#8 = BitVec.ofNat 64 (3 * 2 ^ 56 + c.toNat * 2 ^ 48) := by
  have hc := c.isLt
  have hor : 3 * 2 ^ 56 ||| c.toNat * 2 ^ 48 = 3 * 2 ^ 56 + c.toNat * 2 ^ 48 := by
    rw [Nat.mul_comm 3, Nat.two_pow_add_eq_or_of_lt (by omega)]
  have hsum : 3 * 2 ^ 56 + c.toNat * 2 ^ 48 < 2 ^ 64 := by omega
  have hcode : (place Status.hardwareError.code 56).toNat = 3 * 2 ^ 56 := by decide
  have herrch : (place c 48).toNat = c.toNat * 2 ^ 48 := by
    rw [place, BitVec.toNat_shiftLeft, BitVec.toNat_setWidth_of_le (by decide), Nat.shiftLeft_eq]
    exact Nat.mod_eq_of_lt (Nat.lt_of_le_of_lt (Nat.le_add_left _ _) hsum)
  have hdata : (place 0#8 0).toNat = 0 := by decide
  apply BitVec.eq_of_toNat_eq
  rw [responseWord, BitVec.toNat_or, BitVec.toNat_or, hcode, herrch, hdata, Nat.or_zero, hor, BitVec.toNat_ofNat,
    Nat.mod_eq_of_lt hsum]

/-- Settles O20: SetImmediate, one duty write of the table's entry, and its answer. -/
theorem setChannelImmediateSetsAndWrites : Obligations.SetChannelImmediateSetsAndWrites := by
  intro s c v h
  have hduty : s.map (toQ88 v) = (s.lut.getD v.toNat 0#16).toNat * 2 ^ s.params.dutyBits / 65536 := mapDuty_toQ88 _ _ v
  have hword (a : SinkResult) : responseWord (writeStatus a) (writeErrch c a) 0#8 =
      match a with
      | .ok => 0#64
      | .hwErr => BitVec.ofNat 64 (3 * 2 ^ 56 + c.toNat * 2 ^ 48) := by
    cases a
    · exact responseWord_ok
    · exact responseWord_hardwareError c
  rw [h.exec_setNow, State.setNow_eq, ← hduty]
  simp only [State.respond, State.emit, State.sinkApply, State.setChan_sinkAnswer, hword, List.append_assoc]
  rfl

/-- Settles O21: SetFade, whose count is at least one already, and EnsureRunning. -/
theorem setChannelFadeArmsRamp : Obligations.SetChannelFadeArmsRamp := by
  intro s c v ms h hms
  have hregs (r : ChannelRegs) : r.setFade v (fadeTicks s.ctrl.tickPeriodMs ms) =
      { cur := r.cur
        target := toQ88 v
        step := BitVec.ofInt 17 (Int.tdiv ((v.toNat * 256 : Nat) - (r.cur.toNat : Int))
          (max 1 (ms.toNat / s.ctrl.tickPeriodMs.toNat) : Nat))
        remainingTicks := fadeTicks s.ctrl.tickPeriodMs ms
        halfPeriodTicks := 0#32 } := by
    rw [ChannelRegs.setFade, atLeastOneTick_fadeTicks, fadeTicks_toNat, toQ88_toNat, toStep, tdiv]
  rw [h.exec_startFade v hms, State.startFade, State.ensureRunning_eq, hregs]
  simp only [State.respond, State.emit, responseWord_ok, List.append_assoc]
  rfl

/-- Settles O22: StartLoop, whose count is at least one already, and EnsureRunning. -/
theorem startBlinkArmsLoop : Obligations.StartBlinkArmsLoop := by
  intro s c v ms smooth h
  have hregs (r : ChannelRegs) : r.startLoop v (halfTicks s.ctrl.tickPeriodMs ms) smooth =
      { cur := toQ88 v
        target := toQ88 v
        step := if smooth then
            BitVec.ofInt 17 (Int.tdiv (-(v.toNat * 256 : Nat))
              (max 1 (ms.toNat / 2 / s.ctrl.tickPeriodMs.toNat) : Nat))
          else 0#17
        remainingTicks := if smooth then halfTicks s.ctrl.tickPeriodMs ms else 0#32
        halfPeriodTicks := halfTicks s.ctrl.tickPeriodMs ms } := by
    rw [ChannelRegs.startLoop, atLeastOneTick_halfTicks, halfTicks_toNat, toQ88_toNat, toStep, tdiv]
  rw [h.exec_startBlink, State.startBlink, State.ensureRunning_eq, hregs]
  simp only [State.respond, State.emit, responseWord_ok, List.append_assoc]
  rfl

/-- Settles O23: StopLoop and the answer Ok. -/
theorem stopBlinkFreezesChannel : Obligations.StopBlinkFreezesChannel := by
  intro s c h
  rw [h.exec_stopBlink, State.stopBlink, State.respond, responseWord_ok]
  rfl

/-! ## What a command on one channel leaves alone -/

/-- From `s` to `t` the core has changed in channel `c`'s register set and in RUNNING at most, and nothing was taken
from the input ports. -/
def State.Confined (c : Nat) (s t : State) : Prop :=
  t.params = s.params ∧ t.ctrl = s.ctrl ∧ t.lut = s.lut ∧ t.sched.prepared = s.sched.prepared ∧
    t.ch.length = s.ch.length ∧ t.ports.cmdIn = s.ports.cmdIn ∧ t.ports.tickIn = s.ports.tickIn ∧
    ∀ d, d ≠ c → t.chan d = s.chan d

theorem State.Confined.ite {c : Nat} {s t u : State} {p : Prop} [Decidable p] (ht : State.Confined c s t)
    (hu : State.Confined c s u) : State.Confined c s (if p then t else u) := by
  split <;> assumption

theorem State.confined_setChan (s : State) (c : Nat) (r : ChannelRegs) : State.Confined c s (s.setChan c r) :=
  ⟨rfl, rfl, rfl, rfl, by simp, rfl, rfl, fun _ hd => State.chan_setChan_other r hd.symm⟩

theorem State.confined_respond (c : Nat) (s : State) (a : Status) (e : ChannelId) (d : Byte) :
    State.Confined c s (s.respond a e d) :=
  ⟨rfl, rfl, rfl, rfl, rfl, rfl, rfl, fun _ _ => rfl⟩

section
variable {c : Nat} {s t : State} (h : State.Confined c s t)
include h

theorem State.Confined.respond (a : Status) (e : ChannelId) (d : Byte) : State.Confined c s (t.respond a e d) := h

theorem State.Confined.sinkApply (e : ChannelId) (d : Nat) : State.Confined c s (t.sinkApply e d) := h

theorem State.Confined.ensureRunning : State.Confined c s t.ensureRunning := by
  rw [State.ensureRunning_eq]
  exact h

end

/-- A channel command changes its own channel's register set only, in each of its forms. -/
theorem exec_next_confined (s : State) {i : Instr} {c : ChannelId}
    (hi : (∃ v ms, i = .setChannel c v ms) ∨ (∃ v ms sm, i = .startBlink c v ms sm) ∨ i = .stopBlink c ∨
      i = .getChannel c) :
    ∃ t, exec i s = .next t ∧ State.Confined c.toNat s t := by
  have rejects : State.Confined c.toNat s (s.raise .invalidArgument) := s.confined_respond _ _ _ _
  rcases hi with ⟨v, ms, rfl⟩ | ⟨v, ms, sm, rfl⟩ | rfl | rfl
  · have hnow : State.Confined c.toNat s (s.setNow c v) := by
      rw [State.setNow_eq]
      exact ((s.confined_setChan _ _).sinkApply _ _).respond _ _ _
    exact ⟨_, rfl, .ite (.ite hnow ((s.confined_setChan _ _).ensureRunning.respond _ _ _)) rejects⟩
  · exact ⟨_, rfl, .ite ((s.confined_setChan _ _).ensureRunning.respond _ _ _) rejects⟩
  · exact ⟨_, rfl, .ite ((s.confined_setChan _ _).respond _ _ _) rejects⟩
  · exact ⟨_, rfl, .ite (s.confined_respond _ _ _ _) rejects⟩

/-- Settles O26: each form writes one register set and may start the scheduler. -/
theorem channelCommandsLeaveOtherChannels : Obligations.ChannelCommandsLeaveOtherChannels := by
  intro s t i c hi hx
  obtain ⟨u, hu, hconfined⟩ := exec_next_confined s hi
  cases hu.symm.trans hx
  exact hconfined

/-- Settles O52: a reachable state has the invariant, and there neither branch saturates. -/
theorem saturationNeverChangesTheValue : Obligations.SaturationNeverChangesTheValue := by
  intro p s c hp hreach _
  obtain ⟨hinv, -⟩ := reachableStatesHaveTheInvariant p s hp hreach
  exact ⟨ChannelRegs.countDown_no_saturation (hinv.chan c), ChannelRegs.reverse_no_saturation (hinv.chan c)⟩

end Sys2Proof.Machine
end

section
/-! SUPPORT. The duty writes of one channel along a run of instructions that spare it: one for each TICK that finds it
armed (41_fade_engine.md R183-R188, 42_tick_scheduler.md R214). -/
namespace Sys2Proof.Machine

/-! ## Counting writes -/

/-- How many duty writes of channel `c` stand in a traffic. -/
def writesIn (c : ChannelId) (es : List Event) : Nat := ((sinkWrites es).filter fun x => x.1 == c).length

theorem State.writesTo_eq (s : State) (c : ChannelId) : s.writesTo c = writesIn c s.ports.trace := rfl

@[simp] theorem writesIn_nil (c : ChannelId) : writesIn c [] = 0 := rfl

theorem writesIn_append (c : ChannelId) (es es' : List Event) :
    writesIn c (es ++ es') = writesIn c es + writesIn c es' := by
  simp [writesIn, sinkWrites_append]

@[simp] theorem writesIn_sink (c d : ChannelId) (x : Nat) (a : SinkResult) :
    writesIn c [.sink d x a] = if d = c then 1 else 0 := by
  by_cases hd : d = c <;> simp [writesIn, sinkWrites, hd]

/-- Answers and requests are no duty writes. -/
theorem State.writesTo_emit (s : State) {e : Event} (he : sinkWrites [e] = []) (c : ChannelId) :
    (s.emit e).writesTo c = s.writesTo c := by
  rw [State.writesTo_eq, State.emit_ports, writesIn_append, State.writesTo_eq]
  simp [writesIn, he]

@[simp] theorem State.writesTo_respond (s : State) (a : Status) (e : ChannelId) (d : Byte) (c : ChannelId) :
    (s.respond a e d).writesTo c = s.writesTo c := s.writesTo_emit rfl c

@[simp] theorem State.writesTo_tsRequest (s : State) (r : TsRequest) (c : ChannelId) :
    (s.tsRequest r).writesTo c = s.writesTo c := s.writesTo_emit rfl c

@[simp] theorem State.writesTo_setChan (s : State) (k : Nat) (r : ChannelRegs) (c : ChannelId) :
    (s.setChan k r).writesTo c = s.writesTo c := rfl

@[simp] theorem State.writesTo_setRunning (s : State) (b : Bool) (c : ChannelId) :
    (s.setRunning b).writesTo c = s.writesTo c := rfl

@[simp] theorem State.writesTo_ensureRunning (s : State) (c : ChannelId) :
    s.ensureRunning.writesTo c = s.writesTo c := by
  rcases s.ensureRunning_cases with ⟨-, e⟩ | ⟨-, e⟩ <;> simp [e]

@[simp] theorem State.writesTo_selfStopCheck (s : State) (c : ChannelId) :
    s.selfStopCheck.writesTo c = s.writesTo c := by
  rcases s.selfStopCheck_cases with ⟨-, e⟩ | ⟨-, e⟩ <;> simp [e]

@[simp] theorem State.writesTo_tickAnswer (s : State) (errch : Option ChannelId) (c : ChannelId) :
    (s.tickAnswer errch).writesTo c = s.writesTo c := by
  cases errch <;> exact s.writesTo_emit rfl c

theorem State.writesTo_sinkApply (s : State) (d : ChannelId) (x : Nat) (c : ChannelId) :
    (s.sinkApply d x).writesTo c = s.writesTo c + if d = c then 1 else 0 := by
  rw [State.writesTo_eq, State.sinkApply_ports, writesIn_append, writesIn_sink, State.writesTo_eq]

theorem State.writesTo_ite {t u : State} {c : ChannelId} {n : Nat} {p : Prop} [Decidable p] (ht : t.writesTo c = n)
    (hu : u.writesTo c = n) : (if p then t else u).writesTo c = n := by
  split <;> assumption

theorem State.writesTo_initialize (s : State) (ms : Millis) (n : BitVec 16) (c : ChannelId) :
    (s.initialize ms n).writesTo c = s.writesTo c := by
  rw [State.initialize_eq]
  simp [State.writesTo, sinkWrites]

theorem State.writesTo_setNow (s : State) {c d : ChannelId} (hd : d ≠ c) (v : Byte) :
    (s.setNow d v).writesTo c = s.writesTo c := by
  rw [State.setNow_eq, State.writesTo_respond, State.writesTo_sinkApply, if_neg hd, State.writesTo_setChan,
    Nat.add_zero]

/-! ## One instruction -/

/-- A command that spares a channel writes no duty of it. -/
theorem exec_next_writesTo (s : State) {c : ChannelId} {i : Instr} (hspare : sparesChannel c i = true)
    (htick : i ≠ .tick) : ∃ t, exec i s = .next t ∧ t.writesTo c = s.writesTo c :=
  have answers (a : Status) (e : ChannelId) (d : Byte) : (s.respond a e d).writesTo c = s.writesTo c := by simp
  have rejects := answers .invalidArgument 0#8 0#8
  have other {d : ChannelId} (h : (d != c) = true) : d ≠ c := by simpa using h
  match i with
  | .init ms n =>
    ⟨_, rfl, State.writesTo_ite rejects (State.writesTo_ite rejects (State.writesTo_ite rejects
      (State.writesTo_ite (answers _ _ _) (s.writesTo_initialize ms n c))))⟩
  | .setChannel d v ms =>
    ⟨_, rfl, State.writesTo_ite
      (State.writesTo_ite (s.writesTo_setNow (other hspare) v) (by simp [State.startFade])) rejects⟩
  | .startBlink d v ms smooth => ⟨_, rfl, State.writesTo_ite (by simp [State.startBlink]) rejects⟩
  | .stopBlink d => ⟨_, rfl, State.writesTo_ite (by simp [State.stopBlink]) rejects⟩
  | .getChannel _ => ⟨_, rfl, State.writesTo_ite (answers _ _ _) rejects⟩
  | .setGammaTable _ es =>
    ⟨_, rfl, State.writesTo_ite (State.writesTo_ite (State.writesTo_respond _ _ _ _ c) rejects) rejects⟩
  | .deinit => by simp [sparesChannel] at hspare
  | .tick => absurd rfl htick

/-- The loop of a TICK writes an armed channel's duty once: no two channel numbers below 256 have the same id. -/
theorem State.writesIn_writesBelow (s : State) (c : ChannelId) {n : Nat} (hn : n ≤ 256) :
    writesIn c (s.writesBelow n) = if c.toNat < n ∧ (s.chan c.toNat).armed = true then 1 else 0 := by
  induction n with
  | zero => simp [State.writesBelow, State.armedBelow]
  | succ n ih =>
    have hid : BitVec.ofNat 8 n = c ↔ c.toNat = n := by
      rw [← BitVec.toNat_inj, BitVec.toNat_ofNat, Nat.mod_eq_of_lt (by omega), eq_comm]
    rw [State.writesBelow_succ, writesIn_append, ih (by omega)]
    by_cases hc : c.toNat = n
    · subst hc
      cases (s.chan c.toNat).armed <;> simp
    · have hlt : c.toNat < n + 1 ↔ c.toNat < n := by omega
      cases (s.chan n).armed <;> simp [hid, hc, hlt]

theorem State.Inv.channelCount_le_256 {s : State} (h : s.Inv) : s.ctrl.channelCount.toNat ≤ 256 := by
  have hcount := h.channelCount_le
  obtain ⟨⟨⟨⟨-, hmax⟩, -⟩, hlen, -⟩, -⟩ := h
  omega

/-- TICK writes the duty of a channel in use exactly if it is armed. -/
theorem execTick_next_writesTo {s : State} (h : s.Inv) {c : ChannelId} (hc : c.toNat < s.ctrl.channelCount.toNat) :
    ∃ t, exec .tick s = .next t ∧
      t.writesTo c = s.writesTo c + if (s.chan c.toNat).armed = true then 1 else 0 := by
  rcases execTick_cases s with ⟨-, e⟩ | ⟨hstop, e⟩
  · refine ⟨_, e, ?_⟩
    rw [State.acceptedTick, State.writesTo_tickAnswer, State.writesTo_selfStopCheck,
      State.tickChannels_eq h.channelCount_le, State.writesTo_eq]
    simp only [State.tickedTo, writesIn_append, s.writesIn_writesBelow c h.channelCount_le_256, hc, true_and]
    rfl
  · have hidle : ¬(s.chan c.toNat).armed = true := fun ha => by simp [h.running_of_armed hc ha] at hstop
    exact ⟨s, e, by rw [if_neg hidle]; rfl⟩

/-! ## A run -/

/-- Along instructions that spare a channel in use, each TICK that finds it armed writes its duty once. -/
theorem runInstrs_writesTo {c : ChannelId} {is : List Instr} {s u : State} (h : s.Inv)
    (hi : s.ctrl.initialized = true) (hc : c.toNat < s.ctrl.channelCount.toNat)
    (hspare : ∀ i ∈ is, sparesChannel c i = true) (hrun : runInstrs is s = .next u) :
    u.writesTo c = s.writesTo c +
      Nat.count (fun j => (ChannelRegs.tick^[j] (s.chan c.toNat)).armed = true) (is.count .tick) := by
  induction is generalizing s with
  | nil => cases hrun; simp
  | cons i is ih =>
    obtain ⟨hspare_i, hspare_is⟩ := List.forall_mem_cons.mp hspare
    by_cases htick : i = .tick
    · subst htick
      obtain ⟨t, hx, hctrl, hchan⟩ := execTick_next_chan h hc
      obtain ⟨t', hx', hwrites⟩ := execTick_next_writesTo h hc
      cases hx.symm.trans hx'
      simp only [runInstrs, hx] at hrun
      rw [ih (h.exec hx) (hctrl ▸ hi) (hctrl ▸ hc) hspare_is hrun, hwrites, hchan, List.count_cons_self,
        Nat.count_succ', Nat.add_right_comm, Nat.add_assoc]
      rfl
    · obtain ⟨t, hx, hctrl, hchan⟩ := exec_next_spares hi hspare_i htick
      obtain ⟨t', hx', hwrites⟩ := exec_next_writesTo s hspare_i htick
      cases hx.symm.trans hx'
      simp only [runInstrs, hx] at hrun
      rw [ih (h.exec hx) (hctrl ▸ hi) (hctrl ▸ hc) hspare_is hrun, hwrites, hchan, List.count_cons_of_ne htick]

/-- After a command that armed a channel in use come instructions that spare it: what has become of the channel. -/
theorem runInstrs_after {c : ChannelId} {i : Instr} {is : List Instr} {s t : State} (hx : exec i s = .next t)
    (h : t.Inv) (hi : t.ctrl.initialized = true) (hc : c.toNat < t.ctrl.channelCount.toNat)
    (hspare : ∀ i ∈ is, sparesChannel c i = true) :
    ∃ u, runInstrs (i :: is) s = .next u ∧
      u.chan c.toNat = ChannelRegs.tick^[is.count .tick] (t.chan c.toNat) ∧
      ((u.chan c.toNat).armed = true → u.sched.running = true) ∧
      u.writesTo c = t.writesTo c +
        Nat.count (fun j => (ChannelRegs.tick^[j] (t.chan c.toNat)).armed = true) (is.count .tick) := by
  obtain ⟨u, hu, hinv, hctrl, hchan⟩ := runInstrs_chan h hi hc hspare
  exact ⟨u, by simpa only [runInstrs, hx] using hu, hchan, hinv.running_of_armed (hctrl ▸ hc),
    runInstrs_writesTo h hi hc hspare hu⟩

end Sys2Proof.Machine
end

section
/-! SUPPORT. The register values of a fade and of a loop after any number of TICKs (41_fade_engine.md R183-R188). -/
namespace Sys2Proof.Machine

/-! ## Reading a register set -/

/-- A register set with R44's invariants, and its values as numbers: half-period, target and ticks left, present
brightness and step. -/
def ChannelRegs.Shows (r : ChannelRegs) (half target left : Nat) (cur step : Int) : Prop :=
  r.Inv ∧ r.halfPeriodTicks.toNat = half ∧ r.target.toNat = target ∧ r.remainingTicks.toNat = left ∧
    (r.cur.toNat : Int) = cur ∧ r.step.toInt = step

section
variable {r : ChannelRegs} {half target left : Nat} {cur step : Int}

theorem ChannelRegs.Shows.armed_iff (h : r.Shows half target left cur step) :
    r.armed = true ↔ 0 < left ∨ 0 < half := by
  obtain ⟨-, rfl, -, rfl, -⟩ := h
  exact r.armed_iff

/-- A TICK keeps the channel invariant, the half-period and the target (R178). -/
theorem ChannelRegs.Shows.tick_of (h : r.Shows half target left cur step) {left' : Nat} {cur' step' : Int}
    (hleft : r.tick.remainingTicks.toNat = left') (hcur : (r.tick.cur.toNat : Int) = cur')
    (hstep : r.tick.step.toInt = step') : r.tick.Shows half target left' cur' step' := by
  obtain ⟨hinv, hhalf, htarget, -⟩ := h
  obtain ⟨hhalf', htarget'⟩ := r.tick_half_target
  exact ⟨ChannelRegs.tick_inv hinv, hhalf' ▸ hhalf, htarget' ▸ htarget, hleft, hcur, hstep⟩

/-- Branch 1 moves by the step, unless it ends a fade (R179). -/
theorem ChannelRegs.Shows.countDown (h : r.Shows half target (left + 1) cur step) (hmore : 0 < half ∨ 0 < left) :
    r.tick.Shows half target left (cur + step) step := by
  obtain ⟨hinv, hhalf, -, hleft, rfl, rfl⟩ := id h
  have hr : 0 < r.remainingTicks.toNat := by omega
  have hpred := ticks_pred_toNat hr
  have htick : r.tick = r.countDown := by simp [ChannelRegs.tick, hr]
  have hnot : ¬(r.remainingTicks - 1#32 = 0#32 ∧ r.halfPeriodTicks = 0#32) := by
    rintro ⟨hzero, hnone⟩
    simp only [hzero, BitVec.toNat_ofNat] at hpred
    simp only [hnone, BitVec.toNat_ofNat] at hhalf
    omega
  apply h.tick_of
  · rw [htick, ChannelRegs.countDown, hpred, hleft, Nat.add_sub_cancel]
  · rw [htick, ChannelRegs.countDown_cur hinv hr hnot]
  · rw [htick]
    rfl

/-- The last TICK of a fade snaps to the target (R179). -/
theorem ChannelRegs.Shows.snap (h : r.Shows 0 target 1 cur step) : r.tick.Shows 0 target 0 target step := by
  obtain ⟨-, hhalf, htarget, hleft, -, rfl⟩ := id h
  have hr : 0 < r.remainingTicks.toNat := by omega
  have htick : r.tick = r.countDown := by simp [ChannelRegs.tick, hr]
  have hnone : r.halfPeriodTicks = 0#32 := BitVec.eq_of_toNat_eq hhalf
  have hpred : (r.remainingTicks - 1#32).toNat = 0 := by rw [ticks_pred_toNat hr, hleft]
  apply h.tick_of
  · rw [htick]
    exact hpred
  · rw [htick, ChannelRegs.countDown_cur_eq hr, if_pos ⟨hleft, hnone⟩, htarget]
  · rw [htick]
    rfl

/-- Branch 2 turns the ramp of a loop round, or toggles if there is none (R180). -/
theorem ChannelRegs.Shows.turn (h : r.Shows half target 0 cur step) (hhalf : 0 < half) :
    r.tick.Shows half target (half - 1)
      (if step = 0 then if cur = target then 0 else (target : Int) else cur - step) (-step) := by
  obtain ⟨hinv, rfl, rfl, hleft, rfl, rfl⟩ := id h
  obtain ⟨⟨-, -, -, hlow, -⟩, -⟩ := id hinv
  obtain ⟨-, hbranch, -⟩ := tickChannelBranches r
  obtain ⟨hleft', -, -, hstep', hcur'⟩ := hbranch hleft hhalf (by omega)
  have hrange := ChannelRegs.reverse_no_saturation hinv hleft hhalf
  have hzero : r.step = 0#17 ↔ r.step.toInt = 0 := not_iff_not.mp (step_ne_zero_iff r.step)
  have heq : r.cur = r.target ↔ (r.cur.toNat : Int) = r.target.toNat := by rw [← BitVec.toNat_inj, Nat.cast_inj]
  refine h.tick_of hleft' ?_ hstep'
  simp only [hcur', hzero, heq, max_eq_right hrange.1, min_eq_right hrange.2]

/-- Branch 3 changes nothing (R181). -/
theorem ChannelRegs.Shows.idle (h : r.Shows 0 target 0 cur step) : r.tick = r :=
  ChannelRegs.tick_of_not_armed (by simpa using h.armed_iff.not)

/-! ## A ramp -/

/-- Within a half-period, and in a fade until its last TICK, `m` TICKs make `m` steps. -/
theorem ChannelRegs.Shows.iterate_tick (h : r.Shows half target left cur step) {m : Nat} (hm : m ≤ left)
    (hmore : 0 < half ∨ m < left) :
    (ChannelRegs.tick^[m] r).Shows half target (left - m) (cur + m * step) step := by
  induction m with
  | zero => simpa using h
  | succ m ih =>
    have hprev := ih (by omega) (by omega)
    rw [show left - m = left - (m + 1) + 1 by omega] at hprev
    have hnext := hprev.countDown (by omega)
    rw [Function.iterate_succ_apply']
    convert hnext using 1
    push_cast
    ring

/-- A fade of `n` ticks ends at its target on the `n`-th TICK, and stays there (R183). -/
theorem ChannelRegs.Shows.fade_done (h : r.Shows 0 target left cur step) (hpos : 0 < left) {k : Nat} (hk : left ≤ k) :
    (ChannelRegs.tick^[k] r).Shows 0 target 0 target step := by
  have hlast := h.iterate_tick (m := left - 1) (by omega) (by omega)
  rw [show left - (left - 1) = 1 by omega] at hlast
  have hend := hlast.snap
  rw [← Function.iterate_succ_apply' ChannelRegs.tick, show (left - 1).succ = left by omega] at hend
  rw [← Nat.sub_add_cancel hk, Function.iterate_add_apply, Function.iterate_fixed hend.idle]
  exact hend

/-- The TICKs of one half-period, of which the first has set the direction. -/
theorem ChannelRegs.Shows.ramp (h : r.tick.Shows half target (half - 1) (cur + step) step) {m : Nat} (hm : 1 ≤ m)
    (hle : m ≤ half) : (ChannelRegs.tick^[m] r).Shows half target (half - m) (cur + m * step) step := by
  obtain ⟨m, rfl⟩ := Nat.exists_eq_add_of_le' hm
  rw [Function.iterate_succ_apply]
  convert h.iterate_tick (m := m) (by omega) (.inl (by omega)) using 1
  · omega
  · push_cast
    ring

/-- A loop that begins with a whole half-period to count is on its way from the first TICK on. -/
theorem ChannelRegs.Shows.first (h : r.Shows half target half cur step) (hhalf : 0 < half) :
    r.tick.Shows half target (half - 1) (cur + step) step := by
  obtain ⟨n, rfl⟩ := Nat.exists_eq_add_of_le' hhalf
  exact h.countDown (.inl hhalf)

end

/-! ## The wave of a loop -/

/-- Half-period `j` of a loop starts from `start j` and goes by `dir j` on each TICK: the next one goes the other way
from where this one ends, or, without a step, toggles between 0 and the target (R180, R184, R185). -/
def Turns (half target : Nat) (start dir : Nat → Int) : Prop :=
  ∀ j, dir (j + 1) = -dir j ∧
    start (j + 1) = if dir j = 0 then if start j = target then 0 else (target : Int) else start j + half * dir j

section
variable {r : ChannelRegs} {half target : Nat} {start dir : Nat → Int} (hhalf : 0 < half)
  (hturns : Turns half target start dir) (hfirst : r.tick.Shows half target (half - 1) (start 0 + dir 0) (dir 0))
include hhalf hturns hfirst

/-- The first TICK of half-period `j`. -/
theorem ChannelRegs.wave_first (j : Nat) :
    (ChannelRegs.tick^[j * half] r).tick.Shows half target (half - 1) (start j + dir j) (dir j) := by
  induction j with
  | zero => simpa using hfirst
  | succ j ih =>
    obtain ⟨hdir, hstart⟩ := hturns j
    have hend := ih.ramp hhalf le_rfl
    rw [Nat.sub_self] at hend
    rw [Nat.succ_mul, Nat.add_comm, Function.iterate_add_apply]
    convert hend.turn hhalf using 1
    rw [hstart, hdir]
    split
    next hzero => simp [hzero]
    next => ring

/-- The brightness after `k` TICKs, of which the last is the `m`-th of half-period `j`, with `1 ≤ m ≤ half`. -/
theorem ChannelRegs.wave_cur {k : Nat} (hk : 1 ≤ k) :
    let j := (k - 1) / half
    let m := k - j * half
    (1 ≤ m ∧ m ≤ half) ∧ ((ChannelRegs.tick^[k] r).cur.toNat : Int) = start j + m * dir j := by
  intro j m
  have hdiv : j * half + (k - 1) % half = k - 1 := Nat.div_add_mod' (k - 1) half
  have hmod := Nat.mod_lt (k - 1) hhalf
  have hm : 1 ≤ m := by omega
  have hle : m ≤ half := by omega
  have hk' : k = m + j * half := by omega
  obtain ⟨-, -, -, -, hcur, -⟩ := (ChannelRegs.wave_first hhalf hturns hfirst j).ramp hm hle
  rw [← Function.iterate_add_apply, ← hk'] at hcur
  exact ⟨⟨hm, hle⟩, hcur⟩

end

end Sys2Proof.Machine
end

section
/-! SUPPORT. The trajectories of a fade and of the three loops (41_fade_engine.md R183-R188). -/
namespace Sys2Proof.Machine

/-! ## The waves of the three loops -/

/-- `a` in even half-periods, `b` in odd ones. -/
def alternate (a b : Int) (j : Nat) : Int := if j % 2 = 0 then a else b

theorem alternate_succ (a b : Int) (j : Nat) : alternate a b (j + 1) = alternate b a j := by
  simp only [alternate, Nat.succ_mod_two_eq_zero_iff]
  rcases Nat.mod_two_eq_zero_or_one j with hj | hj <;> simp [hj]

theorem alternate_cases {p : Int → Int → Prop} {a b : Int} (j : Nat) (hab : p a b) (hba : p b a) :
    p (alternate a b j) (alternate b a j) := by
  unfold alternate
  split <;> assumption

/-- Without a step the loop toggles between 0 and its target. -/
theorem turns_toggle (half target : Nat) {a b : Int} (hb : b = if a = target then 0 else (target : Int))
    (ha : a = if b = target then 0 else (target : Int)) : Turns half target (alternate a b) fun _ => 0 := by
  refine fun j => ⟨neg_zero.symm, ?_⟩
  rw [if_pos rfl, alternate_succ]
  exact alternate_cases (p := fun x y => y = if x = target then 0 else (target : Int)) j hb ha

/-- With a step it falls and rises in turn. -/
theorem turns_ramp (half target : Nat) {s : Int} (hs : 0 < s) :
    Turns half target (alternate target (target - half * s)) (alternate (-s) s) := by
  intro j
  rw [alternate_succ, alternate_succ]
  unfold alternate
  split
  · exact ⟨(neg_neg s).symm, by rw [if_neg (by omega)]; ring⟩
  · exact ⟨rfl, by rw [if_neg (by omega)]; ring⟩

/-! ## What the commands set up -/

/-- A smooth loop starts with a whole falling half-period, a square one with none left to count (R176). -/
theorem ChannelRegs.startLoop_shows (r : ChannelRegs) (v : Byte) {n : Ticks} (hn : 0 < n.toNat) (smooth : Bool) :
    (r.startLoop v n smooth).Shows n.toNat (v.toNat * 256) (if smooth then n.toNat else 0) (v.toNat * 256 : Nat)
      (if smooth then -(v.toNat * 256 / n.toNat : Nat) else 0) := by
  have hv := toQ88_le v
  have hquot := Nat.div_le_self (v.toNat * 256) n.toNat
  have hstep : tdiv (-(v.toNat * 256 : Nat)) n.toNat = -(v.toNat * 256 / n.toNat : Nat) := by
    rw [tdiv, Int.neg_tdiv, Int.tdiv_eq_ediv_of_nonneg (by omega), Int.natCast_ediv]
  rw [toQ88_toNat] at hv
  refine ⟨ChannelRegs.startLoop_inv v n smooth, ?_⟩
  cases smooth with
  | false => simp [ChannelRegs.startLoop, atLeastOneTick_of_pos hn]
  | true =>
    generalize v.toNat * 256 / n.toNat = quot at hquot hstep
    simp only [ChannelRegs.startLoop, atLeastOneTick_of_pos hn, if_true, toQ88_toNat, true_and, hstep]
    exact toStep_toInt (by omega) (by omega)

/-- A fade of `n` ticks starts from the present brightness (R175). -/
theorem ChannelRegs.setFade_shows {r : ChannelRegs} (h : r.Inv) (v : Byte) {n : Ticks} (hn : 0 < n.toNat) :
    (r.setFade v n).Shows 0 (v.toNat * 256) n.toNat r.cur.toNat
      (tdiv ((v.toNat : Int) * 256 - r.cur.toNat) n.toNat) := by
  have hv := toQ88_le v
  obtain ⟨⟨hc, -⟩, -⟩ := id h
  obtain ⟨hup, hdown⟩ := tdiv_abs_le ((v.toNat : Int) * 256 - r.cur.toNat) (b := n.toNat) (by omega)
  obtain ⟨hup', hdown'⟩ := tdiv_mul_between ((v.toNat : Int) * 256 - r.cur.toNat) (b := n.toNat) (by omega)
  rw [toQ88_toNat] at hv
  refine ⟨ChannelRegs.setFade_inv v n h, rfl, toQ88_toNat v, ?_⟩
  simp only [ChannelRegs.setFade, atLeastOneTick_of_pos hn, toQ88_toNat, true_and, Nat.cast_mul, Nat.cast_ofNat]
  exact toStep_toInt (by omega) (by omega)

/-! ## A loop -/

theorem ChannelRegs.iterate_tick_half (r : ChannelRegs) (k : Nat) :
    (ChannelRegs.tick^[k] r).halfPeriodTicks = r.halfPeriodTicks := by
  induction k with
  | zero => rfl
  | succ k ih =>
    obtain ⟨hhalf, -⟩ := ChannelRegs.tick_half_target (ChannelRegs.tick^[k] r)
    rw [Function.iterate_succ_apply', hhalf, ih]

/-- After START_BLINK the channel stays armed, so the scheduler runs and every TICK writes a duty. -/
theorem runInstrs_startBlink {s : State} {c : ChannelId} {is : List Instr} (h : s.Inv) (hpresent : s.Present c)
    (v : Byte) (ms : Millis) (smooth : Bool) (hspare : ∀ i ∈ is, sparesChannel c i = true) :
    let half := max 1 (ms.toNat / 2 / s.ctrl.tickPeriodMs.toNat)
    ∃ u r, runInstrs (.startBlink c v ms smooth :: is) s = .next u ∧ u.sched.running = true ∧
      u.writesTo c = s.writesTo c + is.count .tick ∧ u.chan c.toNat = ChannelRegs.tick^[is.count .tick] r ∧
      r.Shows half (v.toNat * 256) (if smooth then half else 0) (v.toNat * 256 : Nat)
        (if smooth then -(v.toNat * 256 / half : Nat) else 0) := by
  intro half
  obtain ⟨hi, hc, hlen⟩ := id hpresent
  have hhalf : (halfTicks s.ctrl.tickPeriodMs ms).toNat = half := halfTicks_toNat _ _
  have hctrl : (s.startBlink c v ms smooth).ctrl = s.ctrl := by simp [State.startBlink]
  have hchan : (s.startBlink c v ms smooth).chan c.toNat =
      (s.chan c.toNat).startLoop v (halfTicks s.ctrl.tickPeriodMs ms) smooth := by simp [State.startBlink, hlen]
  have hwrites : (s.startBlink c v ms smooth).writesTo c = s.writesTo c := by simp [State.startBlink]
  obtain ⟨u, hu, huchan, hrunning, huwrites⟩ := runInstrs_after (hpresent.exec_startBlink v ms smooth)
    (h.startBlink hi hc v ms smooth) (hctrl ▸ hi) (hctrl ▸ hc) hspare
  rw [hchan] at huchan huwrites
  have harmed (k : Nat) : (ChannelRegs.tick^[k]
      ((s.chan c.toNat).startLoop v (halfTicks s.ctrl.tickPeriodMs ms) smooth)).armed = true := by
    rw [ChannelRegs.armed_iff, ChannelRegs.iterate_tick_half]
    exact .inr (by simp [ChannelRegs.startLoop])
  refine ⟨u, _, hu, hrunning (huchan ▸ harmed _), ?_, huchan,
    hhalf ▸ (s.chan c.toNat).startLoop_shows v (by omega) smooth⟩
  rw [huwrites, hwrites, Nat.count_of_forall fun k _ => harmed k]

/-- Settles O35: a square loop is off after its first TICK, and toggles once in each half-period. -/
theorem squareLoopTrajectory : Obligations.SquareLoopTrajectory := by
  intro s c v ms is h hpresent hspare half k
  obtain ⟨u, r, hu, hrunning, hwrites, hchan, hshows⟩ := runInstrs_startBlink h hpresent v ms false hspare
  refine ⟨u, hu, hrunning, fun hk => ?_, hwrites⟩
  have hpos : 0 < half := by omega
  have hfirst : r.tick.Shows half (v.toNat * 256) (half - 1) (alternate 0 (v.toNat * 256 : Nat) 0 + 0) 0 := by
    simpa [alternate] using hshows.turn hpos
  obtain ⟨-, hcur⟩ :=
    ChannelRegs.wave_cur hpos (turns_toggle half (v.toNat * 256) (by split <;> omega) (by simp)) hfirst hk
  rw [← hchan, mul_zero, add_zero, alternate] at hcur
  split at hcur
  next heven => rw [if_pos heven]; omega
  next hodd => rw [if_neg hodd]; omega

/-- Settles O36: a smooth loop with a step begins on a falling half-period, and every one has its whole length. -/
theorem smoothLoopTrajectory : Obligations.SmoothLoopTrajectory := by
  intro s c v ms is h hpresent hspare half V k j m hquot
  obtain ⟨u, r, hu, hrunning, hwrites, hchan, hshows⟩ := runInstrs_startBlink h hpresent v ms true hspare
  refine ⟨u, hu, hrunning, fun hk => ?_, hwrites⟩
  have hpos : 0 < half := by omega
  obtain ⟨⟨hm, hle⟩, hwave⟩ :=
    ChannelRegs.wave_cur hpos (turns_ramp half V (Int.natCast_pos.mpr hquot)) (hshows.first hpos) hk
  have hdiv := Nat.div_add_mod V half
  have hmod := Nat.mod_lt V hpos
  have hstep : m * (V / half) ≤ half * (V / half) := Nat.mul_le_mul_right _ hle
  refine ⟨hm, hle, by omega, by omega, ?_⟩
  have hcur : ((u.chan c.toNat).cur.toNat : Int) =
      alternate V (V - half * (V / half : Nat)) j + m * alternate (-(V / half : Nat)) (V / half : Nat) j := by
    rw [hchan]
    exact hwave
  rw [alternate, alternate] at hcur
  split at hcur
  next heven =>
    rw [mul_neg] at hcur
    rw [if_pos heven]
    omega
  next hodd =>
    rw [if_neg hodd]
    omega

/-- Settles O37: a smooth loop without a step counts its first half-period at the target, then toggles. -/
theorem degenerateSmoothLoopTrajectory : Obligations.DegenerateSmoothLoopTrajectory := by
  intro s c v ms is h hpresent hspare half V k hquot
  obtain ⟨u, r, hu, hrunning, hwrites, hchan, hshows⟩ := runInstrs_startBlink h hpresent v ms true hspare
  refine ⟨u, hu, hrunning, ?_, hwrites⟩
  have hpos : 0 < half := by omega
  have hstart : r.Shows half V half V (-(V / half : Nat)) := hshows
  rw [hquot, Nat.cast_zero, neg_zero] at hstart
  rcases Nat.eq_zero_or_pos k with hk | hk
  · obtain ⟨-, -, -, -, hcur, -⟩ := hstart
    have hnone : u.chan c.toNat = r := by rw [hchan, show is.count .tick = 0 from hk]; rfl
    rw [hnone, hk, if_pos (by simp)]
    omega
  obtain ⟨-, hcur⟩ := ChannelRegs.wave_cur hpos
    (turns_toggle half V (a := V) (b := 0) (by simp) (by split <;> omega)) (hstart.first hpos) hk
  rw [← hchan, mul_zero, add_zero, alternate] at hcur
  split at hcur
  next heven => rw [if_pos heven]; omega
  next hodd => rw [if_neg hodd]; omega

/-! ## A fade -/

/-- The TICKs before the `n`-th. -/
theorem count_lt_eq_min (n k : Nat) : Nat.count (· < n) k = min k n := by
  induction k with
  | zero => simp
  | succ k ih =>
    rw [Nat.count_succ, ih]
    split <;> omega

/-- Settles O33: the ramp is at its `k`-th step until the `n`-th TICK, which ends it at the target; the channel is
armed until then. -/
theorem oneShotFadeTrajectory : Obligations.OneShotFadeTrajectory := by
  intro s c v ms is h hpresent hms hspare n c0 T k
  obtain ⟨hi, hc, hlen⟩ := id hpresent
  have hticks : (fadeTicks s.ctrl.tickPeriodMs ms).toNat = n := fadeTicks_toNat _ _
  have hpos : 0 < n := by omega
  have hctrl : (s.startFade c v ms).ctrl = s.ctrl := by simp [State.startFade]
  have hwrites : (s.startFade c v ms).writesTo c = s.writesTo c := by simp [State.startFade]
  have hchan : (s.startFade c v ms).chan c.toNat =
      (s.chan c.toNat).setFade v (fadeTicks s.ctrl.tickPeriodMs ms) := by simp [State.startFade, hlen]
  have hshows := ChannelRegs.setFade_shows (h.chan c.toNat) v (hticks ▸ hpos)
  rw [hticks, ← hchan] at hshows
  obtain ⟨u, hu, huchan, hrunning, huwrites⟩ := runInstrs_after (hpresent.exec_startFade v hms)
    (h.startFade hi hc v ms) (hctrl ▸ hi) (hctrl ▸ hc) hspare
  have hbetween := fadeNeverLeavesItsInterval s u c v ms is h hpresent hms hspare hu
  have hramp {j : Nat} (hj : j < n) := hshows.iterate_tick hj.le (.inr hj)
  have hdone {j : Nat} (hj : n ≤ j) := hshows.fade_done hpos hj
  have harmed (j : Nat) :
      (ChannelRegs.tick^[j] ((s.startFade c v ms).chan c.toNat)).armed = true ↔ j < n := by
    rcases Nat.lt_or_ge j n with hj | hj
    · rw [(hramp hj).armed_iff]
      omega
    · rw [(hdone hj).armed_iff]
      omega
  have hcur : ((u.chan c.toNat).cur.toNat : Int) = if k < n then c0 + k * Int.tdiv (T - c0) n else T := by
    rw [huchan]
    split
    next hk =>
      obtain ⟨-, -, -, -, hcur, -⟩ := hramp hk
      exact hcur
    next hk =>
      obtain ⟨-, -, -, -, hcur, -⟩ := hdone (Nat.le_of_not_lt hk)
      exact hcur
  refine ⟨u, hu, hcur, fun hk => ⟨hrunning (huchan ▸ (harmed k).mpr hk), ?_⟩, fun hk => ?_, ?_⟩
  · rw [if_pos hk] at hcur
    omega
  · obtain ⟨-, hhalf, -, hleft, -⟩ := hdone hk
    rw [huchan, ChannelRegs.mode, hhalf, hleft]
    rfl
  · simp only [huwrites, hwrites, harmed, count_lt_eq_min]
    rfl

end Sys2Proof.Machine
end

section
/-! SUPPORT. The scheduler: what a stopped one makes of TICK words, and by what its state changes
(42_tick_scheduler.md R210, R213, R217). -/
namespace Sys2Proof.Machine

/-! ## A stopped scheduler -/

/-- While the scheduler is stopped a step first discards what stands on TICK, and then takes a command or waits. -/
theorem step_of_stopped {s : State} (h : s.sched.running = false) :
    step s = if s.cmdOffered then cmdStep (s.withTickIn []) else .next (s.withTickIn []) := by
  have hnone : s.tickOffered = false := by simp [State.tickOffered, h]
  have hchosen : s.chosen = s.withTickIn [] := by simp [State.chosen, hnone, State.dropStale_of_stopped h]
  rw [step, stepOnce, State.nextPort, hnone, hchosen]
  cases s.cmdOffered <;> rfl

/-- A check with two outcomes: how each command answers (43_commands.md R240). -/
theorem State.tickIn_ite {t u : State} {ws : List Word} {p : Prop} [Decidable p] (ht : t.ports.tickIn = ws)
    (hu : u.ports.tickIn = ws) : (if p then t else u).ports.tickIn = ws := by
  split <;> assumption

/-- A host command takes nothing from TICK. -/
theorem exec_next_tickIn {i : Instr} (s : State) (hport : i.port = .cmd) :
    ∃ t, exec i s = .next t ∧ t.ports.tickIn = s.ports.tickIn :=
  have rejects : (s.raise .invalidArgument).ports.tickIn = s.ports.tickIn := rfl
  have channel {i : Instr} {c : ChannelId} (hi : (∃ v ms, i = .setChannel c v ms) ∨
      (∃ v ms sm, i = .startBlink c v ms sm) ∨ i = .stopBlink c ∨ i = .getChannel c) :
      ∃ t, exec i s = .next t ∧ t.ports.tickIn = s.ports.tickIn := by
    obtain ⟨t, hx, -, -, -, -, -, -, htick, -⟩ := exec_next_confined s hi
    exact ⟨t, hx, htick⟩
  match i with
  | .init ms n =>
    ⟨_, rfl, State.tickIn_ite rejects (State.tickIn_ite rejects (State.tickIn_ite rejects
      (State.tickIn_ite rfl (by rw [State.initialize_eq]))))⟩
  | .deinit => ⟨_, rfl, State.tickIn_ite (by rw [State.deinitialize_eq]) rejects⟩
  | .setChannel _ v ms => channel (.inl ⟨v, ms, rfl⟩)
  | .startBlink _ v ms sm => channel (.inr (.inl ⟨v, ms, sm, rfl⟩))
  | .stopBlink _ => channel (.inr (.inr (.inl rfl)))
  | .getChannel _ => channel (.inr (.inr (.inr rfl)))
  | .setGammaTable _ _ => ⟨_, rfl, State.tickIn_ite (State.tickIn_ite rfl rejects) rejects⟩
  | .tick => nomatch hport

/-- A CMD transaction, legal or not, takes nothing from TICK. -/
theorem tickIn_of_cmdStep {s t : State} (h : cmdStep s = .next t) : t.ports.tickIn = s.ports.tickIn := by
  unfold cmdStep at h
  split at h
  case h_1 i rest hdec =>
    obtain ⟨-, -, hport⟩ := eq_encode_of_decodeCmd hdec
    obtain ⟨u, hu, htick⟩ := exec_next_tickIn (s.withCmdIn rest) hport
    cases hu.symm.trans h
    exact htick
  case h_2 => cases h; rfl
  case h_3 => cases h; rfl
  case h_4 => cases h

/-- Settles O8: a stopped scheduler's step works on the state without the words on TICK, and no command brings any
back. -/
theorem stoppedSchedulerDiscardsTickWords : Obligations.StoppedSchedulerDiscardsTickWords := by
  intro s hstop
  refine ⟨fun hport => ?_, fun hidle => ?_, fun ws => ?_, fun t hstep => ?_⟩
  · obtain ⟨hrun, -⟩ := State.tickOffered_of_nextPort hport
    simp [hstop] at hrun
  · rw [step_of_stopped hstop, hidle]
    rfl
  · have hws := step_of_stopped (s := s.withTickIn ws) hstop
    have hnone := step_of_stopped (s := s.withTickIn []) hstop
    exact hws.trans hnone.symm
  · rw [step_of_stopped hstop] at hstep
    split at hstep
    · exact tickIn_of_cmdStep hstep
    · cases hstep
      rfl

/-! ## The scheduler's state -/

/-- R210's three states told apart by RUNNING and PREPARED; RUNNING without PREPARED is none of them. -/
theorem Sched.mode_iff {x : Sched} (h : x.running = true → x.prepared = true) :
    x.mode ≠ none ∧ (x.running = true ↔ x.mode = some .running) ∧ (x.prepared = true ↔ x.mode ≠ some .unprepared) := by
  obtain ⟨_ | _, _ | _⟩ := x
  · simp [Sched.mode]
  · simp at h
  · simp [Sched.mode]
  · simp [Sched.mode]

/-- Settles O54: in a reachable state the TimeSource is in the scheduler's state. -/
theorem timeSourceRequestsAlternate : Obligations.TimeSourceRequestsAlternate := by
  intro p s hp hs
  obtain ⟨hinv, -⟩ := reachableStatesHaveTheInvariant p s hp hs
  have hmode := Sched.mode_iff hinv.prepared_of_running
  obtain ⟨-, -, -, -, hts⟩ := hinv
  rwa [hts]

theorem State.tickChannels_sched (s : State) : s.tickChannels.1.sched = s.sched := by
  have key (cs : List Nat) (acc : State × Option ChannelId) : (cs.foldl tickVisit acc).1.sched = acc.1.sched := by
    induction cs generalizing acc with
    | nil => rfl
    | cons c cs ih => exact (ih _).trans (tickVisit_sched acc c)
  exact key _ (s, none)

/-- What an instruction can do to `sched` (42_tick_scheduler.md R210-R216): keep it, or Prepare, EnsureRunning on a
stopped scheduler, SelfStopCheck, or Stop and release. -/
inductive SchedMove (s t : State) : Instr → Prop where
  | keep {i : Instr} (same : t.sched = s.sched) : SchedMove s t i
  | prepare (P : Millis) (N : BitVec 16) (off : s.ctrl.initialized = false) (sched : t.sched = ⟨true, false⟩) :
      SchedMove s t (.init P N)
  | start {i : Instr} (on : s.ctrl.initialized = true) (stopped : s.sched.running = false)
      (arms : (∃ c v ms, i = .setChannel c v ms ∧ ms ≠ 0#32) ∨ ∃ c v ms sm, i = .startBlink c v ms sm)
      (sched : t.sched = ⟨s.sched.prepared, true⟩) : SchedMove s t i
  | stop (running : s.sched.running = true) (sched : t.sched = ⟨s.sched.prepared, false⟩) : SchedMove s t .tick
  | release (on : s.ctrl.initialized = true) (sched : t.sched = ⟨false, false⟩) : SchedMove s t .deinit

theorem SchedMove.ite {s t u : State} {i : Instr} {p : Prop} [Decidable p] (ht : p → SchedMove s t i)
    (hu : ¬p → SchedMove s u i) : SchedMove s (if p then t else u) i :=
  iteInduction (motive := (SchedMove s · i)) ht hu

/-- Arming a channel starts a stopped scheduler and leaves a running one. -/
theorem SchedMove.arm {s : State} {i : Instr} (on : s.ctrl.initialized = true)
    (arms : (∃ c v ms, i = .setChannel c v ms ∧ ms ≠ 0#32) ∨ ∃ c v ms sm, i = .startBlink c v ms sm)
    (c : Nat) (r : ChannelRegs) : SchedMove s ((s.setChan c r).ensureRunning.respond .ok 0#8 0#8) i := by
  rcases (s.setChan c r).ensureRunning_cases with ⟨-, e⟩ | ⟨hstop, e⟩ <;> rw [e]
  · exact .keep rfl
  · exact .start on hstop arms rfl

/-- A TICK stops the scheduler or leaves it running. -/
theorem SchedMove.acceptedTick {s : State} (hrun : s.sched.running = true) : SchedMove s s.acceptedTick .tick := by
  have hanswer : s.acceptedTick.sched = s.tickChannels.1.selfStopCheck.sched := by
    rw [State.acceptedTick]
    cases s.tickChannels.2 <;> rfl
  rcases s.tickChannels.1.selfStopCheck_cases with ⟨-, e⟩ | ⟨-, e⟩ <;> rw [e] at hanswer
  · exact .keep (hanswer.trans s.tickChannels_sched)
  · refine .stop hrun (hanswer.trans ?_)
    simp [State.tickChannels_sched]

theorem exec_next_schedMove (s : State) (i : Instr) : ∃ t, exec i s = .next t ∧ SchedMove s t i :=
  have rejects {i : Instr} : SchedMove s (s.raise .invalidArgument) i := .keep rfl
  have accepted {c : ChannelId} (hc : s.accepts c = true) := (s.accepts_iff c).mp hc
  match i with
  | .init P N =>
    ⟨_, rfl, .ite (fun _ => rejects) fun hoff => .ite (fun _ => rejects) fun _ => .ite (fun _ => rejects) fun _ =>
      .ite (fun _ => .keep rfl) fun _ => .prepare P N (by simpa using hoff) rfl⟩
  | .deinit => ⟨_, rfl, .ite (fun hi => .release hi (by rw [State.deinitialize_eq]; rfl)) fun _ => rejects⟩
  | .setChannel c v ms =>
    ⟨_, rfl, .ite
      (fun hc => .ite (fun _ => .keep (by rw [State.setNow_eq]; rfl))
        fun hms => .arm (accepted hc).1 (.inl ⟨c, v, ms, rfl, hms⟩) _ _)
      fun _ => rejects⟩
  | .startBlink c v ms sm =>
    ⟨_, rfl, .ite (fun hc => .arm (accepted hc).1 (.inr ⟨c, v, ms, sm, rfl⟩) _ _) fun _ => rejects⟩
  | .stopBlink _ => ⟨_, rfl, .ite (fun _ => .keep rfl) fun _ => rejects⟩
  | .getChannel _ => ⟨_, rfl, .ite (fun _ => .keep rfl) fun _ => rejects⟩
  | .setGammaTable _ _ => ⟨_, rfl, .ite (fun _ => .ite (fun _ => .keep rfl) fun _ => rejects) fun _ => rejects⟩
  | .tick => ⟨_, rfl, .ite (fun hrun => .acceptedTick hrun) fun _ => .keep rfl⟩

/-- Settles O32: each move of `sched` is a row of R210's table, because PREPARED is INITIALIZED. -/
theorem schedulerTransitions : Obligations.SchedulerTransitions := by
  intro s t i a b hlife hx ha hb hne
  obtain ⟨hprep, hrunPrep, -⟩ := hlife
  obtain ⟨u, hu, hmove⟩ := exec_next_schedMove s i
  cases hu.symm.trans hx
  cases hmove with
  | keep same =>
    rw [same] at hb
    exact absurd (Option.some.inj (ha.symm.trans hb)) hne
  | prepare P N off sched =>
    have hnone : s.sched.prepared = false := hprep.trans off
    have hstop : s.sched.running = false := by
      by_contra hrun
      simp [hrunPrep (by simpa using hrun)] at hnone
    rw [Sched.eq_mk hnone hstop] at ha
    rw [sched] at hb
    cases ha
    cases hb
    exact .inl ⟨rfl, rfl, P, N, rfl⟩
  | start on stopped arms sched =>
    rw [Sched.eq_mk (hprep.trans on) stopped] at ha
    rw [sched, hprep, on] at hb
    cases ha
    cases hb
    exact .inr (.inl ⟨rfl, rfl, arms⟩)
  | stop running sched =>
    rw [Sched.eq_mk (hrunPrep running) running] at ha
    rw [sched, hrunPrep running] at hb
    cases ha
    cases hb
    exact .inr (.inr (.inl ⟨rfl, rfl, rfl⟩))
  | release on sched =>
    obtain ⟨-, -, hunprepared⟩ := Sched.mode_iff hrunPrep
    rw [sched] at hb
    cases hb
    refine .inr (.inr (.inr ⟨fun h => ?_, rfl, rfl⟩))
    exact hunprepared.mp (hprep.trans on) (h ▸ ha)

end Sys2Proof.Machine
end

section
/-! SUPPORT. An accepted TICK in one expression, and what its traffic holds (42_tick_scheduler.md R214, R215, R221). -/
namespace Sys2Proof.Machine

/-! ## The closed form -/

/-- SelfStopCheck on a running scheduler: RUNNING becomes "some channel is armed", with one TsStop if it falls (R215). -/
theorem State.selfStopCheck_eq {s : State} (hrun : s.sched.running = true) :
    s.selfStopCheck =
      { s with
        sched := { s.sched with running := s.anyArmed }
        ports := { s.ports with trace := s.ports.trace ++ if s.anyArmed then [] else [.tsreq .stop] } } := by
  rcases s.selfStopCheck_cases with ⟨harmed, e⟩ | ⟨hidle, e⟩ <;> rw [e]
  · rw [harmed, ← hrun]
    simp
  · rw [hidle]
    rfl

/-- The word that answers a TICK: Ok, or HardwareError with the lowest failing channel (30_encoding.md R109). -/
def tickWord : Option ChannelId → Word
  | none => 0#64
  | some c => BitVec.ofNat 64 (3 * 2 ^ 56 + c.toNat * 2 ^ 48)

theorem State.tickAnswer_eq (s : State) (errch : Option ChannelId) :
    s.tickAnswer errch = s.emit (.trsp (tickWord errch)) := by
  cases errch with
  | none => rw [tickWord, ← responseWord_ok]; rfl
  | some c => rw [tickWord, ← responseWord_hardwareError]; rfl

/-- Some channel in use stays armed through a TICK (R215). -/
def State.staysArmed (s : State) : Bool :=
  (List.range s.ctrl.channelCount.toNat).any fun c => (s.chan c).tick.armed

theorem State.anyArmed_tickedTo (s : State) :
    (s.tickedTo s.ctrl.channelCount.toNat).1.anyArmed = s.staysArmed := by
  have hchan (c : Nat) (hc : c < s.ctrl.channelCount.toNat) :
      (s.tickedTo s.ctrl.channelCount.toNat).1.chan c = (s.chan c).tick :=
    (s.tickedBelow_getD _ c).trans (if_pos hc)
  rw [Bool.eq_iff_iff, State.anyArmed_eq_true_iff, State.staysArmed, List.any_eq_true]
  simp only [List.mem_range]
  exact exists_congr fun c => and_congr_right fun hc => by rw [hchan c hc]

/-- What an accepted TICK puts out before its answer: the duty writes, then TsStop if no channel stays armed. -/
def State.tickTraffic (s : State) : List Event :=
  s.writesBelow s.ctrl.channelCount.toNat ++ if s.staysArmed then [] else [.tsreq .stop]

/-- All that an accepted TICK does (R214): the loop, SelfStopCheck, the answer. -/
theorem exec_tick_eq {s : State} (hrun : s.sched.running = true) (hcount : s.ctrl.channelCount.toNat ≤ s.ch.length) :
    exec .tick s = .next
      { s with
        sched := { s.sched with running := s.staysArmed }
        ch := s.tickedBelow s.ctrl.channelCount.toNat
        ports :=
          { s.ports with
            sinkAnswers := s.ports.sinkAnswers.drop (s.armedBelow s.ctrl.channelCount.toNat).length
            sinkCount := s.ports.sinkCount + (s.armedBelow s.ctrl.channelCount.toNat).length
            trace := s.ports.trace ++ s.tickTraffic ++
              [.trsp (tickWord (s.failureBelow s.ctrl.channelCount.toNat))] } } := by
  have hx : exec .tick s = .next s.acceptedTick := by simp [exec, execTick, hrun]
  have hstop := State.selfStopCheck_eq (s := (s.tickedTo s.ctrl.channelCount.toNat).1) hrun
  rw [hx, State.acceptedTick, State.tickChannels_eq hcount, hstop, State.tickAnswer_eq, State.anyArmed_tickedTo,
    State.tickTraffic, ← List.append_assoc]
  rfl

/-- Settles O28. -/
theorem tickAdvancesEveryChannelOnce : Obligations.TickAdvancesEveryChannelOnce := by
  rintro s hrun ⟨hcount, -⟩
  rw [exec_tick_eq hrun hcount, State.tickTraffic, ← List.append_assoc]
  rfl

/-! ## The traffic -/

theorem State.armedBelow_length_le (s : State) (n : Nat) : (s.armedBelow n).length ≤ n :=
  (List.length_filter_le _ _).trans_eq List.length_range

/-- The loop puts out nothing but duty writes: one for each armed channel, in the order of the channels. -/
theorem State.writesBelow_traffic (s : State) (n : Nat) :
    sinkWrites (s.writesBelow n) = (s.armedBelow n).zipIdx.map (fun p =>
      (BitVec.ofNat 8 p.1, s.map (s.chan p.1).tick.cur, s.answerAt p.2)) ∧
    tsRequests (s.writesBelow n) = [] ∧ responses (s.writesBelow n) = [] := by
  simp [State.writesBelow, sinkWrites, tsRequests, responses]

theorem State.tickTraffic_cases (s : State) :
    sinkWrites s.tickTraffic = sinkWrites (s.writesBelow s.ctrl.channelCount.toNat) ∧ responses s.tickTraffic = [] ∧
    (tsRequests s.tickTraffic = [] ∨ tsRequests s.tickTraffic = [.stop]) := by
  obtain ⟨-, hreq, hresp⟩ := s.writesBelow_traffic s.ctrl.channelCount.toNat
  rw [State.tickTraffic, sinkWrites_append, tsRequests_append, responses_append, hreq, hresp]
  cases s.staysArmed with
  | true => exact ⟨List.append_nil _, rfl, .inl rfl⟩
  | false => exact ⟨List.append_nil _, rfl, .inr rfl⟩

/-- The channel ids written are the numbers of the armed channels: no number below 256 is cut short. -/
theorem State.sinkWrites_writesBelow_ids (s : State) {n : Nat} (hn : n ≤ 256) :
    (sinkWrites (s.writesBelow n)).map (fun x => x.1.toNat) = s.armedBelow n := by
  have hid : ∀ c ∈ s.armedBelow n, (BitVec.ofNat 8 c).toNat = c := fun c hc => by
    obtain ⟨hc, -⟩ := List.mem_filter.mp hc
    have := List.mem_range.mp hc
    rw [BitVec.toNat_ofNat]
    omega
  calc (sinkWrites (s.writesBelow n)).map (fun x => x.1.toNat)
      = ((s.armedBelow n).zipIdx.map Prod.fst).map (fun c => (BitVec.ofNat 8 c).toNat) := by
        rw [(s.writesBelow_traffic n).1, List.map_map, List.map_map]
        rfl
    _ = (s.armedBelow n).map id := by
        rw [List.zipIdx_map_fst]
        exact List.map_congr_left hid
    _ = s.armedBelow n := List.map_id _

/-- Every duty written is a Map, so within DUTY_MAX (40_gamma_lut.md R145). -/
theorem State.duty_le_of_mem_sinkWrites {s : State} {n : Nat} {x : ChannelId × Nat × SinkResult}
    (hx : x ∈ sinkWrites (s.writesBelow n)) : x.2.1 ≤ 2 ^ s.params.dutyBits - 1 := by
  rw [(s.writesBelow_traffic n).1, List.mem_map] at hx
  obtain ⟨p, -, rfl⟩ := hx
  exact (mapDuty_eq s.params.dutyBits s.lut _).2

/-- Settles O30: the writes name the armed channels, which are a part of `0 .. CHANNEL_COUNT − 1` in order. -/
theorem tickIsBoundedAndInChannelOrder : Obligations.TickIsBoundedAndInChannelOrder := by
  rintro s t hrun ⟨hcount, hcount256⟩ hx
  cases (exec_tick_eq hrun hcount).symm.trans hx
  obtain ⟨hwrites, hresp, hreq⟩ := s.tickTraffic_cases
  have hids := s.sinkWrites_writesBelow_ids hcount256
  rw [← hwrites] at hids
  refine ⟨s.tickTraffic, _, rfl, hresp, ?_, ?_, fun x hmem => ?_, hreq⟩
  · have hlen := congrArg List.length hids
    rw [List.length_map] at hlen
    exact hlen.trans_le (s.armedBelow_length_le _)
  · rw [hids]
    exact List.pairwise_lt_range.filter _
  · have hc : x.1.toNat ∈ s.armedBelow s.ctrl.channelCount.toNat := hids ▸ List.mem_map_of_mem hmem
    obtain ⟨hc, -⟩ := List.mem_filter.mp hc
    exact ⟨List.mem_range.mp hc, State.duty_le_of_mem_sinkWrites (hwrites ▸ hmem)⟩

/-! ## A TICK that finds no channel armed -/

section
variable {s : State} (hidle : s.anyArmed = false)
include hidle

theorem State.chan_not_armed_of_anyArmed {c : Nat} (hc : c < s.ctrl.channelCount.toNat) : (s.chan c).armed = false := by
  by_contra harmed
  simp [s.anyArmed_eq_true_iff.mpr ⟨c, hc, by simpa using harmed⟩] at hidle

theorem State.armedBelow_of_idle : s.armedBelow s.ctrl.channelCount.toNat = [] :=
  List.filter_eq_nil_iff.mpr fun _ hc => by simp [State.chan_not_armed_of_anyArmed hidle (List.mem_range.mp hc)]

/-- No register set is changed (R181). -/
theorem State.tickedBelow_of_idle : s.tickedBelow s.ctrl.channelCount.toNat = s.ch := by
  apply List.ext_getElem (s.tickedBelow_length _)
  intro c _ hlen
  have hchan : s.chan c = s.ch[c] := by simp [State.chan, List.getD, hlen]
  simp only [State.tickedBelow, List.getElem_mapIdx]
  split
  next hc => exact ChannelRegs.tick_of_not_armed (hchan ▸ State.chan_not_armed_of_anyArmed hidle hc)
  next => rfl

/-- No channel is armed by a TICK (R178). -/
theorem State.staysArmed_of_idle : s.staysArmed = false := by
  rw [State.staysArmed, List.any_eq_false]
  intro c hc htick
  have harmed := ChannelRegs.armed_of_tick_armed htick
  simp [State.chan_not_armed_of_anyArmed hidle (List.mem_range.mp hc)] at harmed

end

/-- Settles O31: with no armed channel the loop and its writes are empty; RUNNING after a TICK is what SelfStopCheck
finds. -/
theorem schedulerStopsWhenNoChannelIsArmed : Obligations.SchedulerStopsWhenNoChannelIsArmed := by
  rintro s t hrun ⟨hcount, -⟩ hx
  cases (exec_tick_eq hrun hcount).symm.trans hx
  refine ⟨fun hidle => ?_, s.anyArmed_tickedTo.symm⟩
  simp only [State.tickTraffic, State.writesBelow, State.failureBelow, State.armedBelow_of_idle hidle,
    State.tickedBelow_of_idle hidle, State.staysArmed_of_idle hidle, List.append_assoc]
  rfl

end Sys2Proof.Machine
end

section
/-! SUPPORT. One channel along an endless run: until the next accepted TICK it stays as it is, and a fair TimeSource
brings one (42_tick_scheduler.md R219, 41_fade_engine.md R183). -/
namespace Sys2Proof.Machine

/-! ## Reading a register set -/

theorem ChannelRegs.mode_eq_oneShotFade_iff (r : ChannelRegs) :
    r.mode = .oneShotFade ↔ r.halfPeriodTicks.toNat = 0 ∧ 0 < r.remainingTicks.toNat := by
  unfold ChannelRegs.mode
  split
  next hloop => exact iff_of_false (by decide) (by omega)
  next hnone =>
    split
    next hfade => exact iff_of_true rfl (by omega)
    next hidle => exact iff_of_false (by decide) (by omega)

theorem ChannelRegs.mode_of_idle {r : ChannelRegs} (hhalf : r.halfPeriodTicks.toNat = 0)
    (hleft : r.remainingTicks.toNat = 0) : r.mode = .idle := by
  simp [ChannelRegs.mode, hhalf, hleft]

/-- Only a channel in use can be armed, and only on an initialized core (10_state.md R34, R45). -/
theorem State.Inv.inUse_of_armed {s : State} (h : s.Inv) {c : Nat} (ha : (s.chan c).armed = true) :
    s.ctrl.initialized = true ∧ c < s.ctrl.channelCount.toNat := by
  obtain ⟨⟨-, hlen, -⟩, ⟨-, -, -, hoff⟩, ⟨-, hunused⟩, -⟩ := h
  have hzero : s.chan c ≠ ChannelRegs.zero := fun e => by simp [e, ChannelRegs.zero_not_armed] at ha
  have hexists : c < s.params.nChMax := by
    by_contra hc
    exact hzero (by simp [State.chan, List.getD, hlen, Nat.le_of_not_lt hc])
  have hcount : c < s.ctrl.channelCount.toNat := by
    by_contra hc
    exact hzero (hunused c hexists (Nat.le_of_not_lt hc))
  refine ⟨?_, hcount⟩
  by_contra hi
  obtain ⟨-, hnone, -⟩ := hoff (by simpa using hi)
  simp [hnone] at hcount

/-! ## One move of a run -/

section
variable {s t : State} {c : ChannelId}

theorem State.SameCore.chan (h : s.SameCore t) (k : Nat) : t.chan k = s.chan k := by
  obtain ⟨-, -, -, hch, -⟩ := h
  rw [State.chan, State.chan, hch]

/-- An accepted TICK ticks a channel in use. -/
theorem chan_of_step_acceptsTick (h : s.Inv) (hc : c.toNat < s.ctrl.channelCount.toNat) (htick : s.acceptsTick)
    (hstep : step s = .next t) : t.chan c.toNat = (s.chan c.toNat).tick := by
  have hcore := s.chosen_sameCore
  obtain ⟨-, hctrl, -, hch, -⟩ := id hcore
  cases (State.step_of_acceptsTick htick).symm.trans hstep
  have hcount : (s.chosen.withTickIn s.ports.tickIn.tail).ctrl.channelCount.toNat ≤
      (s.chosen.withTickIn s.ports.tickIn.tail).ch.length := by
    rw [State.withTickIn_ctrl, State.withTickIn_ch, ← hctrl, ← hch]
    exact h.channelCount_le
  rw [State.acceptedTick_chan hcount, State.withTickIn_ctrl, ← hctrl, if_pos hc, State.withTickIn_chan, hcore.chan]

/-- Any other step that takes no command of the channel leaves its register set alone. -/
theorem chan_of_step_spares (hi : s.ctrl.initialized = true)
    (hspare : ∀ i, s.takesCommand i → sparesChannel c i = true) (htick : ¬s.acceptsTick) (hstep : step s = .next t) :
    t.chan c.toNat = s.chan c.toNat := by
  have hcore := s.chosen_sameCore
  obtain ⟨-, hctrl, -⟩ := id hcore
  rcases step_next_cases hstep with ⟨-, rfl⟩ | ⟨hport, i, rest, hdec, hx⟩ | ⟨-, why, rest, -, rfl⟩ |
    ⟨hport, w, i, rest, hhead, hdec, -⟩ | ⟨-, w, why, rest, -, -, rfl⟩
  · exact hcore.chan _
  · obtain ⟨-, -, hcmd⟩ := eq_encode_of_decodeCmd hdec
    have hne : i ≠ .tick := by
      rintro rfl
      cases hcmd
    obtain ⟨u, hu, -, hchan⟩ := exec_next_spares (s := s.chosen.withCmdIn rest) (hctrl ▸ hi)
      (hspare i ⟨hport, rest, hdec⟩) hne
    cases hu.symm.trans hx
    exact hchan.trans (hcore.chan _)
  · exact hcore.chan _
  · obtain ⟨hrun, -⟩ := State.tickOffered_of_nextPort hport
    obtain ⟨rfl, rfl⟩ := eq_encodeWord_of_decodeTick hdec
    exact absurd ⟨hrun, hport, by rw [hhead]; rfl⟩ htick
  · exact hcore.chan _

end

/-! ## A run that spares a channel -/

/-- From move `n` on, no step takes a command that touches channel `c`. -/
def EndlessRun.SparesFrom {p : Params} (r : EndlessRun p) (n : Nat) (c : ChannelId) : Prop :=
  ∀ m ≥ n, r.steps m = true → ∀ i, (r.state m).takesCommand i → sparesChannel c i = true

section
variable {p : Params} {r : EndlessRun p} {n : Nat} {c : ChannelId}

theorem EndlessRun.inv (hp : p.Legal) (r : EndlessRun p) (m : Nat) : (r.state m).Inv := by
  obtain ⟨hinv, -⟩ := reachableStatesHaveTheInvariant p _ hp (r.reachable m)
  exact hinv

theorem EndlessRun.SparesFrom.mono (h : r.SparesFrom n c) {m : Nat} (hm : n ≤ m) : r.SparesFrom m c :=
  fun k hk => h k (hm.trans hk)

/-- An accepted TICK ticks the channel. -/
theorem EndlessRun.chan_of_ticksAt (hp : p.Legal) {m : Nat} (ha : ((r.state m).chan c.toNat).armed = true)
    (htick : r.ticksAt m) : (r.state (m + 1)).chan c.toNat = ((r.state m).chan c.toNat).tick := by
  obtain ⟨hsteps, haccepts⟩ := htick
  have hinv := r.inv hp m
  rcases r.move_cases m with ⟨-, hstep⟩ | ⟨hoffer, -⟩
  · exact chan_of_step_acceptsTick hinv (hinv.inUse_of_armed ha).2 haccepts hstep
  · simp [hsteps] at hoffer

/-- Any other move leaves the channel as it is. -/
theorem EndlessRun.SparesFrom.chan_of_not_ticksAt (hspare : r.SparesFrom n c) (hp : p.Legal) {m : Nat} (hm : n ≤ m)
    (ha : ((r.state m).chan c.toNat).armed = true) (htick : ¬r.ticksAt m) :
    (r.state (m + 1)).chan c.toNat = (r.state m).chan c.toNat := by
  rcases r.move_cases m with ⟨hsteps, hstep⟩ | ⟨-, hoffer⟩
  · obtain ⟨hi, -⟩ := (r.inv hp m).inUse_of_armed ha
    exact chan_of_step_spares hi (hspare m hm hsteps) (fun haccepts => htick ⟨hsteps, haccepts⟩) hstep
  · exact hoffer.sameCore.1.chan _

/-- Until the next accepted TICK the channel stays as it is. -/
theorem EndlessRun.SparesFrom.chan_until (hspare : r.SparesFrom n c) (hp : p.Legal)
    (ha : ((r.state n).chan c.toNat).armed = true) {m : Nat} (hm : n ≤ m) (hnone : ∀ k, n ≤ k → k < m → ¬r.ticksAt k) :
    (r.state m).chan c.toNat = (r.state n).chan c.toNat := by
  induction m, hm using Nat.le_induction with
  | base => rfl
  | succ m hm ih =>
    have hsame := ih fun k hk hlt => hnone k hk (hlt.trans (Nat.lt_succ_self m))
    exact (hspare.chan_of_not_ticksAt hp hm (hsame ▸ ha) (hnone m hm (Nat.lt_succ_self m))).trans hsame

/-- While a channel is armed the scheduler runs, so a fair TimeSource has a TICK accepted sooner or later (R212, R219). -/
theorem EndlessRun.SparesFrom.exists_ticksAt (hspare : r.SparesFrom n c) (hp : p.Legal) (hfair : r.Fair)
    (ha : ((r.state n).chan c.toNat).armed = true) : ∃ m, n ≤ m ∧ r.ticksAt m := by
  by_contra hnever
  have hnone (k : Nat) (hk : n ≤ k) : ¬r.ticksAt k := fun htick => hnever ⟨k, hk, htick⟩
  have hrunning : ∀ m ≥ n, (r.state m).sched.running = true := fun m hm => by
    have hinv := r.inv hp m
    have harmed : ((r.state m).chan c.toNat).armed = true :=
      hspare.chan_until hp ha hm (fun k hk _ => hnone k hk) ▸ ha
    exact hinv.running_of_armed (hinv.inUse_of_armed harmed).2 harmed
  obtain ⟨m, hm, htick⟩ := hfair ⟨n, hrunning⟩ n
  exact hnone m hm htick

/-- So an armed channel that is spared is ticked once more. -/
theorem EndlessRun.SparesFrom.exists_tick (hspare : r.SparesFrom n c) (hp : p.Legal) (hfair : r.Fair)
    (ha : ((r.state n).chan c.toNat).armed = true) :
    ∃ m, n ≤ m ∧ (r.state m).chan c.toNat = ((r.state n).chan c.toNat).tick := by
  classical
  have hexists := hspare.exists_ticksAt hp hfair ha
  obtain ⟨hm, htick⟩ := Nat.find_spec hexists
  have hsame := hspare.chan_until hp ha hm fun k hk hlt htick => Nat.find_min hexists hlt ⟨hk, htick⟩
  refine ⟨Nat.find hexists + 1, hm.trans (Nat.le_succ _), ?_⟩
  rw [EndlessRun.chan_of_ticksAt hp (hsame ▸ ha) htick, hsame]

/-- And again and again, as long as it is armed. -/
theorem EndlessRun.SparesFrom.exists_iterate_tick (hspare : r.SparesFrom n c) (hp : p.Legal) (hfair : r.Fair) (k : Nat)
    (ha : ∀ j < k, (ChannelRegs.tick^[j] ((r.state n).chan c.toNat)).armed = true) :
    ∃ m, n ≤ m ∧ (r.state m).chan c.toNat = ChannelRegs.tick^[k] ((r.state n).chan c.toNat) := by
  induction k with
  | zero => exact ⟨n, le_rfl, rfl⟩
  | succ k ih =>
    obtain ⟨m, hm, hchan⟩ := ih fun j hj => ha j (hj.trans (Nat.lt_succ_self k))
    obtain ⟨m', hm', htick⟩ := (hspare.mono hm).exists_tick hp hfair (hchan ▸ ha k (Nat.lt_succ_self k))
    exact ⟨m', hm.trans hm', by rw [htick, hchan, Function.iterate_succ_apply']⟩

end

/-- Settles O60: fairness brings the fade each of the TICKs it has left, and the last of them ends it (R183). -/
theorem fairRunsFinishFades : Obligations.FairRunsFinishFades := by
  intro p r n c hp hfair hmode hspare
  obtain ⟨hhalf, hleft⟩ := (ChannelRegs.mode_eq_oneShotFade_iff _).mp hmode
  have hshows : ((r.state n).chan c.toNat).Shows 0 _ _ _ _ := ⟨(r.inv hp n).chan _, hhalf, rfl, rfl, rfl, rfl⟩
  have harmed (j : Nat) (hj : j < ((r.state n).chan c.toNat).remainingTicks.toNat) :
      (ChannelRegs.tick^[j] ((r.state n).chan c.toNat)).armed = true :=
    (hshows.iterate_tick hj.le (.inr hj)).armed_iff.mpr (.inl (Nat.sub_pos_of_lt hj))
  have hspares : r.SparesFrom n c := hspare
  obtain ⟨m, hm, hchan⟩ := hspares.exists_iterate_tick hp hfair _ harmed
  obtain ⟨-, hhalf', -, hleft', hcur, -⟩ := hshows.fade_done hleft le_rfl
  rw [← hchan] at hhalf' hleft' hcur
  exact ⟨m, hm, ChannelRegs.mode_of_idle hhalf' hleft', BitVec.eq_of_toNat_eq (Int.ofNat_inj.mp hcur)⟩

end Sys2Proof.Machine
end

section
/-! SUPPORT. The checks that each command begins with, and what INIT, DEINIT, GET_CHANNEL and SET_GAMMA_TABLE answer
(43_commands.md R240-R244, R248, R249). -/
namespace Sys2Proof.Machine

/-! ## Milliseconds -/

/-- Settles O27: two floors are one (R242). -/
theorem millisecondConversions : Obligations.MillisecondConversions := fun p ms =>
  ⟨fadeTicks_toNat p ms, halfTicks_toNat p ms, by rw [halfTicks_toNat, Nat.div_div_eq_div_mul]⟩

/-! ## Answers that change nothing -/

/-- The answer is the only effect (60_exceptions.md R286). -/
theorem State.raise_invalidArgument (s : State) :
    s.raise .invalidArgument =
      { s with ports := { s.ports with trace := s.ports.trace ++ [.rsp 0x0100000000000000#64] } } := by
  have hword : responseWord .invalidArgument 0#8 0#8 = 0x0100000000000000#64 := by decide
  rw [← hword]
  rfl

theorem State.raise_resourceExhausted (s : State) :
    s.raise .resourceExhausted =
      { s with ports := { s.ports with trace := s.ports.trace ++ [.rsp 0x0200000000000000#64] } } := by
  have hword : responseWord .resourceExhausted 0#8 0#8 = 0x0200000000000000#64 := by decide
  rw [← hword]
  rfl

/-- The answer Ok holds nothing but DATA, in bits 7:0 (30_encoding.md R108). -/
theorem responseWord_ok_data (d : Byte) : responseWord .ok 0#8 d = BitVec.ofNat 64 d.toNat := by
  simp [responseWord, place, Status.code]

/-! ## Lifecycle -/

/-- The first three checks of R243 answer alike, so their order among themselves does not show. -/
theorem exec_init_of_invalid {s : State} {P : Millis} {N : BitVec 16}
    (h : s.ctrl.initialized = true ∨ P = 0#32 ∨ N = 0#16) :
    exec (.init P N) s = .next (s.raise .invalidArgument) := by
  rcases h with hon | hP | hN
  · simp [exec, execInit, hon]
  · simp [exec, execInit, hP]
  · simp [exec, execInit, hN]

/-- The fourth check of R243 (R287). -/
theorem exec_init_of_tooMany {s : State} {P : Millis} {N : BitVec 16} (hoff : s.ctrl.initialized = false)
    (hP : P ≠ 0#32) (hN : N ≠ 0#16) (hlt : s.params.nChMax < N.toNat) :
    exec (.init P N) s = .next (s.raise .resourceExhausted) := by
  simp [exec, execInit, hoff, hP, hN, hlt]

/-- Settles O15: a failed check of INIT raises its error. -/
theorem initChecksInOrder : Obligations.InitChecksInOrder := by
  refine fun s P N => ⟨fun hinvalid => ?_, fun hoff hP hN hlt => ?_⟩
  · rw [exec_init_of_invalid hinvalid, State.raise_invalidArgument]
  · rw [exec_init_of_tooMany hoff hP hN hlt, State.raise_resourceExhausted]

/-- Settles O16: past its one check, DEINIT is `State.deinitialize_eq`. -/
theorem deinitRestoresResetState : Obligations.DeinitRestoresResetState := by
  refine fun s => ⟨fun hon => ?_, fun hoff => ?_⟩
  · have haccept : exec .deinit s = .next s.deinitialize := by simp [exec, execDeinit, hon]
    rw [haccept, State.deinitialize_eq, responseWord_ok, List.append_assoc, List.append_assoc]
    rfl
  · have hreject : exec .deinit s = .next (s.raise .invalidArgument) := by simp [exec, execDeinit, hoff]
    rw [hreject, State.raise_invalidArgument]

/-! ## Channel commands -/

/-- R240's two tests, failing. -/
theorem State.accepts_eq_false_iff (s : State) (c : ChannelId) :
    s.accepts c = false ↔ s.ctrl.initialized = false ∨ s.ctrl.channelCount.toNat ≤ c.toNat := by
  rw [← Bool.not_eq_true, State.accepts_iff, not_and_or, Bool.not_eq_true, Nat.not_lt]

/-- Each channel command, in each of its forms, begins with R240's tests. -/
theorem exec_channelCommand_of_not_accepts {s : State} {i : Instr} {c : ChannelId} (hc : s.accepts c = false)
    (hi : (∃ v ms, i = .setChannel c v ms) ∨ (∃ v ms sm, i = .startBlink c v ms sm) ∨ i = .stopBlink c ∨
      i = .getChannel c) :
    exec i s = .next (s.raise .invalidArgument) := by
  rcases hi with ⟨v, ms, rfl⟩ | ⟨v, ms, sm, rfl⟩ | rfl | rfl
  · simp [exec, execSetChannel, hc]
  · simp [exec, execStartBlink, hc]
  · simp [exec, execStopBlink, hc]
  · simp [exec, execGetChannel, hc]

/-- Settles O19: a channel that is not accepted is rejected before anything else. -/
theorem channelCommandsValidateTheirChannel : Obligations.ChannelCommandsValidateTheirChannel := by
  intro s i c hi hreject
  rw [exec_channelCommand_of_not_accepts ((s.accepts_eq_false_iff c).mpr hreject) hi, State.raise_invalidArgument]

/-- The clamp keeps the integer part within its byte (R248). -/
theorem integerPart_toNat (q : Q88) : (integerPart q).toNat = min 255 (q.toNat / 256) := by
  rw [integerPart, BitVec.toNat_ofNat]
  omega

theorem State.Present.exec_getChannel {s : State} {c : ChannelId} (h : s.Present c) :
    exec (.getChannel c) s = .next (s.respond .ok 0#8 (integerPart (s.chan c.toNat).cur)) := by
  simp [exec, execGetChannel, h.accepts]

/-- Settles O24: the answer's DATA is the clamped integer part, and the answer is all. -/
theorem getChannelAnswersIntegerPart : Obligations.GetChannelAnswersIntegerPart := by
  intro s c h
  rw [h.exec_getChannel, ← integerPart_toNat, ← responseWord_ok_data]
  rfl

/-! ## The gamma table command -/

/-- Override by a whole table is that table (40_gamma_lut.md R144). -/
theorem overrideTable_eq_self {es : List Entry} (hlen : es.length = 256) : overrideTable es = es := by
  refine List.ext_getElem (by simp [overrideTable, hlen]) fun k _ hk => ?_
  simp [overrideTable, lutRead, List.getD, hk]

theorem exec_setGammaTable_of_invalid {s : State} {len : BitVec 9} (es : List Entry)
    (h : s.ctrl.initialized = false ∨ len ≠ 256#9) :
    exec (.setGammaTable len es) s = .next (s.raise .invalidArgument) := by
  rcases h with hoff | hlen
  · simp [exec, execSetGammaTable, hoff]
  · simp [exec, execSetGammaTable, hlen]

/-- Settles O25: a well-formed payload of LEN = 256 is a whole table. -/
theorem setGammaTableReplacesTheTable : Obligations.SetGammaTableReplacesTheTable := by
  refine fun s len es hwf => ⟨fun hon hlen => ?_, fun hinvalid => ?_⟩
  · subst hlen
    have hwhole : es.length = 256 := by simpa [Instr.WellFormed, Instr.wellFormed] using hwf
    have haccept : exec (.setGammaTable 256#9 es) s =
        .next ({ s with lut := overrideTable es }.respond .ok 0#8 0#8) := by
      simp [exec, execSetGammaTable, hon]
    rw [haccept, overrideTable_eq_self hwhole, State.respond, responseWord_ok]
    rfl
  · rw [exec_setGammaTable_of_invalid es hinvalid, State.raise_invalidArgument]

end Sys2Proof.Machine
end

section
/-! SUPPORT. When a step waits and when it stops (30_encoding.md R115, 60_exceptions.md R280, R301). -/
namespace Sys2Proof

/-! ## A SET_GAMMA_TABLE that is not yet whole -/

section
variable {w : Word} {es : List Entry}

theorem payloadLength_of_setGammaTable (hopc : fieldOPC w = 0x07#8) : payloadLength w = (fieldLEN w).toNat := by
  rw [payloadLength, if_pos hopc]

theorem decodeCmd_of_missing_entries (hlen : es.length < payloadLength w) :
    decodeCmd (.word w :: es.map .entry) = .pending := by
  simp only [decodeCmd, takeEntries_pending hlen]

theorem decodeCmd_of_word_among_entries (hlen : es.length < payloadLength w) (w' : Word) (rest : List CmdItem) :
    decodeCmd (.word w :: es.map .entry ++ .word w' :: rest) = .interleaved := by
  simp only [List.cons_append, decodeCmd, takeEntries_interleaved hlen]

end

end Sys2Proof

namespace Sys2Proof.Machine

/-! ## A step that takes nothing, and the step that is refused -/

theorem step_of_nextPort_none {s : State} (h : s.nextPort = none) : step s = .next s.chosen := by
  rw [step, stepOnce, h]

theorem step_of_cmd_interleaved {s : State} (hport : s.nextPort = some .cmd)
    (hdec : decodeCmd s.ports.cmdIn = .interleaved) : step s = .refused .interleavedTransactions := by
  simp only [step_of_nextPort_cmd hport, cmdStep, State.chosen_cmdIn, hdec]

section
variable {s : State}

theorem State.cmdOffered_of_pending (h : decodeCmd s.ports.cmdIn = .pending) : s.cmdOffered = false := by
  rw [State.cmdOffered, h]

theorem State.tickOffered_of_running (hrun : s.sched.running = true) (htick : s.ports.tickIn ≠ []) :
    s.tickOffered = true := by
  simp [State.tickOffered, hrun, htick]

/-- With no command offered and nothing on TICK the core waits, and stays as it is (log 8). -/
theorem step_of_nothing_offered (hcmd : s.cmdOffered = false) (htick : s.ports.tickIn = []) : step s = .next s := by
  have hport : s.nextPort = none := by simp [State.nextPort, hcmd, State.tickOffered, htick]
  rw [step_of_nextPort_none hport, State.chosen_of_tickIn_nil htick]

end

/-- Settles O10: a payload with entries missing is pending, so CMD offers nothing; with a word among its entries it is
interleaved. -/
theorem incompletePayloadWaits : Obligations.IncompletePayloadWaits := by
  intro s w es hopc hmissing
  have hlen : es.length < payloadLength w := hmissing.trans_eq (payloadLength_of_setGammaTable hopc).symm
  refine ⟨fun hcmd => ?_, fun w' rest hcmd hport => ?_⟩
  · have hnone : s.cmdOffered = false := State.cmdOffered_of_pending (hcmd ▸ decodeCmd_of_missing_entries hlen)
    refine ⟨step_of_nothing_offered hnone, fun hrun htick => ?_, fun hstop => ?_⟩
    · rw [State.nextPort, hnone, State.tickOffered_of_running hrun htick]
    · rw [step_of_stopped hstop, hnone]
      rfl
  · exact step_of_cmd_interleaved hport (hcmd ▸ decodeCmd_of_word_among_entries hlen w' rest)

/-! ## Every step -/

theorem exec_next (i : Instr) (s : State) : ∃ t, exec i s = .next t := by
  obtain ⟨t, hx, -⟩ := exec_next_extends i s
  exact ⟨t, hx⟩

/-- A step that takes a word from TICK answers a next state: the word is the tick word or it is rejected. -/
theorem step_next_of_nextPort_tick {s : State} (hport : s.nextPort = some .tick) : ∃ t, step s = .next t := by
  obtain ⟨-, w, rest, htick⟩ := State.tickOffered_of_nextPort hport
  cases hdec : decodeTick w with
  | instr i => exact step_of_tick_instr hport htick hdec ▸ exec_next i _
  | illegal why => exact ⟨_, step_of_tick_illegal hport htick hdec⟩

/-- A step that takes from CMD runs or rejects a whole transaction, or finds interleaved ones. -/
theorem step_of_nextPort_cmd_cases {s : State} (hport : s.nextPort = some .cmd) :
    (∃ t, step s = .next t) ∨
    (step s = .refused .interleavedTransactions ∧ decodeCmd s.ports.cmdIn = .interleaved) := by
  cases hdec : decodeCmd s.ports.cmdIn with
  | instr i rest => exact .inl (step_of_cmd_instr hport hdec ▸ exec_next i _)
  | illegal why rest => exact .inl ⟨_, step_of_cmd_illegal hport hdec⟩
  | pending => exact absurd (State.cmdOffered_of_nextPort hport) (by simp [State.cmdOffered_of_pending hdec])
  | interleaved => exact .inr ⟨step_of_cmd_interleaved hport hdec, rfl⟩

/-- Settles O12, by the port that the step takes from. -/
theorem nothingStopsButInterleavedTransactions : Obligations.NothingStopsButInterleavedTransactions := by
  refine ⟨exec_next, fun s => ?_⟩
  cases hport : s.nextPort with
  | none => exact .inl ⟨_, step_of_nextPort_none hport⟩
  | some p =>
    cases p with
    | cmd => exact step_of_nextPort_cmd_cases hport
    | tick => exact .inl (step_next_of_nextPort_tick hport)

end Sys2Proof.Machine
end

section
/-! SUPPORT. Two runs of one instruction that differ in what the sink answers (60_exceptions.md R284, R286). -/
namespace Sys2Proof.Machine

/-! ## Traffic -/

/-- The same duty writes up to the sink's answers, and the same TimeSource requests. The response words, which report
the answers, may differ. -/
def SameRequests (es es' : List Event) : Prop :=
  (sinkWrites es).map (fun x => (x.1, x.2.1)) = (sinkWrites es').map (fun x => (x.1, x.2.1)) ∧
    tsRequests es = tsRequests es'

theorem SameRequests.refl (es : List Event) : SameRequests es es := ⟨rfl, rfl⟩

theorem SameRequests.append {es es' fs fs' : List Event} (h : SameRequests es es') (h' : SameRequests fs fs') :
    SameRequests (es ++ fs) (es' ++ fs') := by
  obtain ⟨hwrites, hreq⟩ := h
  obtain ⟨hwrites', hreq'⟩ := h'
  refine ⟨?_, ?_⟩
  · rw [sinkWrites_append, sinkWrites_append, List.map_append, List.map_append, hwrites, hwrites']
  · rw [tsRequests_append, tsRequests_append, hreq, hreq']

theorem sameRequests_rsp (w w' : Word) : SameRequests [.rsp w] [.rsp w'] := ⟨rfl, rfl⟩

theorem sameRequests_trsp (w w' : Word) : SameRequests [.trsp w] [.trsp w'] := ⟨rfl, rfl⟩

theorem sameRequests_sink (c : ChannelId) (d : Nat) (a a' : SinkResult) :
    SameRequests [.sink c d a] [.sink c d a'] := ⟨rfl, rfl⟩

/-! ## The whole state -/

/-- The same state of the core, which has asked the same of the sink and of the TimeSource. -/
def State.SameButAnswers (s t : State) : Prop := s.SameCore t ∧ SameRequests s.ports.trace t.ports.trace

/-- A check with two outcomes. -/
theorem State.SameButAnswers.ite {s t s' t' : State} {p : Prop} [Decidable p] (h : s.SameButAnswers t)
    (h' : s'.SameButAnswers t') : (if p then s else s').SameButAnswers (if p then t else t') := by
  split <;> assumption

section
variable {s t : State} (h : s.SameButAnswers t)
include h

/-- Two such states differ in their ports alone: every function of the core is the same for both. -/
theorem State.SameButAnswers.exists_ports :
    ∃ ports, t = { s with ports := ports } ∧ SameRequests s.ports.trace ports.trace := by
  obtain ⟨params, ctrl, sched, ch, lut, ports⟩ := s
  obtain ⟨params', ctrl', sched', ch', lut', ports'⟩ := t
  obtain ⟨⟨rfl, rfl, rfl, rfl, rfl⟩, hreq⟩ := h
  exact ⟨ports', rfl, hreq⟩

theorem State.SameButAnswers.setChan (c : Nat) (r : ChannelRegs) :
    (s.setChan c r).SameButAnswers (t.setChan c r) := by
  obtain ⟨ports, rfl, hreq⟩ := h.exists_ports
  exact ⟨⟨rfl, rfl, rfl, rfl, rfl⟩, hreq⟩

theorem State.SameButAnswers.setRunning (b : Bool) : (s.setRunning b).SameButAnswers (t.setRunning b) := by
  obtain ⟨ports, rfl, hreq⟩ := h.exists_ports
  exact ⟨⟨rfl, rfl, rfl, rfl, rfl⟩, hreq⟩

theorem State.SameButAnswers.replaceTable (es : List Entry) :
    State.SameButAnswers { s with lut := overrideTable es } { t with lut := overrideTable es } := by
  obtain ⟨ports, rfl, hreq⟩ := h.exists_ports
  exact ⟨⟨rfl, rfl, rfl, rfl, rfl⟩, hreq⟩

/-! ## Output ports -/

theorem State.SameButAnswers.emit {e e' : Event} (he : SameRequests [e] [e']) :
    (s.emit e).SameButAnswers (t.emit e') := by
  obtain ⟨hcore, hreq⟩ := h
  exact ⟨hcore, hreq.append he⟩

theorem State.SameButAnswers.tsRequest (r : TsRequest) : (s.tsRequest r).SameButAnswers (t.tsRequest r) :=
  h.emit (.refl _)

/-- A response may report what the sink answered. -/
theorem State.SameButAnswers.respond (a a' : Status) (e e' : ChannelId) (d d' : Byte) :
    (s.respond a e d).SameButAnswers (t.respond a' e' d') :=
  h.emit (sameRequests_rsp _ _)

theorem State.SameButAnswers.raise (a : Status) : (s.raise a).SameButAnswers (t.raise a) :=
  h.respond _ _ _ _ _ _

theorem State.SameButAnswers.tickAnswer (errch errch' : Option ChannelId) :
    (s.tickAnswer errch).SameButAnswers (t.tickAnswer errch') := by
  rw [State.tickAnswer_eq, State.tickAnswer_eq]
  exact h.emit (sameRequests_trsp _ _)

/-- The one place where an answer of the sink is recorded. -/
theorem State.SameButAnswers.sinkApply (c : ChannelId) (d : Nat) :
    (s.sinkApply c d).SameButAnswers (t.sinkApply c d) := by
  obtain ⟨hcore, hreq⟩ := h
  exact ⟨hcore, hreq.append (sameRequests_sink c d _ _)⟩

/-! ## The scheduler -/

theorem State.SameButAnswers.ensureRunning : s.ensureRunning.SameButAnswers t.ensureRunning := by
  have hstarted := (h.setRunning true).tsRequest .start
  obtain ⟨ports, rfl, -⟩ := h.exists_ports
  exact .ite h hstarted

theorem State.SameButAnswers.selfStopCheck : s.selfStopCheck.SameButAnswers t.selfStopCheck := by
  have hstopped := (h.setRunning false).tsRequest .stop
  obtain ⟨ports, rfl, -⟩ := h.exists_ports
  exact .ite h hstopped

end

/-! ## A TICK -/

/-- One channel's turn in a TICK: the duty is that of the updated register set, whatever was answered before. -/
theorem sameButAnswers_tickVisit {a b : State × Option ChannelId} (h : a.1.SameButAnswers b.1) (c : Nat) :
    (tickVisit a c).1.SameButAnswers (tickVisit b c).1 := by
  obtain ⟨s, errch⟩ := a
  obtain ⟨t, errch'⟩ := b
  have hticked := h.setChan c (s.chan c).tick
  obtain ⟨ports, rfl, -⟩ := h.exists_ports
  have hchan : State.chan { s with ports := ports } c = s.chan c := rfl
  simp only [tickVisit, State.tickChannel_eq, hchan]
  cases (s.chan c).armed with
  | true => exact hticked.sinkApply _ _
  | false => exact h

section
variable {s t : State} (h : s.SameButAnswers t)
include h

theorem State.SameButAnswers.tickChannels : s.tickChannels.1.SameButAnswers t.tickChannels.1 := by
  obtain ⟨⟨-, hctrl, -⟩, -⟩ := id h
  rw [State.tickChannels, State.tickChannels, hctrl]
  exact List.foldl_rel (r := fun a b : State × Option ChannelId => a.1.SameButAnswers b.1) h fun c _ _ _ hvisits =>
    sameButAnswers_tickVisit hvisits c

theorem State.SameButAnswers.acceptedTick : s.acceptedTick.SameButAnswers t.acceptedTick :=
  h.tickChannels.selfStopCheck.tickAnswer _ _

/-! ## The commands that pass their checks -/

theorem State.initialize_sameButAnswers (ms : Millis) (n : BitVec 16) :
    (s.initialize ms n).SameButAnswers (t.initialize ms n) := by
  obtain ⟨ports, rfl, hreq⟩ := h.exists_ports
  rw [State.initialize_eq, State.initialize_eq]
  exact ⟨⟨rfl, rfl, rfl, rfl, rfl⟩, (hreq.append (.refl _)).append (.refl _)⟩

theorem State.SameButAnswers.deinitialize : s.deinitialize.SameButAnswers t.deinitialize := by
  obtain ⟨ports, rfl, hreq⟩ := h.exists_ports
  rw [State.deinitialize_eq, State.deinitialize_eq]
  exact ⟨⟨rfl, rfl, rfl, rfl, rfl⟩, (hreq.append (.refl _)).append (.refl _)⟩

/-- The register update comes before the write, so a failed write leaves it (60_exceptions.md R286). -/
theorem State.SameButAnswers.setNow (c : ChannelId) (v : Byte) : (s.setNow c v).SameButAnswers (t.setNow c v) := by
  have hwritten := (h.setChan c.toNat ((s.chan c.toNat).setImmediate v)).sinkApply c (s.map (toQ88 v))
  obtain ⟨ports, rfl, -⟩ := h.exists_ports
  rw [State.setNow_eq, State.setNow_eq]
  exact hwritten.respond _ _ _ _ _ _

/-- What the fade form of SET_CHANNEL, START_BLINK and STOP_BLINK make of a channel's registers depends on the core
alone. -/
theorem State.SameButAnswers.startFade (c : ChannelId) (v : Byte) (ms : Millis) :
    (s.startFade c v ms).SameButAnswers (t.startFade c v ms) := by
  have harmed := (h.setChan c.toNat ((s.chan c.toNat).setFade v (fadeTicks s.ctrl.tickPeriodMs ms))).ensureRunning
  obtain ⟨ports, rfl, -⟩ := h.exists_ports
  exact harmed.respond _ _ _ _ _ _

theorem State.SameButAnswers.startBlink (c : ChannelId) (v : Byte) (ms : Millis) (smooth : Bool) :
    (s.startBlink c v ms smooth).SameButAnswers (t.startBlink c v ms smooth) := by
  have harmed :=
    (h.setChan c.toNat ((s.chan c.toNat).startLoop v (halfTicks s.ctrl.tickPeriodMs ms) smooth)).ensureRunning
  obtain ⟨ports, rfl, -⟩ := h.exists_ports
  exact harmed.respond _ _ _ _ _ _

theorem State.SameButAnswers.stopBlink (c : ChannelId) : (s.stopBlink c).SameButAnswers (t.stopBlink c) := by
  have hstopped := h.setChan c.toNat (s.chan c.toNat).stopLoop
  obtain ⟨ports, rfl, -⟩ := h.exists_ports
  exact hstopped.respond _ _ _ _ _ _

/-! ## Every instruction -/

/-- The checks of an instruction read the core alone, so both states take the same branch. -/
theorem exec_next_sameButAnswers (i : Instr) :
    ∃ s' t', exec i s = .next s' ∧ exec i t = .next t' ∧ s'.SameButAnswers t' := by
  have rejects := h.raise .invalidArgument
  obtain ⟨ports, rfl, -⟩ := h.exists_ports
  exact match i with
  | .init ms n =>
    ⟨_, _, rfl, rfl, .ite rejects (.ite rejects (.ite rejects
      (.ite (h.raise _) (State.initialize_sameButAnswers h ms n))))⟩
  | .deinit => ⟨_, _, rfl, rfl, .ite h.deinitialize rejects⟩
  | .setChannel c v ms => ⟨_, _, rfl, rfl, .ite (.ite (h.setNow c v) (h.startFade c v ms)) rejects⟩
  | .startBlink c v ms smooth => ⟨_, _, rfl, rfl, .ite (h.startBlink c v ms smooth) rejects⟩
  | .stopBlink c => ⟨_, _, rfl, rfl, .ite (h.stopBlink c) rejects⟩
  | .getChannel _ => ⟨_, _, rfl, rfl, .ite (h.respond _ _ _ _ _ _) rejects⟩
  | .setGammaTable _ es =>
    ⟨_, _, rfl, rfl, .ite (.ite ((h.replaceTable es).respond _ _ _ _ _ _) rejects) rejects⟩
  | .tick => ⟨_, _, rfl, rfl, .ite h.acceptedTick h⟩

end

/-- Settles O46: an answer of the sink is only recorded and reported, and no check and no register update reads it. -/
theorem sinkAnswersDoNotChangeTheCore : Obligations.SinkAnswersDoNotChangeTheCore := by
  rintro i s t s' t' answers count rfl hs ht
  have hbegin : s.SameButAnswers
      { s with ports := { s.ports with sinkAnswers := answers, sinkCount := count } } :=
    ⟨⟨rfl, rfl, rfl, rfl, rfl⟩, .refl _⟩
  obtain ⟨s'', t'', hs'', ht'', hcore, hwrites, hreq⟩ := exec_next_sameButAnswers hbegin i
  cases hs''.symm.trans hs
  cases ht''.symm.trans ht
  exact ⟨hcore, hwrites, hreq⟩

end Sys2Proof.Machine
end

section
/-! SUPPORT. Which instructions write duties, and which duties they write (60_exceptions.md R296, 10_state.md R51). -/
namespace Sys2Proof.Machine

/-! ## What writes no duty -/

@[simp] theorem sinkWrites_rsp (w : Word) : sinkWrites [.rsp w] = [] := rfl
@[simp] theorem sinkWrites_trsp (w : Word) : sinkWrites [.trsp w] = [] := rfl
@[simp] theorem sinkWrites_tsreq (r : TsRequest) : sinkWrites [.tsreq r] = [] := rfl
@[simp] theorem sinkWrites_sink (c : ChannelId) (d : Nat) (a : SinkResult) :
    sinkWrites [.sink c d a] = [(c, d, a)] := rfl

/-- From `s` to `t` no duty is written. -/
def State.WritesNoDuty (s t : State) : Prop := sinkWrites t.ports.trace = sinkWrites s.ports.trace

theorem State.WritesNoDuty.ite {s t u : State} {p : Prop} [Decidable p] (ht : p → s.WritesNoDuty t)
    (hu : ¬p → s.WritesNoDuty u) : s.WritesNoDuty (if p then t else u) :=
  iteInduction (motive := s.WritesNoDuty) ht hu

theorem State.writesNoDuty_respond (s : State) (a : Status) (e : ChannelId) (d : Byte) :
    s.WritesNoDuty (s.respond a e d) := by
  simp [State.WritesNoDuty, sinkWrites_append]

theorem State.writesNoDuty_ensureRunning (s : State) : s.WritesNoDuty s.ensureRunning := by
  rcases s.ensureRunning_cases with ⟨-, e⟩ | ⟨-, e⟩ <;> rw [e]
  · exact rfl
  · simp [State.WritesNoDuty, sinkWrites_append]

theorem State.writesNoDuty_initialize (s : State) (ms : Millis) (n : BitVec 16) :
    s.WritesNoDuty (s.initialize ms n) := by
  simp [State.WritesNoDuty, State.initialize_eq, sinkWrites]

theorem State.writesNoDuty_deinitialize (s : State) : s.WritesNoDuty s.deinitialize := by
  rw [State.WritesNoDuty, State.deinitialize_eq]
  cases s.sched.running <;> simp [sinkWrites]

/-- Setting a channel, with the scheduler started for it, and answering. -/
theorem State.writesNoDuty_setChan_ensureRunning (s : State) (c : Nat) (r : ChannelRegs) :
    s.WritesNoDuty ((s.setChan c r).ensureRunning.respond .ok 0#8 0#8) :=
  (State.writesNoDuty_respond _ _ _ _).trans (s.setChan c r).writesNoDuty_ensureRunning

/-- Only TICK and the immediate form of SET_CHANNEL write duties (70_reset_and_hazards.md R325-R327). -/
theorem exec_next_writesNoDuty (s : State) {i : Instr} (htick : i ≠ .tick)
    (himm : ∀ c v, i ≠ .setChannel c v 0#32) :
    ∃ t, exec i s = .next t ∧ s.WritesNoDuty t :=
  have answers := s.writesNoDuty_respond
  have rejects : s.WritesNoDuty (s.raise .invalidArgument) := answers _ _ _
  match i with
  | .init ms n =>
    ⟨_, rfl, .ite (fun _ => rejects) fun _ => .ite (fun _ => rejects) fun _ => .ite (fun _ => rejects) fun _ =>
      .ite (fun _ => answers _ _ _) fun _ => s.writesNoDuty_initialize ms n⟩
  | .deinit => ⟨_, rfl, .ite (fun _ => s.writesNoDuty_deinitialize) fun _ => rejects⟩
  | .setChannel c v _ =>
    ⟨_, rfl, .ite
      (fun _ => .ite (fun hms => absurd (congrArg (Instr.setChannel c v) hms) (himm c v)) fun _ =>
        s.writesNoDuty_setChan_ensureRunning _ _)
      fun _ => rejects⟩
  | .startBlink _ _ _ _ => ⟨_, rfl, .ite (fun _ => s.writesNoDuty_setChan_ensureRunning _ _) fun _ => rejects⟩
  | .stopBlink _ => ⟨_, rfl, .ite (fun _ => (s.setChan _ _).writesNoDuty_respond _ _ _) fun _ => rejects⟩
  | .getChannel _ => ⟨_, rfl, .ite (fun _ => answers _ _ _) fun _ => rejects⟩
  | .setGammaTable _ es =>
    ⟨_, rfl, .ite
      (fun _ => .ite (fun _ => State.writesNoDuty_respond { s with lut := overrideTable es } _ _ _) fun _ => rejects)
      fun _ => rejects⟩
  | .tick => absurd rfl htick

/-! ## The range of the duties -/

/-- Every duty write names a channel id below N_CH_MAX and carries a duty up to DUTY_MAX (R296). -/
def DutiesInRange (p : Params) (es : List Event) : Prop :=
  ∀ x ∈ sinkWrites es, x.1.toNat < p.nChMax ∧ x.2.1 ≤ 2 ^ p.dutyBits - 1

section
variable {p : Params} {es es' : List Event}

theorem DutiesInRange.append (h : DutiesInRange p es) (h' : DutiesInRange p es') : DutiesInRange p (es ++ es') := by
  rw [DutiesInRange, sinkWrites_append, List.forall_mem_append]
  exact ⟨h, h'⟩

theorem dutiesInRange_of_sinkWrites_nil (h : sinkWrites es = []) : DutiesInRange p es := by
  simp [DutiesInRange, h]

theorem DutiesInRange.of_writesNoDuty {s t : State} (h : DutiesInRange p s.ports.trace) (hsame : s.WritesNoDuty t) :
    DutiesInRange p t.ports.trace := by
  rwa [DutiesInRange, hsame]

end

section
variable {s : State} (h : s.Inv) (hduties : DutiesInRange s.params s.ports.trace)
include h

/-- CHANNEL_COUNT is at most N_CH_MAX (10_state.md R34). -/
theorem State.Inv.channelCount_le_nChMax : s.ctrl.channelCount.toNat ≤ s.params.nChMax := by
  have hcount := h.channelCount_le
  obtain ⟨⟨-, hlen, -⟩, -⟩ := h
  exact hcount.trans_eq hlen

include hduties

/-- The one write of the immediate SET_CHANNEL: an accepted channel id, and a Map. -/
theorem DutiesInRange.setNow {c : ChannelId} (hc : c.toNat < s.ctrl.channelCount.toNat) (v : Byte) :
    DutiesInRange s.params (s.setNow c v).ports.trace := by
  have hwrite : DutiesInRange s.params [.sink c (s.map (toQ88 v)) s.sinkAnswer] := by
    simpa [DutiesInRange] using
      ⟨hc.trans_le h.channelCount_le_nChMax, (mapDuty_eq s.params.dutyBits s.lut (toQ88 v)).2⟩
  rw [State.setNow_eq]
  exact (hduties.append hwrite).append (dutiesInRange_of_sinkWrites_nil rfl)

/-- The writes of a TICK, of the channels in use (42_tick_scheduler.md R221). -/
theorem DutiesInRange.tick {t : State} (hx : exec .tick s = .next t) : DutiesInRange s.params t.ports.trace := by
  cases hrun : s.sched.running with
  | true =>
    obtain ⟨es, w, htrace, -, -, -, hrange, -⟩ :=
      tickIsBoundedAndInChannelOrder s t hrun ⟨h.channelCount_le, h.channelCount_le_256⟩ hx
    have hwrites : DutiesInRange s.params es := fun x hmem => by
      obtain ⟨hc, hd⟩ := hrange x hmem
      exact ⟨hc.trans_le h.channelCount_le_nChMax, hd⟩
    rw [htrace]
    exact (hduties.append hwrites).append (dutiesInRange_of_sinkWrites_nil rfl)
  | false =>
    have hstay : exec .tick s = .next s := by simp [exec, execTick, hrun]
    cases hstay.symm.trans hx
    exact hduties

theorem DutiesInRange.exec {i : Instr} {t : State} (hx : exec i s = .next t) :
    DutiesInRange s.params t.ports.trace := by
  by_cases htick : i = .tick
  · exact DutiesInRange.tick h hduties (htick ▸ hx)
  by_cases himm : ∃ c v, i = .setChannel c v 0#32
  · obtain ⟨c, v, rfl⟩ := himm
    cases hc : s.accepts c with
    | true =>
      have hset : Machine.exec (.setChannel c v 0#32) s = .next (s.setNow c v) := by
        simp [Machine.exec, execSetChannel, hc]
      cases hset.symm.trans hx
      obtain ⟨-, hcount⟩ := (s.accepts_iff c).mp hc
      exact DutiesInRange.setNow h hduties hcount v
    | false =>
      cases (exec_channelCommand_of_not_accepts hc (.inl ⟨v, 0#32, rfl⟩)).symm.trans hx
      exact hduties.of_writesNoDuty (s.writesNoDuty_respond _ _ _)
  · push Not at himm
    obtain ⟨u, hu, hsame⟩ := exec_next_writesNoDuty s htick himm
    cases hu.symm.trans hx
    exact hduties.of_writesNoDuty hsame

theorem DutiesInRange.step {t : State} (hstep : step s = .next t) : DutiesInRange s.params t.ports.trace := by
  have hparams : s.params = s.chosen.params := s.chosen_sameCore.1
  have hchosen : DutiesInRange s.chosen.params s.chosen.ports.trace := by rwa [← hparams, s.chosen_trace]
  rw [hparams]
  rcases step_next_cases hstep with ⟨-, rfl⟩ | ⟨-, i, rest, -, hx⟩ | ⟨-, why, rest, -, rfl⟩ |
    ⟨-, w, i, rest, -, -, hx⟩ | ⟨-, w, why, rest, -, -, rfl⟩
  · exact hchosen
  · exact DutiesInRange.exec (h.chosen.withCmdIn rest) hchosen hx
  · exact hchosen.append (dutiesInRange_of_sinkWrites_nil rfl)
  · exact DutiesInRange.exec (h.chosen.withTickIn rest) hchosen hx
  · exact hchosen.append (dutiesInRange_of_sinkWrites_nil rfl)

end

/-- Settles O55, by induction on how the state is reached. -/
theorem reachableDutyWritesAreInRange : Obligations.ReachableDutyWritesAreInRange := by
  intro p s hp hs
  show DutiesInRange p s.ports.trace
  induction hs with
  | reset => exact dutiesInRange_of_sinkWrites_nil rfl
  | offer s t _ ho ih => exact ho.sameCore.2 ▸ ih
  | step s t hs hstep ih =>
    obtain ⟨hinv, hparams⟩ := reachableStatesHaveTheInvariant p s hp hs
    rw [← hparams] at ih ⊢
    exact DutiesInRange.step hinv ih hstep

end Sys2Proof.Machine
end

section
/-! SUPPORT. What reset leaves, what a core answers before INIT, and what refreshes no duty
(70_reset_and_hazards.md R320, R321, R325-R328). -/
namespace Sys2Proof.Machine

/-! ## Reset -/

/-- Settles O18: the fields of `State.resetWith`, one by one. -/
theorem resetLeavesEveryElementAtItsResetValue : Obligations.ResetLeavesEveryElementAtItsResetValue :=
  fun _ => ⟨rfl, rfl, rfl, rfl, rfl⟩

/-! ## Before INIT -/

/-- Every command but INIT asks first whether the core is initialized (R321). -/
theorem exec_of_uninitialized {s : State} {i : Instr} (hoff : s.ctrl.initialized = false) (hport : i.port = .cmd)
    (hinit : ∀ P N, i ≠ .init P N) : exec i s = .next (s.raise .invalidArgument) := by
  have hreject (c : ChannelId) : s.accepts c = false := (s.accepts_eq_false_iff c).mpr (.inl hoff)
  cases i with
  | init P N => exact absurd rfl (hinit P N)
  | deinit => simp [exec, execDeinit, hoff]
  | setChannel c v ms => exact exec_channelCommand_of_not_accepts (hreject c) (.inl ⟨v, ms, rfl⟩)
  | startBlink c v ms sm => exact exec_channelCommand_of_not_accepts (hreject c) (.inr (.inl ⟨v, ms, sm, rfl⟩))
  | stopBlink c => exact exec_channelCommand_of_not_accepts (hreject c) (.inr (.inr (.inl rfl)))
  | getChannel c => exact exec_channelCommand_of_not_accepts (hreject c) (.inr (.inr (.inr rfl)))
  | setGammaTable len es => exact exec_setGammaTable_of_invalid es (.inl hoff)
  | tick => cases hport

/-- The gate of TICK (42_tick_scheduler.md R213). -/
theorem exec_tick_of_stopped {s : State} (hstop : s.sched.running = false) : exec .tick s = .next s := by
  simp [exec, execTick, hstop]

/-- Settles O17: commands are rejected by `exec_of_uninitialized`, TICK is gated by RUNNING. -/
theorem onlyInitSucceedsBeforeInit : Obligations.OnlyInitSucceedsBeforeInit := by
  refine fun s i hoff hstop => ⟨fun hport hinit => ?_, exec_tick_of_stopped hstop⟩
  rw [exec_of_uninitialized hoff hport hinit, State.raise_invalidArgument]

/-! ## What the peripheral holds -/

/-- The peripheral of a channel sees the duty writes and no other transfer (60_exceptions.md R296). -/
theorem peripheralDuty_eq_foldl_sinkWrites (es : List Event) (c : ChannelId) :
    peripheralDuty es c =
      (sinkWrites es).foldl (fun p w => p.after c (.sink w.1 w.2.1 w.2.2)) .unknown := by
  rw [peripheralDuty, sinkWrites, List.foldl_filterMap]
  congr 1
  funext p e
  cases e <;> rfl

theorem State.WritesNoDuty.peripheralDuty_eq {s t : State} (h : s.WritesNoDuty t) (c : ChannelId) :
    peripheralDuty t.ports.trace c = peripheralDuty s.ports.trace c := by
  rw [peripheralDuty_eq_foldl_sinkWrites, peripheralDuty_eq_foldl_sinkWrites, h]

/-- Settles O48: with no duty written, every peripheral holds what it held. -/
theorem onlyImmediateSetsAndTicksWriteDuties : Obligations.OnlyImmediateSetsAndTicksWriteDuties := by
  intro i s t hx htick himm
  obtain ⟨u, hu, hsame⟩ := exec_next_writesNoDuty s htick himm
  cases hu.symm.trans hx
  exact ⟨hsame, hsame.peripheralDuty_eq⟩

end Sys2Proof.Machine
end
